-- ==== Sys2Proof/Word.lean ====
section
/-! DEFINITION. The words, bit strings and character strings of the block (00_scope.md R7, R9; 30_encoding.md R60). -/

namespace Sys2Proof

/-- A command word `CMD` (30_encoding.md R60). -/
abbrev Word := BitVec 16

/-- A bit string: position 0 is the head of the list (00_scope.md R7). -/
abbrev Bits := List Bool

/-- An 8-bit character code, 0 to 255 (00_scope.md R9). -/
abbrev Char8 := BitVec 8

/-- A character string: character 0 is the head of the list (00_scope.md R9). -/
abbrev Chars := List Char8

/-- `ord` of a character literal (00_scope.md R9), as an 8-bit code. -/
def ord (c : Char) : Char8 := BitVec.ofNat 8 c.toNat

/-- The character string with the given literals, each read by `ord`. -/
def ascii (s : String) : Chars := s.toList.map ord

end Sys2Proof
end

