-- ==== Sys2Proof/Config.lean ====
section
/-! DEFINITION. The configuration of one block instance: the OPEN parameters of 00_scope.md R5, fixed for the
instance's life (10_state.md R28). The constants and decided values of R5 stand in Machine/Params.lean. There is no
free value: 93_implementation_defined.md says that no behaviour of the block is "any value". -/

namespace Sys2Proof

/-- `ROUND_TIE`: how a value exactly halfway between two integers rounds (00_scope.md R5, R11). -/
inductive RoundTie where
  | halfEven
  | halfAway
deriving DecidableEq, Repr

/-- The members of `TALKER_IDS` (00_scope.md R5, 44_nmea.md R262); `DEFAULT_TALKER` is one of them. -/
inductive TalkerId where
  | ai
  | gp
deriving DecidableEq, Repr

/-- DESIGN CHOICE (log entry 2). How the model reads ILLEGAL_COMMAND and OPERAND_ERROR: as the faults that
60_exceptions.md R308 asks a model for, or as the responses the block itself gives (R300, R305, R306). This switch is
the model's own; the spec has no such parameter. -/
inductive HostErrorReading where
  | asFault
  | asResponse
deriving DecidableEq, Repr

/-- The parameters a model takes as arguments (00_scope.md R5, R6). The two buffer sizes carry their lower bounds
`MAX_BUF_BITS >= 3024` and `MAX_BUF_CHARS >= 504` as proofs, so that no instance below them can be built.
`armorFits` says that the armored form of the longest bit string is no longer than the longest character string:
`MAX_BUF_CHARS` is the longest character-string operand or RESULT (R5), and ARMOR answers OK for every bit string of up
to `MAX_BUF_BITS` bits (42_armor.md R213, 60_exceptions.md R301). DEDUCED, log entry 10. -/
structure Config where
  roundTie       : RoundTie
  defaultTalker  : TalkerId
  maxBufBits     : Nat
  maxBufChars    : Nat
  hostErrors     : HostErrorReading
  maxBufBits_ge  : 3024 ≤ maxBufBits
  maxBufChars_ge : 504 ≤ maxBufChars
  armorFits      : maxBufBits ≤ 6 * maxBufChars
deriving DecidableEq, Repr

/-- DESIGN CHOICE (log entry 1): the parameter values of the instance that `State.reset` is the reset state of. The
spec leaves all four OPEN; no statement rests on these values. -/
def Config.default : Config where
  roundTie := .halfEven
  defaultTalker := .gp
  maxBufBits := 3024
  maxBufChars := 504
  hostErrors := .asFault
  maxBufBits_ge := Nat.le_refl 3024
  maxBufChars_ge := Nat.le_refl 504
  armorFits := Nat.le_refl 3024

end Sys2Proof
end

