-- ==== Sys2Proof/Syntax.lean ====
section
/-! DEFINITION. The syntax of a transaction: the 40 operations of spec/opcode_table.json (30_encoding.md R62), the
names and typed values of operand records (10_state.md R29, 41_messages.md), and a transaction as the host presents
it (10_state.md R20). -/

namespace Sys2Proof

/-- One constructor per row of spec/opcode_table.json. No operand is packed into the command word (30_encoding.md
R79): a constructor has no argument, and operands travel in the operand record. -/
inductive Instr where
  | seqRead
  | seqWrite
  | encUint
  | encSint
  | encScaled
  | encText
  | decUint
  | decSint
  | decText
  | encLat
  | encLon
  | encSog
  | encCog
  | encHdg
  | encRot
  | encTstamp
  | encDraught
  | encEta
  | decLat
  | decLon
  | msg1
  | msg2
  | msg3
  | msg4
  | msg5
  | msg18
  | msg19
  | msg21
  | msg24a
  | msg24b
  | armor
  | dearmor
  | fillbits
  | split
  | frameAivdm
  | encodeAivdm
  | reassemble
  | checksum
  | build
  | parse
deriving DecidableEq, Repr

/-- The operand names of 30_encoding.md R62 and of the records of 41_messages.md, in the order they are introduced
there. `repeatInd` is the field the spec calls `repeat`. -/
inductive Field where
  -- 30_encoding.md R62
  | ctr | w | v | signed | scale | x | n | s | B
  | lat | lon | sog | cog | hdg | rot | t | d
  | month | day | hour | minute
  | S | chan | f | L | talker | sid | fields
  -- 41_messages.md R171 (PosRec)
  | repeatInd | mmsi | navStatus | posAcc | heading | timestamp | maneuver | raim | radio
  -- 41_messages.md R176 (BaseRec)
  | year | second | epfd
  -- 41_messages.md R178 (VoyRec)
  | aisVersion | imo | callsign | name | shipType | toBow | toStern | toPort | toStarboard
  | etaMonth | etaDay | etaHour | etaMinute | draught | destination | dte
  -- 41_messages.md R180 (ClassBRec)
  | csUnit | display | dsc | band | msg22 | assigned
  -- 41_messages.md R184, R188 (AtonRec, PartBRec)
  | aidType | offPosition | virtual | vendor
deriving DecidableEq, Repr

/-- `Chan`: the channel designator (10_state.md R29). -/
inductive Chan where
  | a
  | b
deriving DecidableEq, Repr

/-- `Fragment` (10_state.md R29, 43_framer.md R230). The numbers are unbounded here, so that a record outside the
ranges of R230 can be written down and refused. -/
structure Fragment where
  total   : Int
  index   : Int
  seqid   : Chars
  chan    : Chan
  payload : Chars
  fill    : Int
deriving DecidableEq, Repr

/-- A value on the operand channel (10_state.md R29). `num` carries integers and rationals alike, since ℤ is part of
ℚ (log entry 6). `illTyped` stands for any value that is of none of R29's types, a nested record with a missing field
among them. -/
inductive OpVal where
  | absent
  | num (q : Rat)
  | bool (b : Bool)
  | bits (B : Bits)
  | chars (S : Chars)
  | chan (c : Chan)
  | fragment (f : Fragment)
  | fragments (L : List Fragment)
  | charsList (L : List Chars)
  | illTyped
deriving DecidableEq, Repr

/-- An operand record: named values (10_state.md R20 item 2, 30_encoding.md R80). -/
abbrev OpRecord := List (Field × OpVal)

/-- One command word with the operand record presented with it (10_state.md R20). -/
structure Transaction where
  cmd      : Word
  operands : OpRecord
deriving DecidableEq, Repr

/-- What the host does to the block: it presents a transaction, or it asserts the reset input (10_state.md R20 items
1, 2 and 4). A reset may cut a transaction that was in progress, which is then abandoned (70_reset_and_hazards.md
R330 item 2; log entry 4). -/
inductive HostEvent where
  | transact (t : Transaction)
  | reset (cut : Option Transaction)
deriving DecidableEq, Repr

end Sys2Proof
end

