-- ==== Sys2Proof/WellFormed.lean ====
section
/-! DEFINITION. When an operand record is well typed for an operation: every operand that 30_encoding.md R62 and the
records of 41_messages.md name is present with a value of its type and within its type's bound (10_state.md R29).
An instruction itself has no operand: it is one fixed command word (30_encoding.md R60, R79), so every `Instr` is well
formed as it stands and what is checked is the record presented with it. -/

namespace Sys2Proof

/-- The operand types of 10_state.md R29. -/
inductive OpType where
  | int
  | real
  | optInt
  | optReal
  | bool
  | bits
  | chars
  | chan
  | fragment
  | fragments
  | charsList
deriving DecidableEq, Repr

/-- A seqid is empty or one digit '1' to '9' (10_state.md R29, 43_framer.md R230). -/
def seqidInRange (q : Chars) : Bool :=
  match q with
  | [] => true
  | [c] => decide (49 ≤ c.toNat ∧ c.toNat ≤ 57)
  | _ => false

/-- The ranges of a `Fragment`'s fields (10_state.md R29, 43_framer.md R230). -/
def Fragment.inRange (f : Fragment) : Bool :=
  decide (1 ≤ f.total ∧ f.total ≤ 9) && decide (1 ≤ f.index ∧ f.index ≤ f.total)
    && seqidInRange f.seqid && decide (0 ≤ f.fill ∧ f.fill ≤ 5)

/-- `v` is a value of type `ty`, within the type's bound (10_state.md R29). -/
def OpVal.hasType (cfg : Config) : OpType → OpVal → Bool
  | .int, .num q => q.den == 1
  | .real, .num _ => true
  | .optInt, .num q => q.den == 1
  | .optInt, .absent => true
  | .optReal, .num _ => true
  | .optReal, .absent => true
  | .bool, .bool _ => true
  | .bits, .bits B => decide (B.length ≤ cfg.maxBufBits)
  | .chars, .chars S => decide (S.length ≤ cfg.maxBufChars)
  | .chan, .chan _ => true
  | .fragment, .fragment f => f.inRange && decide (f.payload.length ≤ cfg.maxBufChars)
  | .fragments, .fragments L => L.all fun f => f.inRange && decide (f.payload.length ≤ cfg.maxBufChars)
  | .charsList, .charsList L => L.all fun S => decide (S.length ≤ cfg.maxBufChars)
  | _, _ => false

/-- The value of the first field of that name; a record has at most one (log entry 5). -/
def OpRecord.lookup (r : OpRecord) (fd : Field) : Option OpVal :=
  match r with
  | [] => none
  | (g, v) :: rest => if g = fd then some v else OpRecord.lookup rest fd

/-- `PosRec` (41_messages.md R171). -/
def posRecFields : List (Field × OpType) :=
  [(.repeatInd, .int), (.mmsi, .int), (.navStatus, .int), (.rot, .optReal), (.sog, .optReal), (.posAcc, .bool),
   (.lon, .optReal), (.lat, .optReal), (.cog, .optReal), (.heading, .optInt), (.timestamp, .optInt),
   (.maneuver, .int), (.raim, .bool), (.radio, .int)]

/-- `BaseRec` (41_messages.md R176). -/
def baseRecFields : List (Field × OpType) :=
  [(.repeatInd, .int), (.mmsi, .int), (.year, .optInt), (.month, .optInt), (.day, .optInt), (.hour, .optInt),
   (.minute, .optInt), (.second, .optInt), (.posAcc, .bool), (.lon, .optReal), (.lat, .optReal), (.epfd, .int),
   (.raim, .bool), (.radio, .int)]

/-- The four dimension fields of `DIMS` (41_messages.md R179). -/
def dimsFields : List (Field × OpType) :=
  [(.toBow, .int), (.toStern, .int), (.toPort, .int), (.toStarboard, .int)]

/-- `VoyRec` (41_messages.md R178). -/
def voyRecFields : List (Field × OpType) :=
  [(.repeatInd, .int), (.mmsi, .int), (.aisVersion, .int), (.imo, .int), (.callsign, .chars), (.name, .chars),
   (.shipType, .int)] ++ dimsFields ++
  [(.epfd, .int), (.etaMonth, .optInt), (.etaDay, .optInt), (.etaHour, .optInt), (.etaMinute, .optInt),
   (.draught, .optReal), (.destination, .chars), (.dte, .bool)]

/-- The fields that `ClassBRec` and `ClassBExtRec` share (41_messages.md R180, R182). -/
def classBCommonFields : List (Field × OpType) :=
  [(.repeatInd, .int), (.mmsi, .int), (.sog, .optReal), (.posAcc, .bool), (.lon, .optReal), (.lat, .optReal),
   (.cog, .optReal), (.heading, .optInt), (.timestamp, .optInt)]

/-- `ClassBRec` (41_messages.md R180). -/
def classBRecFields : List (Field × OpType) :=
  classBCommonFields ++
  [(.csUnit, .bool), (.display, .bool), (.dsc, .bool), (.band, .bool), (.msg22, .bool), (.assigned, .bool),
   (.raim, .bool), (.radio, .int)]

/-- `ClassBExtRec` (41_messages.md R182). -/
def classBExtRecFields : List (Field × OpType) :=
  classBCommonFields ++ [(.name, .chars), (.shipType, .int)] ++ dimsFields ++
  [(.epfd, .int), (.raim, .bool), (.dte, .bool), (.assigned, .bool)]

/-- `AtonRec` (41_messages.md R184). -/
def atonRecFields : List (Field × OpType) :=
  [(.repeatInd, .int), (.mmsi, .int), (.aidType, .int), (.name, .chars), (.posAcc, .bool), (.lon, .optReal),
   (.lat, .optReal)] ++ dimsFields ++
  [(.epfd, .int), (.timestamp, .optInt), (.offPosition, .bool), (.raim, .bool), (.virtual, .bool),
   (.assigned, .bool)]

/-- `PartARec` (41_messages.md R186). -/
def partARecFields : List (Field × OpType) :=
  [(.repeatInd, .int), (.mmsi, .int), (.name, .chars)]

/-- `PartBRec` (41_messages.md R188). -/
def partBRecFields : List (Field × OpType) :=
  [(.repeatInd, .int), (.mmsi, .int), (.shipType, .int), (.vendor, .bits), (.callsign, .chars)] ++ dimsFields ++
  [(.epfd, .int)]

/-- The operands of each operation, in the order 30_encoding.md R62 gives them. -/
def Instr.signature : Instr → List (Field × OpType)
  | .seqRead => []
  | .seqWrite => [(.ctr, .int)]
  | .encUint => [(.w, .int), (.v, .int)]
  | .encSint => [(.w, .int), (.v, .int)]
  | .encScaled => [(.w, .int), (.signed, .bool), (.scale, .real), (.x, .real)]
  | .encText => [(.n, .int), (.s, .chars)]
  | .decUint => [(.B, .bits)]
  | .decSint => [(.B, .bits)]
  | .decText => [(.B, .bits)]
  | .encLat => [(.lat, .optReal)]
  | .encLon => [(.lon, .optReal)]
  | .encSog => [(.sog, .optReal)]
  | .encCog => [(.cog, .optReal)]
  | .encHdg => [(.hdg, .optInt)]
  | .encRot => [(.rot, .optReal)]
  | .encTstamp => [(.t, .optInt)]
  | .encDraught => [(.d, .optReal)]
  | .encEta => [(.month, .optInt), (.day, .optInt), (.hour, .optInt), (.minute, .optInt)]
  | .decLat => [(.B, .bits)]
  | .decLon => [(.B, .bits)]
  | .msg1 => posRecFields
  | .msg2 => posRecFields
  | .msg3 => posRecFields
  | .msg4 => baseRecFields
  | .msg5 => voyRecFields
  | .msg18 => classBRecFields
  | .msg19 => classBExtRecFields
  | .msg21 => atonRecFields
  | .msg24a => partARecFields
  | .msg24b => partBRecFields
  | .armor => [(.B, .bits)]
  | .dearmor => [(.S, .chars)]
  | .fillbits => [(.n, .int)]
  | .split => [(.B, .bits), (.chan, .chan)]
  | .frameAivdm => [(.f, .fragment)]
  | .encodeAivdm => [(.B, .bits), (.chan, .chan)]
  | .reassemble => [(.L, .fragments)]
  | .checksum => [(.S, .chars)]
  | .build => [(.talker, .chars), (.sid, .chars), (.fields, .charsList)]
  | .parse => [(.S, .chars)]

/-- The result types of 30_encoding.md R62 (10_state.md R29). `int` is that of every operation that returns a number,
`fragments` and `sentences` those of a list. -/
inductive ResultType where
  | unit
  | int
  | bits
  | chars
  | latVal
  | fragments
  | sentence
  | sentences
  | parsed
deriving DecidableEq, Repr

/-- The result of each operation (30_encoding.md R62). -/
def Instr.resultType : Instr → ResultType
  | .seqRead => .int
  | .seqWrite => .unit
  | .encUint => .bits
  | .encSint => .bits
  | .encScaled => .bits
  | .encText => .bits
  | .decUint => .int
  | .decSint => .int
  | .decText => .chars
  | .encLat => .bits
  | .encLon => .bits
  | .encSog => .bits
  | .encCog => .bits
  | .encHdg => .bits
  | .encRot => .bits
  | .encTstamp => .bits
  | .encDraught => .bits
  | .encEta => .bits
  | .decLat => .latVal
  | .decLon => .latVal
  | .msg1 => .bits
  | .msg2 => .bits
  | .msg3 => .bits
  | .msg4 => .bits
  | .msg5 => .bits
  | .msg18 => .bits
  | .msg19 => .bits
  | .msg21 => .bits
  | .msg24a => .bits
  | .msg24b => .bits
  | .armor => .chars
  | .dearmor => .bits
  | .fillbits => .int
  | .split => .fragments
  | .frameAivdm => .sentence
  | .encodeAivdm => .sentences
  | .reassemble => .bits
  | .checksum => .int
  | .build => .sentence
  | .parse => .parsed

/-- Every operand the signature names is present, of its type and within its bound: the record passes the operand
type checks of 60_exceptions.md R303 item 2. -/
def OpRecord.wellTyped (cfg : Config) (sig : List (Field × OpType)) (r : OpRecord) : Bool :=
  sig.all fun p =>
    match OpRecord.lookup r p.1 with
    | some v => v.hasType cfg p.2
    | none => false

end Sys2Proof
end

