-- ==== Sys2Proof/Decode.lean ====
section
/-! DEFINITION. Command decoding (30_encoding.md R60, R61, R63) and, after it, the encoder, written from the opcode
map of R62. -/

namespace Sys2Proof

/-- The two errors command decoding can raise (30_encoding.md R61, 60_exceptions.md R300). -/
inductive DecodeError where
  | illegalCommand
  | unsupportedMessageType
deriving DecidableEq, Repr

/-- `FAM = CMD[15:12]` (30_encoding.md R60). -/
def cmdFam (w : Word) : Nat := w.toNat / 4096

/-- `FN = CMD[11:6]` (30_encoding.md R60). -/
def cmdFn (w : Word) : Nat := w.toNat / 64 % 64

/-- `SUB = CMD[5:4]` (30_encoding.md R60). -/
def cmdSub (w : Word) : Nat := w.toNat / 16 % 4

/-- `RSV = CMD[3:0]` (30_encoding.md R60). -/
def cmdRsv (w : Word) : Nat := w.toNat % 16

/-- Family 2: the ten pairs `(FN, SUB)` of 30_encoding.md R61, keyed by the AIS type code and the type-24 part. -/
def decodeMessage (fn sub : Nat) : Option Instr :=
  match fn, sub with
  | 1, 0 => some .msg1
  | 2, 0 => some .msg2
  | 3, 0 => some .msg3
  | 4, 0 => some .msg4
  | 5, 0 => some .msg5
  | 18, 0 => some .msg18
  | 19, 0 => some .msg19
  | 21, 0 => some .msg21
  | 24, 0 => some .msg24a
  | 24, 1 => some .msg24b
  | _, _ => none

/-- The rows of 30_encoding.md R62 outside family 2, by `FAM` and `FN` (`SUB` is 0 in all of them). -/
def decodeRow (fam fn : Nat) : Option Instr :=
  match fam, fn with
  | 0, 1 => some .seqRead
  | 0, 2 => some .seqWrite
  | 1, 0 => some .encUint
  | 1, 1 => some .encSint
  | 1, 2 => some .encScaled
  | 1, 3 => some .encText
  | 1, 4 => some .decUint
  | 1, 5 => some .decSint
  | 1, 6 => some .decText
  | 1, 8 => some .encLat
  | 1, 9 => some .encLon
  | 1, 10 => some .encSog
  | 1, 11 => some .encCog
  | 1, 12 => some .encHdg
  | 1, 13 => some .encRot
  | 1, 14 => some .encTstamp
  | 1, 15 => some .encDraught
  | 1, 16 => some .encEta
  | 1, 20 => some .decLat
  | 1, 21 => some .decLon
  | 3, 0 => some .armor
  | 3, 1 => some .dearmor
  | 3, 2 => some .fillbits
  | 4, 0 => some .split
  | 4, 1 => some .frameAivdm
  | 4, 2 => some .encodeAivdm
  | 4, 3 => some .reassemble
  | 5, 0 => some .checksum
  | 5, 1 => some .build
  | 5, 2 => some .parse
  | _, _ => none

/-- Command decoding, stopping at the first step of 30_encoding.md R61 that applies. -/
def decode (cmd : Word) : Except DecodeError Instr :=
  if cmdRsv cmd ≠ 0 then .error .illegalCommand
  else if cmdFam cmd = 2 then
    match decodeMessage (cmdFn cmd) (cmdSub cmd) with
    | some i => .ok i
    | none => .error .unsupportedMessageType
  else if cmdSub cmd ≠ 0 then .error .illegalCommand
  else
    match decodeRow (cmdFam cmd) (cmdFn cmd) with
    | some i => .ok i
    | none => .error .illegalCommand

/-- `(FAM, FN, SUB)` of each operation (30_encoding.md R62). -/
def Instr.code : Instr → Nat × Nat × Nat
  | .seqRead => (0, 1, 0)
  | .seqWrite => (0, 2, 0)
  | .encUint => (1, 0, 0)
  | .encSint => (1, 1, 0)
  | .encScaled => (1, 2, 0)
  | .encText => (1, 3, 0)
  | .decUint => (1, 4, 0)
  | .decSint => (1, 5, 0)
  | .decText => (1, 6, 0)
  | .encLat => (1, 8, 0)
  | .encLon => (1, 9, 0)
  | .encSog => (1, 10, 0)
  | .encCog => (1, 11, 0)
  | .encHdg => (1, 12, 0)
  | .encRot => (1, 13, 0)
  | .encTstamp => (1, 14, 0)
  | .encDraught => (1, 15, 0)
  | .encEta => (1, 16, 0)
  | .decLat => (1, 20, 0)
  | .decLon => (1, 21, 0)
  | .msg1 => (2, 1, 0)
  | .msg2 => (2, 2, 0)
  | .msg3 => (2, 3, 0)
  | .msg4 => (2, 4, 0)
  | .msg5 => (2, 5, 0)
  | .msg18 => (2, 18, 0)
  | .msg19 => (2, 19, 0)
  | .msg21 => (2, 21, 0)
  | .msg24a => (2, 24, 0)
  | .msg24b => (2, 24, 1)
  | .armor => (3, 0, 0)
  | .dearmor => (3, 1, 0)
  | .fillbits => (3, 2, 0)
  | .split => (4, 0, 0)
  | .frameAivdm => (4, 1, 0)
  | .encodeAivdm => (4, 2, 0)
  | .reassemble => (4, 3, 0)
  | .checksum => (5, 0, 0)
  | .build => (5, 1, 0)
  | .parse => (5, 2, 0)

/-- `CMD = FAM << 12 | FN << 6 | SUB << 4`, with `RSV = 0` (30_encoding.md R62). -/
def encode (i : Instr) : Word :=
  match i.code with
  | (fam, fn, sub) => BitVec.ofNat 16 (fam * 4096 + fn * 64 + sub * 16)

/-- The instruction the decoder reads from a row of spec/opcode_table.json whose `nbits` bits are `w`. A command word
is one 16-bit word (30_encoding.md R60), so bits above the first 16 make no command word. -/
def decodeTableWord (nbits w : Nat) : Option Instr :=
  let v := w % 2 ^ nbits
  if v < 65536 then (decode (BitVec.ofNat 16 v)).toOption else none

end Sys2Proof
end

