-- ==== Sys2Proof/Machine/State.lean ====
section
/-! DEFINITION. The state of one block instance (10_state.md R20, R22, R29, R31), the responses it gives
(60_exceptions.md R300), and the reasons a step can stop (60_exceptions.md R308). -/

namespace Sys2Proof.Machine

/-- The status codes of 60_exceptions.md R300. Codes 7 to 15 are never returned, so they have no constructor
(93_implementation_defined.md I9). -/
inductive Status where
  | ok
  | malformedSentence
  | checksumMismatch
  | unsupportedSentenceType
  | unsupportedMessageType
  | illegalCommand
  | operandError
deriving DecidableEq, Repr

/-- `LatVal` (10_state.md R29). -/
inductive LatVal where
  | na
  | deg (q : Rat)
deriving DecidableEq, Repr

/-- `Parsed`, what PARSE returns (10_state.md R29). -/
structure Parsed where
  talker   : Chars
  sid      : Chars
  fields   : List Chars
  checksum : Char8
deriving DecidableEq, Repr

/-- The result records of 30_encoding.md R62. `unit` is the empty record of SEQ_WRITE. `int` carries every number:
`ctr`, the fill count, the checksum and the decoded integers. -/
inductive Result where
  | unit
  | int (v : Int)
  | bits (B : Bits)
  | chars (S : Chars)
  | latVal (v : LatVal)
  | fragments (L : List Fragment)
  | sentence (S : Chars)
  | sentences (L : List Chars)
  | parsed (p : Parsed)
deriving DecidableEq, Repr

/-- What the response channel returns: a status and, when it is OK, the result record (10_state.md R20 item 3). -/
structure Response where
  status : Status
  result : Option Result
deriving DecidableEq, Repr

/-- The error an operation raises after decoding (60_exceptions.md R300): `operand fd` is `OPERAND_ERROR` for the
operand `fd`. -/
inductive OpError where
  | malformedSentence
  | checksumMismatch
  | unsupportedSentenceType
  | operand (fd : Field)
deriving DecidableEq, Repr

/-- Why the machine stops with a fault. Both constructors are the spec's own reading of a status a model faults on
(60_exceptions.md R308; 93_implementation_defined.md I4, I5), and arise only while `cfg.hostErrors` is `asFault`
(log entry 2). Both are SAFE: the model stops where the block goes on from an unchanged state. -/
inductive Fault where
  /-- Raised by the step's command decoding: the command word spells no operation (30_encoding.md R61, R63). Safe. -/
  | illegalCommand (cmd : Word)
  /-- Raised by any operation: an operand is missing, of the wrong type, or out of its type's bound or the operation's
  stated range (60_exceptions.md R301). It names the operation and the operand. Safe. -/
  | operandError (op : Instr) (operand : Field)
deriving DecidableEq, Repr

/-- Why an instruction is refused. -/
inductive Refusal where
  /-- Raised by `exec` for an instruction that has no meaning yet. Safe: no run goes on past it. -/
  | notModelled (mnemonic : String)
deriving DecidableEq, Repr

/-- One block instance with its four channels (10_state.md R20). `seqCtr` is the only state register (R22, R23);
`input` is what the host has presented and the block has not yet taken, oldest first (20_memory.md R44); `operands` is
the operand channel of the transaction being performed; `response` is the response channel. `cfg` is the instance's
configuration, which no step changes (10_state.md R28; log entry 1). -/
structure State where
  cfg      : Config
  seqCtr   : BitVec 4
  input    : List HostEvent
  operands : OpRecord
  response : Option Response
deriving DecidableEq, Repr

/-- The state at the start of a run of an instance of configuration `cfg`: the initial counter, a premise that defaults
to 0 and is otherwise a value SEQ_WRITE can have written; no transaction in flight; no response pending
(70_reset_and_hazards.md R331). With the default counter it is the state right after reset (10_state.md R31,
70_reset_and_hazards.md R330). -/
def State.init (cfg : Config) (initialCounter : Fin 10 := 0) : State where
  cfg := cfg
  seqCtr := BitVec.ofNat 4 initialCounter
  input := []
  operands := []
  response := none

/-- The machine right after reset. The configuration is DESIGN CHOICE, log entry 1. -/
def State.reset : State := State.init Config.default

end Sys2Proof.Machine
end

