-- ==== Sys2Proof/Machine/Params.lean ====
section
/-! DEFINITION. The constants and decided values of 00_scope.md R5. -/

namespace Sys2Proof.Machine

/-- `FRAG_BITS`. -/
def fragBits : Nat := 336

/-- `FRAG_CHARS`. -/
def fragChars : Nat := 56

/-- `MAX_FRAGS`. -/
def maxFrags : Nat := 9

/-- `MAX_PAYLOAD_BITS = MAX_FRAGS * FRAG_BITS`. -/
def maxPayloadBits : Nat := 3024

/-- `MAX_SENTENCE`, terminator included. -/
def maxSentence : Nat := 82

/-- `SEQ_MOD`. -/
def seqMod : Nat := 10

/-- `LL_SCALE`, units per degree. -/
def llScale : Rat := 600000

/-- `ROT_K` squared: `4.733 ^ 2` (40_bitfield.md R136). -/
def rotKSq : Rat := 22401289 / 1000000

/-- `LAT_MIN` (90_conflicts.md C5). -/
def latMin : Int := -67108864

/-- `LAT_MAX` (90_conflicts.md C5). -/
def latMax : Int := 67108863

/-- `LON_MIN` (90_conflicts.md C5). -/
def lonMin : Int := -134217728

/-- `LON_MAX` (90_conflicts.md C5). -/
def lonMax : Int := 134217727

/-- The latitude not-available value, `91 * 600000` (40_bitfield.md R121). -/
def latNa : Int := 54600000

/-- The longitude not-available value, `181 * 600000` (40_bitfield.md R121). -/
def lonNa : Int := 108600000

/-- `MAX_FIELD_W`. -/
def maxFieldW : Int := 32

/-- The two characters of a member of `TALKER_IDS`. -/
def talkerChars : TalkerId → Chars
  | .ai => ascii "AI"
  | .gp => ascii "GP"

/-- `TALKER_IDS` (44_nmea.md R262). -/
def talkerIds : List Chars := [talkerChars .ai, talkerChars .gp]

/-- `SENTENCE_IDS` (44_nmea.md R262). -/
def sentenceIds : List Chars := [ascii "VDM", ascii "GGA", ascii "RMC"]

end Sys2Proof.Machine
end

