-- ==== Sys2Proof/Machine/Ops.lean ====
section
/-! DEFINITION. The named operations every meaning is written with: numbers and bit strings (00_scope.md R8, R10 to
R12), numerals (R9), the counter (43_framer.md R233), and how a transaction begins, is answered or fails
(10_state.md R20, 60_exceptions.md R305, R308). -/

namespace Sys2Proof.Machine

/-! ### Numbers -/

/-- `clamp(v, lo, hi)` (00_scope.md R10). -/
def clamp (v lo hi : Int) : Int := max lo (min hi v)

/-- `ROUND(x)`: the nearest integer, a tie by `ROUND_TIE` (00_scope.md R11). -/
def roundQ (tie : RoundTie) (x : Rat) : Int :=
  let f := x.floor
  let d := x - (f : Rat)
  if d < 1 / 2 then f
  else if 1 / 2 < d then f + 1
  else
    match tie with
    | .halfEven => if f % 2 = 0 then f else f + 1
    | .halfAway => if 0 < x then f + 1 else f

/-- The greatest `q` below `2 ^ k` added to `acc`, found bit by bit from the top, whose square is at most `n`. -/
def isqrtBits : Nat → Nat → Nat → Nat
  | 0, acc, _ => acc
  | k + 1, acc, n =>
    if (acc + 2 ^ k) * (acc + 2 ^ k) ≤ n then isqrtBits k (acc + 2 ^ k) n else isqrtBits k acc n

/-- The greatest `q` with `q * q <= n` (00_scope.md R12). -/
def isqrt (n : Nat) : Nat := isqrtBits (n.log2 + 1) 0 n

/-- `RSQRT(m)` for `m >= 0`: the rounded square root, a tie by `ROUND_TIE` (00_scope.md R12). The greatest integer `q`
with `q * q <= m` is that of `floor(m)`, since `q * q` is an integer. -/
def rsqrt (tie : RoundTie) (m : Rat) : Int :=
  let q : Nat := isqrt m.floor.toNat
  let t : Rat := ((q : Rat) + 1 / 2) * ((q : Rat) + 1 / 2)
  if m < t then q
  else if t < m then q + 1
  else
    match tie with
    | .halfEven => if q % 2 = 0 then q else q + 1
    | .halfAway => q + 1

/-! ### Bit strings -/

/-- `u_w(v)`: the `w` low bits of `v`, most significant first; exact for `v < 2 ^ w` (00_scope.md R8). -/
def uBits : Nat → Nat → Bits
  | 0, _ => []
  | w + 1, v => v.testBit w :: uBits w v

/-- `s_w(v) = u_w(v mod 2^w)` (00_scope.md R8). -/
def sBits (w : Nat) (v : Int) : Bits := uBits w (v % 2 ^ w).toNat

/-- `uval(B)`: the first bit is the most significant (00_scope.md R7, R8). -/
def uval (B : Bits) : Nat := B.foldl (fun acc b => 2 * acc + b.toNat) 0

/-- `sval(B)` (00_scope.md R8). -/
def sval (B : Bits) : Int :=
  match B with
  | true :: _ => (uval B : Int) - 2 ^ B.length
  | _ => uval B

/-- `0^k` (00_scope.md R7). -/
def zeros (k : Nat) : Bits := List.replicate k false

/-- The first `k` groups of six bits of `B`, in order (42_armor.md R210). -/
def sixGroups : Nat → Bits → List Bits
  | 0, _ => []
  | k + 1, B => B.take 6 :: sixGroups k (B.drop 6)

/-! ### Numerals -/

/-- `dec(n)` by at most `fuel` digits. -/
def decimalDigits : Nat → Nat → Chars
  | 0, _ => []
  | fuel + 1, n =>
    if n < 10 then [BitVec.ofNat 8 (48 + n)]
    else decimalDigits fuel (n / 10) ++ [BitVec.ofNat 8 (48 + n % 10)]

/-- `dec(n)`: the decimal numeral with no leading zeros (00_scope.md R9). -/
def decimal (n : Nat) : Chars := decimalDigits (n + 1) n

/-- One uppercase hexadecimal digit of `n < 16`. -/
def hexDigit (n : Nat) : Char8 :=
  if n < 10 then BitVec.ofNat 8 (48 + n) else BitVec.ofNat 8 (55 + n)

/-- `HEX2(v)` (00_scope.md R9). -/
def hex2 (v : Char8) : Chars := [hexDigit (v.toNat / 16), hexDigit (v.toNat % 16)]

/-- `CRLF` (00_scope.md R9). -/
def crlf : Chars := [13, 10]

/-! ### The counter -/

/-- `(CTR + 1) mod SEQ_MOD` (43_framer.md R233). -/
def nextCtr (c : BitVec 4) : BitVec 4 := BitVec.ofNat 4 ((c.toNat + 1) % seqMod)

/-- The seqid that a counter value is shown as: empty for 0 (43_framer.md R233). -/
def seqidOf (c : BitVec 4) : Chars := if c.toNat = 0 then [] else decimal c.toNat

/-- `SEQ_CTR.CTR <- c`, all four bits at once (20_memory.md R45). -/
def State.setCtr (s : State) (c : BitVec 4) : State := { s with seqCtr := c }

/-! ### A transaction's beginning and end -/

/-- The block takes the transaction: its operand record stands on the operand channel and no response is pending
(10_state.md R20, log entry 8). -/
def State.accept (s : State) (operands : OpRecord) (rest : List HostEvent) : State :=
  { s with input := rest, operands := operands, response := none }

/-- The response channel returns `OK` with the result record, and the transaction is over (10_state.md R20). -/
def State.answered (s : State) (r : Result) : State :=
  { s with operands := [], response := some { status := .ok, result := some r } }

/-- The response channel returns a status other than `OK` and no result; nothing else is saved and the counter is
unchanged (60_exceptions.md R305). -/
def State.failed (s : State) (st : Status) : State :=
  { s with operands := [], response := some { status := st, result := none } }

/-- An operation raises an error: the block's whole trap entry (60_exceptions.md R305). The statuses of D0 are
ordinary responses; `OPERAND_ERROR` is a fault naming the operation and the operand, or the block's response, as
`cfg.hostErrors` says (R308; log entry 2). There is no handler, so there is no return from it: the next transaction
starts from the state left here (R306). -/
def raise (op : Instr) (e : OpError) (s : State) : Host.Outcome State Fault Refusal :=
  match e with
  | .malformedSentence => .next (s.failed .malformedSentence)
  | .checksumMismatch => .next (s.failed .checksumMismatch)
  | .unsupportedSentenceType => .next (s.failed .unsupportedSentenceType)
  | .operand fd =>
    match s.cfg.hostErrors with
    | .asFault => .fault (.operandError op fd)
    | .asResponse => .next (s.failed .operandError)

/-- Command decoding raises an error (30_encoding.md R61, R63; 60_exceptions.md R308). -/
def rejectCommand (cmd : Word) (e : DecodeError) (s : State) : Host.Outcome State Fault Refusal :=
  match e with
  | .unsupportedMessageType => .next (s.failed .unsupportedMessageType)
  | .illegalCommand =>
    match s.cfg.hostErrors with
    | .asFault => .fault (.illegalCommand cmd)
    | .asResponse => .next (s.failed .illegalCommand)

/-- The end of an operation that writes no state (20_memory.md R46): its result, or the error it raised. -/
def answer (op : Instr) (r : Except OpError Result) (s : State) : Host.Outcome State Fault Refusal :=
  match r with
  | .ok v => .next (s.answered v)
  | .error e => raise op e s

/-- The end of an operation that also writes `SEQ_CTR`: the one write comes after every check (60_exceptions.md
R305). -/
def answerCtr (op : Instr) (r : Except OpError (BitVec 4 × Result)) (s : State) : Host.Outcome State Fault Refusal :=
  match r with
  | .ok (c, v) => .next ((s.setCtr c).answered v)
  | .error e => raise op e s

/-- The reset input is asserted: `SEQ_CTR.CTR <- 0`, no response is pending, any transaction in progress is abandoned
and the configuration stays (70_reset_and_hazards.md R330). -/
def State.applyReset (s : State) (rest : List HostEvent) : State :=
  { s with seqCtr := 0, input := rest, operands := [], response := none }

end Sys2Proof.Machine
end

