-- ==== Sys2Proof/Machine/Operands.lean ====
section
/-! DEFINITION. Reading the operand channel: one reader per operand type of 10_state.md R29, each raising
`OPERAND_ERROR` for a missing field, a value of another type or a value out of the type's bound (60_exceptions.md R301,
R303 item 2), and one reader per record of 41_messages.md. Also the types and bounds of the result channel (10_state.md
R29, 20_memory.md R47). -/

namespace Sys2Proof.Machine

/-! ### The operand types -/

/-- `Int`: ℤ, no bound. An integral number only (log entry 6). -/
def readInt (s : State) (fd : Field) : Except OpError Int :=
  match OpRecord.lookup s.operands fd with
  | some (.num q) => if q.den = 1 then .ok q.num else .error (.operand fd)
  | _ => .error (.operand fd)

/-- `Real`: ℚ, no bound. -/
def readReal (s : State) (fd : Field) : Except OpError Rat :=
  match OpRecord.lookup s.operands fd with
  | some (.num q) => .ok q
  | _ => .error (.operand fd)

/-- `Opt Int`: `ABSENT` is `none` (00_scope.md R13). -/
def readOptInt (s : State) (fd : Field) : Except OpError (Option Int) :=
  match OpRecord.lookup s.operands fd with
  | some .absent => .ok none
  | some (.num q) => if q.den = 1 then .ok (some q.num) else .error (.operand fd)
  | _ => .error (.operand fd)

/-- `Opt Real`: `ABSENT` is `none` (00_scope.md R13). -/
def readOptReal (s : State) (fd : Field) : Except OpError (Option Rat) :=
  match OpRecord.lookup s.operands fd with
  | some .absent => .ok none
  | some (.num q) => .ok (some q)
  | _ => .error (.operand fd)

/-- `Bool`. -/
def readBool (s : State) (fd : Field) : Except OpError Bool :=
  match OpRecord.lookup s.operands fd with
  | some (.bool b) => .ok b
  | _ => .error (.operand fd)

/-- `Bits`: at most `MAX_BUF_BITS` bits (log entry 7). -/
def readBits (s : State) (fd : Field) : Except OpError Bits :=
  match OpRecord.lookup s.operands fd with
  | some (.bits B) => if B.length ≤ s.cfg.maxBufBits then .ok B else .error (.operand fd)
  | _ => .error (.operand fd)

/-- `Chars`: at most `MAX_BUF_CHARS` characters (log entry 7). -/
def readChars (s : State) (fd : Field) : Except OpError Chars :=
  match OpRecord.lookup s.operands fd with
  | some (.chars S) => if S.length ≤ s.cfg.maxBufChars then .ok S else .error (.operand fd)
  | _ => .error (.operand fd)

/-- `Chan`. -/
def readChan (s : State) (fd : Field) : Except OpError Chan :=
  match OpRecord.lookup s.operands fd with
  | some (.chan c) => .ok c
  | _ => .error (.operand fd)

/-- `Fragment`: its payload is a `Chars` (log entry 7); the ranges of 43_framer.md R230 are checked by the operations
that take one. -/
def readFragment (s : State) (fd : Field) : Except OpError Fragment :=
  match OpRecord.lookup s.operands fd with
  | some (.fragment g) => if g.payload.length ≤ s.cfg.maxBufChars then .ok g else .error (.operand fd)
  | _ => .error (.operand fd)

/-- A list of `Fragment`. -/
def readFragments (s : State) (fd : Field) : Except OpError (List Fragment) :=
  match OpRecord.lookup s.operands fd with
  | some (.fragments L) =>
    if L.all (fun g => decide (g.payload.length ≤ s.cfg.maxBufChars)) then .ok L else .error (.operand fd)
  | _ => .error (.operand fd)

/-- A list of `Chars`, each within its bound. -/
def readCharsList (s : State) (fd : Field) : Except OpError (List Chars) :=
  match OpRecord.lookup s.operands fd with
  | some (.charsList L) =>
    if L.all (fun S => decide (S.length ≤ s.cfg.maxBufChars)) then .ok L else .error (.operand fd)
  | _ => .error (.operand fd)

/-! ### The records of 41_messages.md -/

/-- `PosRec` (41_messages.md R171). -/
structure PosRec where
  repeatInd : Int
  mmsi      : Int
  navStatus : Int
  rot       : Option Rat
  sog       : Option Rat
  posAcc    : Bool
  lon       : Option Rat
  lat       : Option Rat
  cog       : Option Rat
  heading   : Option Int
  timestamp : Option Int
  maneuver  : Int
  raim      : Bool
  radio     : Int
deriving DecidableEq, Repr

/-- `BaseRec` (41_messages.md R176). -/
structure BaseRec where
  repeatInd : Int
  mmsi      : Int
  year      : Option Int
  month     : Option Int
  day       : Option Int
  hour      : Option Int
  minute    : Option Int
  second    : Option Int
  posAcc    : Bool
  lon       : Option Rat
  lat       : Option Rat
  epfd      : Int
  raim      : Bool
  radio     : Int
deriving DecidableEq, Repr

/-- The dimension fields of `DIMS` (41_messages.md R179). -/
structure Dims where
  toBow       : Int
  toStern     : Int
  toPort      : Int
  toStarboard : Int
deriving DecidableEq, Repr

/-- `VoyRec` (41_messages.md R178). -/
structure VoyRec where
  repeatInd   : Int
  mmsi        : Int
  aisVersion  : Int
  imo         : Int
  callsign    : Chars
  name        : Chars
  shipType    : Int
  dims        : Dims
  epfd        : Int
  etaMonth    : Option Int
  etaDay      : Option Int
  etaHour     : Option Int
  etaMinute   : Option Int
  draught     : Option Rat
  destination : Chars
  dte         : Bool
deriving DecidableEq, Repr

/-- The fields that `CBBODY` reads (41_messages.md R180, R181, R182). -/
structure ClassBCommon where
  repeatInd : Int
  mmsi      : Int
  sog       : Option Rat
  posAcc    : Bool
  lon       : Option Rat
  lat       : Option Rat
  cog       : Option Rat
  heading   : Option Int
  timestamp : Option Int
deriving DecidableEq, Repr

/-- `ClassBRec` (41_messages.md R180). -/
structure ClassBRec where
  common   : ClassBCommon
  csUnit   : Bool
  display  : Bool
  dsc      : Bool
  band     : Bool
  msg22    : Bool
  assigned : Bool
  raim     : Bool
  radio    : Int
deriving DecidableEq, Repr

/-- `ClassBExtRec` (41_messages.md R182). -/
structure ClassBExtRec where
  common   : ClassBCommon
  name     : Chars
  shipType : Int
  dims     : Dims
  epfd     : Int
  raim     : Bool
  dte      : Bool
  assigned : Bool
deriving DecidableEq, Repr

/-- `AtonRec` (41_messages.md R184). -/
structure AtonRec where
  repeatInd   : Int
  mmsi        : Int
  aidType     : Int
  name        : Chars
  posAcc      : Bool
  lon         : Option Rat
  lat         : Option Rat
  dims        : Dims
  epfd        : Int
  timestamp   : Option Int
  offPosition : Bool
  raim        : Bool
  virtual     : Bool
  assigned    : Bool
deriving DecidableEq, Repr

/-- `PartARec` (41_messages.md R186). -/
structure PartARec where
  repeatInd : Int
  mmsi      : Int
  name      : Chars
deriving DecidableEq, Repr

/-- `PartBRec` (41_messages.md R188). -/
structure PartBRec where
  repeatInd : Int
  mmsi      : Int
  shipType  : Int
  vendor    : Bits
  callsign  : Chars
  dims      : Dims
  epfd      : Int
deriving DecidableEq, Repr

def readPosRec (s : State) : Except OpError PosRec := do
  let repeatInd ← readInt s .repeatInd
  let mmsi ← readInt s .mmsi
  let navStatus ← readInt s .navStatus
  let rot ← readOptReal s .rot
  let sog ← readOptReal s .sog
  let posAcc ← readBool s .posAcc
  let lon ← readOptReal s .lon
  let lat ← readOptReal s .lat
  let cog ← readOptReal s .cog
  let heading ← readOptInt s .heading
  let timestamp ← readOptInt s .timestamp
  let maneuver ← readInt s .maneuver
  let raim ← readBool s .raim
  let radio ← readInt s .radio
  return ⟨repeatInd, mmsi, navStatus, rot, sog, posAcc, lon, lat, cog, heading, timestamp, maneuver, raim, radio⟩

def readBaseRec (s : State) : Except OpError BaseRec := do
  let repeatInd ← readInt s .repeatInd
  let mmsi ← readInt s .mmsi
  let year ← readOptInt s .year
  let month ← readOptInt s .month
  let day ← readOptInt s .day
  let hour ← readOptInt s .hour
  let minute ← readOptInt s .minute
  let second ← readOptInt s .second
  let posAcc ← readBool s .posAcc
  let lon ← readOptReal s .lon
  let lat ← readOptReal s .lat
  let epfd ← readInt s .epfd
  let raim ← readBool s .raim
  let radio ← readInt s .radio
  return ⟨repeatInd, mmsi, year, month, day, hour, minute, second, posAcc, lon, lat, epfd, raim, radio⟩

def readDims (s : State) : Except OpError Dims := do
  let toBow ← readInt s .toBow
  let toStern ← readInt s .toStern
  let toPort ← readInt s .toPort
  let toStarboard ← readInt s .toStarboard
  return ⟨toBow, toStern, toPort, toStarboard⟩

def readVoyRec (s : State) : Except OpError VoyRec := do
  let repeatInd ← readInt s .repeatInd
  let mmsi ← readInt s .mmsi
  let aisVersion ← readInt s .aisVersion
  let imo ← readInt s .imo
  let callsign ← readChars s .callsign
  let name ← readChars s .name
  let shipType ← readInt s .shipType
  let dims ← readDims s
  let epfd ← readInt s .epfd
  let etaMonth ← readOptInt s .etaMonth
  let etaDay ← readOptInt s .etaDay
  let etaHour ← readOptInt s .etaHour
  let etaMinute ← readOptInt s .etaMinute
  let draught ← readOptReal s .draught
  let destination ← readChars s .destination
  let dte ← readBool s .dte
  return ⟨repeatInd, mmsi, aisVersion, imo, callsign, name, shipType, dims, epfd, etaMonth, etaDay, etaHour,
    etaMinute, draught, destination, dte⟩

def readClassBCommon (s : State) : Except OpError ClassBCommon := do
  let repeatInd ← readInt s .repeatInd
  let mmsi ← readInt s .mmsi
  let sog ← readOptReal s .sog
  let posAcc ← readBool s .posAcc
  let lon ← readOptReal s .lon
  let lat ← readOptReal s .lat
  let cog ← readOptReal s .cog
  let heading ← readOptInt s .heading
  let timestamp ← readOptInt s .timestamp
  return ⟨repeatInd, mmsi, sog, posAcc, lon, lat, cog, heading, timestamp⟩

def readClassBRec (s : State) : Except OpError ClassBRec := do
  let common ← readClassBCommon s
  let csUnit ← readBool s .csUnit
  let display ← readBool s .display
  let dsc ← readBool s .dsc
  let band ← readBool s .band
  let msg22 ← readBool s .msg22
  let assigned ← readBool s .assigned
  let raim ← readBool s .raim
  let radio ← readInt s .radio
  return ⟨common, csUnit, display, dsc, band, msg22, assigned, raim, radio⟩

def readClassBExtRec (s : State) : Except OpError ClassBExtRec := do
  let common ← readClassBCommon s
  let name ← readChars s .name
  let shipType ← readInt s .shipType
  let dims ← readDims s
  let epfd ← readInt s .epfd
  let raim ← readBool s .raim
  let dte ← readBool s .dte
  let assigned ← readBool s .assigned
  return ⟨common, name, shipType, dims, epfd, raim, dte, assigned⟩

def readAtonRec (s : State) : Except OpError AtonRec := do
  let repeatInd ← readInt s .repeatInd
  let mmsi ← readInt s .mmsi
  let aidType ← readInt s .aidType
  let name ← readChars s .name
  let posAcc ← readBool s .posAcc
  let lon ← readOptReal s .lon
  let lat ← readOptReal s .lat
  let dims ← readDims s
  let epfd ← readInt s .epfd
  let timestamp ← readOptInt s .timestamp
  let offPosition ← readBool s .offPosition
  let raim ← readBool s .raim
  let virtual ← readBool s .virtual
  let assigned ← readBool s .assigned
  return ⟨repeatInd, mmsi, aidType, name, posAcc, lon, lat, dims, epfd, timestamp, offPosition, raim, virtual,
    assigned⟩

def readPartARec (s : State) : Except OpError PartARec := do
  let repeatInd ← readInt s .repeatInd
  let mmsi ← readInt s .mmsi
  let name ← readChars s .name
  return ⟨repeatInd, mmsi, name⟩

def readPartBRec (s : State) : Except OpError PartBRec := do
  let repeatInd ← readInt s .repeatInd
  let mmsi ← readInt s .mmsi
  let shipType ← readInt s .shipType
  let vendor ← readBits s .vendor
  let callsign ← readChars s .callsign
  let dims ← readDims s
  let epfd ← readInt s .epfd
  return ⟨repeatInd, mmsi, shipType, vendor, callsign, dims, epfd⟩

/-! ### The result types -/

/-- `r` is a result of type `ty`, within the type's bound: a `Bits` of at most `MAX_BUF_BITS` bits, a `Chars` of at
most `MAX_BUF_CHARS` characters, a `Sentence` of at most 82, a `Fragment` in its ranges, a `Parsed` of a 2-character
talker, a 3-character sentence ID and fields that are `Chars` (00_scope.md R5, 10_state.md R29, 20_memory.md R47). No
operation checks this: that every result has its type is a law of the operations. -/
def Result.hasType (cfg : Config) : ResultType → Result → Bool
  | .unit, .unit => true
  | .int, .int _ => true
  | .bits, .bits B => decide (B.length ≤ cfg.maxBufBits)
  | .chars, .chars S => decide (S.length ≤ cfg.maxBufChars)
  | .latVal, .latVal _ => true
  | .fragments, .fragments L => L.all fun f => f.inRange && decide (f.payload.length ≤ cfg.maxBufChars)
  | .sentence, .sentence S => decide (S.length ≤ maxSentence)
  | .sentences, .sentences L => L.all fun S => decide (S.length ≤ maxSentence)
  | .parsed, .parsed p =>
    decide (p.talker.length = 2 ∧ p.sid.length = 3) && p.fields.all fun S => decide (S.length ≤ cfg.maxBufChars)
  | _, _ => false

/-! ### A sample record for every operation -/

/-- The sample value of a type: zero, false, the empty string, channel A (log entry 3). -/
def sampleOfType : OpType → OpVal
  | .int => .num 0
  | .real => .num 0
  | .optInt => .num 0
  | .optReal => .num 0
  | .bool => .bool false
  | .bits => .bits [false]
  | .chars => .chars []
  | .chan => .chan .a
  | .fragment => .fragment { total := 1, index := 1, seqid := [], chan := .a, payload := [], fill := 0 }
  | .fragments => .fragments [{ total := 1, index := 1, seqid := [], chan := .a, payload := [], fill := 0 }]
  | .charsList => .charsList []

/-- An operand record with which every operation completes: the sample value of each operand's type, but for a width,
a count, a string of fixed length or a sentence that the operation's own checks need otherwise. It is what
`State.withFetchWord` presents with a command word, which carries no operand (log entry 3). -/
def sampleOperands (i : Instr) : OpRecord :=
  match i with
  | .encUint => [(.w, .num 1), (.v, .num 0)]
  | .encSint => [(.w, .num 1), (.v, .num 0)]
  | .encScaled => [(.w, .num 1), (.signed, .bool false), (.scale, .num 0), (.x, .num 0)]
  | .encText => [(.n, .num 1), (.s, .chars [])]
  | .decText => [(.B, .bits (zeros 6))]
  | .decLat => [(.B, .bits (zeros 27))]
  | .decLon => [(.B, .bits (zeros 28))]
  | .msg24b => (.vendor, .bits (zeros 42)) :: i.signature.map fun p => (p.1, sampleOfType p.2)
  | .build => [(.talker, .chars (ascii "GP")), (.sid, .chars (ascii "GGA")), (.fields, .charsList [])]
  | .parse => [(.S, .chars (ascii "$GPGGA*56"))]
  | _ => i.signature.map fun p => (p.1, sampleOfType p.2)

end Sys2Proof.Machine
end

