-- ==== Sys2Proof/Machine/Flags.lean ====
section
/-! DEFINITION. The block has no status flags or condition codes (10_state.md R25). What stands in their place: the
4-bit `STATUS` of a response (60_exceptions.md R300), and the one-bit Boolean field of a payload (40_bitfield.md
R143). -/

namespace Sys2Proof.Machine

/-- The 4-bit code of a status (60_exceptions.md R300). -/
def statusCode : Status → BitVec 4
  | .ok => 0
  | .malformedSentence => 1
  | .checksumMismatch => 2
  | .unsupportedSentenceType => 3
  | .unsupportedMessageType => 4
  | .illegalCommand => 5
  | .operandError => 6

/-- The status that a fault stands for (60_exceptions.md R308). -/
def faultStatus : Fault → Status
  | .illegalCommand _ => .illegalCommand
  | .operandError _ _ => .operandError

/-- `flag(b)` (40_bitfield.md R143). -/
def flag (b : Bool) : Bits := [b]

end Sys2Proof.Machine
end

