-- ==== Sys2Proof/Machine/Control.lean ====
section
/-! DEFINITION. The control operations on the one state register (45_control.md). -/

namespace Sys2Proof.Machine

/-- SEQ_WRITE's check and the value it writes (45_control.md R291). -/
def seqWriteValue (ctr : Int) : Except OpError (BitVec 4) :=
  if ctr < 0 ∨ 9 < ctr then .error (.operand .ctr) else .ok (BitVec.ofNat 4 ctr.toNat)

/-- SEQ_READ, `0x0040` (45_control.md R290). -/
def execSeqRead (s : State) : Host.Outcome State Fault Refusal :=
  answer .seqRead (.ok (.int s.seqCtr.toNat)) s

/-- SEQ_WRITE, `0x0080` (45_control.md R291). -/
def execSeqWrite (s : State) : Host.Outcome State Fault Refusal :=
  answerCtr .seqWrite (do
    let ctr ← readInt s .ctr
    let c ← seqWriteValue ctr
    return (c, .unit)) s

end Sys2Proof.Machine
end

