-- ==== Sys2Proof/Machine/Armor.lean ====
section
/-! DEFINITION. The 6-bit ASCII armor (42_armor.md). -/

namespace Sys2Proof.Machine

/-- `FILL(n)` (42_armor.md R212). -/
def fill (n : Nat) : Nat := (6 - n % 6) % 6

/-- `ALPHA[i] = chr(48 + i)` for `i` in 0..63 (42_armor.md R211; 90_conflicts.md C1). -/
def alpha (i : Nat) : Char8 := BitVec.ofNat 8 (48 + i)

/-- `B ++ 0^FILL(len(B))` (42_armor.md R210). -/
def padSix (B : Bits) : Bits := B ++ zeros (fill B.length)

/-- ARMOR (42_armor.md R213). -/
def armor (B : Bits) : Chars := (sixGroups ((padSix B).length / 6) (padSix B)).map fun g => alpha (uval g)

/-- The six bits of one armored character; a character outside 48..111 gives six zero bits (42_armor.md R214). -/
def dearmorChar (c : Char8) : Bits := if 48 ≤ c.toNat ∧ c.toNat ≤ 111 then uBits 6 (c.toNat - 48) else zeros 6

/-- The bits of an armored string, one character after another (42_armor.md R214). -/
def dearmorBits (S : Chars) : Bits := S.flatMap dearmorChar

/-- DEARMOR (42_armor.md R214). -/
def dearmor (maxBufBits : Nat) (S : Chars) : Except OpError Bits :=
  if maxBufBits < 6 * S.length then .error (.operand .S) else .ok (dearmorBits S)

/-- FILLBITS (42_armor.md R212). -/
def fillbits (n : Int) : Except OpError Int :=
  if n < 0 then .error (.operand .n) else .ok (fill n.toNat)

/-! ### The meanings -/

/-- ARMOR, `0x3000` (42_armor.md R213). Its length check is the type bound of its operand (10_state.md R29). -/
def execArmor (s : State) : Host.Outcome State Fault Refusal :=
  answer .armor (do
    let B ← readBits s .B
    return .chars (armor B)) s

/-- DEARMOR, `0x3040` (42_armor.md R214). -/
def execDearmor (s : State) : Host.Outcome State Fault Refusal :=
  answer .dearmor (do
    let S ← readChars s .S
    return .bits (← dearmor s.cfg.maxBufBits S)) s

/-- FILLBITS, `0x3080` (42_armor.md R212). -/
def execFillbits (s : State) : Host.Outcome State Fault Refusal :=
  answer .fillbits (do
    let n ← readInt s .n
    return .int (← fillbits n)) s

end Sys2Proof.Machine
end

