-- ==== Sys2Proof/Machine/Nmea.lean ====
section
/-! DEFINITION. The NMEA sentence framework: checksum, builder and parser (44_nmea.md). -/

namespace Sys2Proof.Machine

/-- The XOR of every character (44_nmea.md R260). -/
def checksum (S : Chars) : Char8 := S.foldl (fun x c => x ^^^ c) 0

/-- `concat over f in fields of ("," ++ f)` (44_nmea.md R263). -/
def joinFields (fields : List Chars) : Chars := fields.flatMap fun f => ord ',' :: f

/-- The prefix: `!` for `VDM`, `$` for every other sentence ID (44_nmea.md R262). -/
def prefixOf (sid : Chars) : Char8 := if sid = ascii "VDM" then ord '!' else ord '$'

/-- `prefix ++ body ++ "*" ++ HEX2(CHECKSUM(body)) ++ CRLF` (44_nmea.md R263). -/
def renderSentence (talker sid : Chars) (fields : List Chars) : Chars :=
  let body := talker ++ sid ++ joinFields fields
  prefixOf sid :: body ++ ord '*' :: hex2 (checksum body) ++ crlf

/-- BUILD, its checks in pseudocode order (44_nmea.md R263). -/
def build (talker sid : Chars) (fields : List Chars) : Except OpError Chars :=
  if talker.length ≠ 2 then .error (.operand .talker)
  else if sid ∉ sentenceIds then .error .unsupportedSentenceType
  else if maxSentence < (renderSentence talker sid fields).length then .error .malformedSentence
  else .ok (renderSentence talker sid fields)

/-- A terminator character, CR or LF. -/
def isCrLf (c : Char8) : Bool := c == 13 || c == 10

/-- `S` with every trailing CR and LF removed (44_nmea.md R265). -/
def stripCrLf (S : Chars) : Chars := (S.reverse.dropWhile isCrLf).reverse

/-- The value of a hexadecimal digit of either case, or none (44_nmea.md R261, R265). -/
def hexVal (c : Char8) : Option Nat :=
  if 48 ≤ c.toNat ∧ c.toNat ≤ 57 then some (c.toNat - 48)
  else if 65 ≤ c.toNat ∧ c.toNat ≤ 70 then some (c.toNat - 55)
  else if 97 ≤ c.toNat ∧ c.toNat ≤ 102 then some (c.toNat - 87)
  else none

/-- `hexvalue(h)` of exactly two hexadecimal digits, or none (44_nmea.md R265). -/
def hexPair (h : Chars) : Option Char8 :=
  match h with
  | [a, b] =>
    match hexVal a, hexVal b with
    | some x, some y => some (BitVec.ofNat 8 (16 * x + y))
    | _, _ => none
  | _ => none

/-- `split body on ','`: `k` commas give `k + 1` parts, the first part and the rest (44_nmea.md R265). -/
def splitComma : Chars → Chars × List Chars
  | [] => ([], [])
  | c :: cs =>
    if c = ord ',' then ([], (splitComma cs).1 :: (splitComma cs).2)
    else (c :: (splitComma cs).1, (splitComma cs).2)

/-- The last steps of PARSE, on a body whose checksum `x` is right (44_nmea.md R265, R266). -/
def parseBody (dflt : TalkerId) (body : Chars) (x : Char8) : Except OpError Parsed :=
  let addr := (splitComma body).1
  if addr.length ≠ 5 then .error .malformedSentence
  else if addr.drop 2 ∉ sentenceIds then .error .unsupportedSentenceType
  else
    .ok {
      talker := if addr.take 2 ∈ talkerIds then addr.take 2 else talkerChars dflt
      sid := addr.drop 2
      fields := (splitComma body).2
      checksum := x }

/-- The steps of PARSE after the prefix check: `T` is the stripped sentence without its prefix character. The first
`*` of `T` ends the body, and what follows it is the checksum text (44_nmea.md R265). -/
def parseFramed (dflt : TalkerId) (T : Chars) : Except OpError Parsed :=
  let body := T.takeWhile (· != ord '*')
  match T.dropWhile (· != ord '*') with
  | [] => .error .malformedSentence
  | _ :: h =>
    match hexPair h with
    | none => .error .malformedSentence
    | some v => if checksum body ≠ v then .error .checksumMismatch else parseBody dflt body (checksum body)

/-- PARSE, its checks in pseudocode order (44_nmea.md R265). -/
def parse (dflt : TalkerId) (S : Chars) : Except OpError Parsed :=
  if maxSentence < (stripCrLf S).length + 2 then .error .malformedSentence
  else
    match stripCrLf S with
    | [] => .error .malformedSentence
    | c :: T => if c = ord '$' ∨ c = ord '!' then parseFramed dflt T else .error .malformedSentence

/-! ### The meanings -/

/-- CHECKSUM, `0x5000` (44_nmea.md R260). Its length check is the type bound of its operand (10_state.md R29). -/
def execChecksum (s : State) : Host.Outcome State Fault Refusal :=
  answer .checksum (do
    let S ← readChars s .S
    return .int (checksum S).toNat) s

/-- BUILD, `0x5040` (44_nmea.md R263). -/
def execBuild (s : State) : Host.Outcome State Fault Refusal :=
  answer .build (do
    let talker ← readChars s .talker
    let sid ← readChars s .sid
    let fields ← readCharsList s .fields
    return .sentence (← build talker sid fields)) s

/-- PARSE, `0x5080` (44_nmea.md R265). Its first check is the type bound of its operand (10_state.md R29). -/
def execParse (s : State) : Host.Outcome State Fault Refusal :=
  answer .parse (do
    let S ← readChars s .S
    return .parsed (← parse s.cfg.defaultTalker S)) s

end Sys2Proof.Machine
end

