-- ==== Sys2Proof/Machine/Framer.lean ====
section
/-! DEFINITION. The multi-part framer (43_framer.md). -/

namespace Sys2Proof.Machine

/-- The ranges of a fragment's fields (43_framer.md R230). -/
def fragmentOk (f : Fragment) : Bool :=
  decide (1 ≤ f.total ∧ f.total ≤ maxFrags) && decide (1 ≤ f.index ∧ f.index ≤ f.total)
    && seqidInRange f.seqid && decide (0 ≤ f.fill ∧ f.fill ≤ 5)

/-- The fragment count `ceil(n / 336)` (43_framer.md R231). -/
def fragCount (n : Nat) : Nat := (n + (fragBits - 1)) / fragBits

/-- Chunk `i`: `B<336i .. min(336(i+1), n) - 1>` (43_framer.md R232). -/
def chunk (B : Bits) (i : Nat) : Bits := (B.drop (fragBits * i)).take fragBits

/-- One fragment of a payload: a chunk armored by itself, with its own fill (43_framer.md R232). -/
def mkFragment (total index : Nat) (seqid : Chars) (chan : Chan) (C : Bits) : Fragment where
  total := total
  index := index
  seqid := seqid
  chan := chan
  payload := armor C
  fill := fill C.length

/-- SPLIT: the counter after it and the fragments (43_framer.md R233, R234). The length check comes before the
counter's update (60_exceptions.md R305). -/
def splitPayload (ctr : BitVec 4) (B : Bits) (chan : Chan) : Except OpError (BitVec 4 × List Fragment) :=
  if B.length < 1 ∨ maxPayloadBits < B.length then .error (.operand .B)
  else if B.length ≤ fragBits then .ok (ctr, [mkFragment 1 1 [] chan B])
  else
    let k := fragCount B.length
    let c := nextCtr ctr
    .ok (c, (List.range k).map fun i => mkFragment k (i + 1) (seqidOf c) chan (chunk B i))

/-- The channel's letter (43_framer.md R235). -/
def chanChars : Chan → Chars
  | .a => ascii "A"
  | .b => ascii "B"

/-- FRAME_AIVDM (43_framer.md R235; format 30_encoding.md R76). -/
def frameAivdm (f : Fragment) : Except OpError Chars :=
  if fragmentOk f then
    build (ascii "AI") (ascii "VDM")
      [decimal f.total.toNat, decimal f.index.toNat, f.seqid, chanChars f.chan, f.payload, decimal f.fill.toNat]
  else .error (.operand .f)

/-- `[FRAME_AIVDM(f) for f in L]`, the first error raised (43_framer.md R236). -/
def frameAll : List Fragment → Except OpError (List Chars)
  | [] => .ok []
  | f :: rest => do
    let S ← frameAivdm f
    let more ← frameAll rest
    return S :: more

/-- ENCODE_AIVDM (43_framer.md R236): all its sentences or none (60_exceptions.md R305). -/
def encodePayload (ctr : BitVec 4) (B : Bits) (chan : Chan) : Except OpError (BitVec 4 × List Chars) := do
  let (c, L) ← splitPayload ctr B chan
  let sentences ← frameAll L
  return (c, sentences)

/-- The checks of REASSEMBLE on fragment `i` (counting from 0) of `k`, whose first fragment has the seqid `q`
(43_framer.md R237). -/
def reassembleItemOk (k : Nat) (q : Chars) (i : Nat) (f : Fragment) : Bool :=
  fragmentOk f && decide (f.total = k ∧ f.index = i + 1) && decide (f.seqid = q)
    && (decide (k ≤ i + 1) || decide (f.fill = 0))

/-- The checks of REASSEMBLE on every fragment from position `i` on (43_framer.md R237). -/
def reassembleAllOk (k : Nat) (q : Chars) : Nat → List Fragment → Bool
  | _, [] => true
  | i, f :: rest => reassembleItemOk k q i f && reassembleAllOk k q (i + 1) rest

/-- `D`: the de-armored payloads, one after another (43_framer.md R237; log entry 9). -/
def dearmorAll (L : List Fragment) : Bits := L.flatMap fun f => dearmorBits f.payload

/-- REASSEMBLE (43_framer.md R237). -/
def reassemble (maxBufBits : Nat) (L : List Fragment) : Except OpError Bits :=
  match L.head?, L.getLast? with
  | some first, some last =>
    if maxFrags < L.length then .error (.operand .L)
    else if !reassembleAllOk L.length first.seqid 0 L then .error (.operand .L)
    else if 6 * last.payload.length < last.fill.toNat then .error (.operand .L)
    else if maxBufBits < (dearmorAll L).length - last.fill.toNat then .error (.operand .L)
    else .ok ((dearmorAll L).take ((dearmorAll L).length - last.fill.toNat))
  | _, _ => .error (.operand .L)

/-! ### The meanings -/

/-- SPLIT, `0x4000` (43_framer.md R234). -/
def execSplit (s : State) : Host.Outcome State Fault Refusal :=
  answerCtr .split (do
    let B ← readBits s .B
    let chan ← readChan s .chan
    let (c, L) ← splitPayload s.seqCtr B chan
    return (c, .fragments L)) s

/-- FRAME_AIVDM, `0x4040` (43_framer.md R235). -/
def execFrameAivdm (s : State) : Host.Outcome State Fault Refusal :=
  answer .frameAivdm (do
    let f ← readFragment s .f
    return .sentence (← frameAivdm f)) s

/-- ENCODE_AIVDM, `0x4080` (43_framer.md R236). -/
def execEncodeAivdm (s : State) : Host.Outcome State Fault Refusal :=
  answerCtr .encodeAivdm (do
    let B ← readBits s .B
    let chan ← readChan s .chan
    let (c, L) ← encodePayload s.seqCtr B chan
    return (c, .sentences L)) s

/-- REASSEMBLE, `0x40C0` (43_framer.md R237). -/
def execReassemble (s : State) : Host.Outcome State Fault Refusal :=
  answer .reassemble (do
    let L ← readFragments s .L
    return .bits (← reassemble s.cfg.maxBufBits L)) s

end Sys2Proof.Machine
end

