-- ==== Sys2Proof/Machine/Bitfield.lean ====
section
/-! DEFINITION. The bit-field codec (40_bitfield.md). Each operation is a pure function, which the message encoders
call with constant widths, and a meaning that reads the operand record and calls it. -/

namespace Sys2Proof.Machine

/-! ### Generic encoders and decoders -/

/-- A width is in 1..`MAX_FIELD_W` (40_bitfield.md R122 to R124). -/
def widthOk (w : Int) : Bool := decide (1 ≤ w ∧ w ≤ maxFieldW)

/-- `ENC_UINT` at a width in range: `u_w(clamp(v, 0, 2^w - 1))` (40_bitfield.md R122). -/
def encUintField (w : Nat) (v : Int) : Bits := uBits w (clamp v 0 (2 ^ w - 1)).toNat

/-- `ENC_SINT` at a width in range: `s_w(clamp(v, -2^(w-1), 2^(w-1) - 1))` (40_bitfield.md R123). -/
def encSintField (w : Nat) (v : Int) : Bits := sBits w (clamp v (-2 ^ (w - 1)) (2 ^ (w - 1) - 1))

/-- ENC_UINT (40_bitfield.md R122). -/
def encUint (w v : Int) : Except OpError Bits :=
  if widthOk w then .ok (encUintField w.toNat v) else .error (.operand .w)

/-- ENC_SINT (40_bitfield.md R123). -/
def encSint (w v : Int) : Except OpError Bits :=
  if widthOk w then .ok (encSintField w.toNat v) else .error (.operand .w)

/-- ENC_SCALED (40_bitfield.md R124). -/
def encScaled (tie : RoundTie) (w : Int) (signed : Bool) (scale x : Rat) : Except OpError Bits :=
  if widthOk w then
    .ok (if signed then encSintField w.toNat (roundQ tie (x * scale))
      else encUintField w.toNat (roundQ tie (x * scale)))
  else .error (.operand .w)

/-- `SIXBIT(c)` (40_bitfield.md R125). -/
def sixbit (c : Char8) : Nat :=
  if 32 ≤ c.toNat ∧ c.toNat ≤ 63 then c.toNat
  else if 64 ≤ c.toNat ∧ c.toNat ≤ 95 then c.toNat - 64
  else 0

/-- The six-bit codes of a text, one after another (40_bitfield.md R126). -/
def textBits (t : Chars) : Bits := t.flatMap fun c => uBits 6 (sixbit c)

/-- `(s ++ n spaces)[0..n)` (40_bitfield.md R126). -/
def padText (n : Nat) (s : Chars) : Chars := (s ++ List.replicate n (32 : Char8)).take n

/-- `ENC_TEXT` at a count in range (40_bitfield.md R126). -/
def encTextField (n : Nat) (s : Chars) : Bits := textBits (padText n s)

/-- ENC_TEXT (40_bitfield.md R126). -/
def encText (maxBufBits : Nat) (n : Int) (s : Chars) : Except OpError Bits :=
  if n < 1 ∨ (maxBufBits : Int) < 6 * n then .error (.operand .n) else .ok (encTextField n.toNat s)

/-- A generic integer field to read has 1 to `MAX_FIELD_W` bits (40_bitfield.md R127, R128). -/
def fieldLenOk (B : Bits) : Bool := decide (1 ≤ B.length ∧ (B.length : Int) ≤ maxFieldW)

/-- DEC_UINT (40_bitfield.md R127). -/
def decUint (B : Bits) : Except OpError Int :=
  if fieldLenOk B then .ok (uval B) else .error (.operand .B)

/-- DEC_SINT (40_bitfield.md R128). -/
def decSint (B : Bits) : Except OpError Int :=
  if fieldLenOk B then .ok (sval B) else .error (.operand .B)

/-- `UNSIXBIT(v)` for `v <= 63` (40_bitfield.md R129). -/
def unsixbit (v : Nat) : Char8 := if v < 32 then BitVec.ofNat 8 (v + 64) else BitVec.ofNat 8 v

/-- DEC_TEXT (40_bitfield.md R130). -/
def decText (B : Bits) : Except OpError Chars :=
  if B.length % 6 ≠ 0 then .error (.operand .B)
  else .ok ((sixGroups (B.length / 6) B).map fun g => unsixbit (uval g))

/-! ### Field encoders and decoders -/

/-- ENC_LAT (40_bitfield.md R131). -/
def encLat (tie : RoundTie) (lat : Option Rat) : Bits :=
  match lat with
  | none => sBits 27 latNa
  | some q => if q = 91 then sBits 27 latNa else sBits 27 (clamp (roundQ tie (q * llScale)) latMin latMax)

/-- ENC_LON (40_bitfield.md R132). -/
def encLon (tie : RoundTie) (lon : Option Rat) : Bits :=
  match lon with
  | none => sBits 28 lonNa
  | some q => if q = 181 then sBits 28 lonNa else sBits 28 (clamp (roundQ tie (q * llScale)) lonMin lonMax)

/-- ENC_SOG (40_bitfield.md R133). -/
def encSog (tie : RoundTie) (sog : Option Rat) : Bits :=
  match sog with
  | none => uBits 10 1023
  | some q => if (1023 / 10 : Rat) ≤ q then uBits 10 1023 else uBits 10 (clamp (roundQ tie (q * 10)) 0 1022).toNat

/-- ENC_COG (40_bitfield.md R134). -/
def encCog (tie : RoundTie) (cog : Option Rat) : Bits :=
  match cog with
  | none => uBits 12 3600
  | some q => if 360 ≤ q then uBits 12 3600 else uBits 12 (clamp (roundQ tie (q * 10)) 0 3599).toNat

/-- ENC_HDG (40_bitfield.md R135). -/
def encHdg (hdg : Option Int) : Bits :=
  match hdg with
  | none => uBits 9 511
  | some h => if 511 ≤ h then uBits 9 511 else uBits 9 (clamp h 0 359).toNat

/-- `n = min(RSQRT(4.733^2 * |rot|), 127)` (40_bitfield.md R136). -/
def rotMagnitude (tie : RoundTie) (q : Rat) : Int := min (rsqrt tie (rotKSq * |q|)) 127

/-- ENC_ROT (40_bitfield.md R136). The not-available pattern is `"10000000"`. -/
def encRot (tie : RoundTie) (rot : Option Rat) : Bits :=
  match rot with
  | none => uBits 8 128
  | some q =>
    if q = 128 then uBits 8 128
    else if q = 0 then zeros 8
    else if 0 < q then sBits 8 (rotMagnitude tie q)
    else sBits 8 (-rotMagnitude tie q)

/-- ENC_TSTAMP (40_bitfield.md R137). -/
def encTstamp (t : Option Int) : Bits :=
  match t with
  | none => uBits 6 60
  | some v => uBits 6 (clamp v 0 63).toNat

/-- ENC_DRAUGHT (40_bitfield.md R138). -/
def encDraught (tie : RoundTie) (d : Option Rat) : Bits :=
  match d with
  | none => uBits 8 0
  | some q => if (255 / 10 : Rat) ≤ q then uBits 8 0 else uBits 8 (clamp (roundQ tie (q * 10)) 0 255).toNat

/-- `CALFIELD(v, lo, hi, na, w)` (40_bitfield.md R139). -/
def calField (v : Option Int) (lo hi : Int) (na w : Nat) : Bits :=
  match v with
  | none => uBits w na
  | some x => if x < lo ∨ hi < x then uBits w na else uBits w x.toNat

/-- ENC_ETA (40_bitfield.md R140). -/
def encEta (month day hour minute : Option Int) : Bits :=
  calField month 1 12 0 4 ++ calField day 1 31 0 5 ++ calField hour 0 23 24 5 ++ calField minute 0 59 60 6

/-- DEC_LAT (40_bitfield.md R141). -/
def decLat (B : Bits) : Except OpError LatVal :=
  if B.length ≠ 27 then .error (.operand .B)
  else if sval B = latNa then .ok .na
  else .ok (.deg ((sval B : Rat) / llScale))

/-- DEC_LON (40_bitfield.md R142). -/
def decLon (B : Bits) : Except OpError LatVal :=
  if B.length ≠ 28 then .error (.operand .B)
  else if sval B = lonNa then .ok .na
  else .ok (.deg ((sval B : Rat) / llScale))

/-! ### The meanings -/

/-- ENC_UINT, `0x1000` (40_bitfield.md R122). -/
def execEncUint (s : State) : Host.Outcome State Fault Refusal :=
  answer .encUint (do
    let w ← readInt s .w
    let v ← readInt s .v
    return .bits (← encUint w v)) s

/-- ENC_SINT, `0x1040` (40_bitfield.md R123). -/
def execEncSint (s : State) : Host.Outcome State Fault Refusal :=
  answer .encSint (do
    let w ← readInt s .w
    let v ← readInt s .v
    return .bits (← encSint w v)) s

/-- ENC_SCALED, `0x1080` (40_bitfield.md R124). -/
def execEncScaled (s : State) : Host.Outcome State Fault Refusal :=
  answer .encScaled (do
    let w ← readInt s .w
    let signed ← readBool s .signed
    let scale ← readReal s .scale
    let x ← readReal s .x
    return .bits (← encScaled s.cfg.roundTie w signed scale x)) s

/-- ENC_TEXT, `0x10C0` (40_bitfield.md R126). -/
def execEncText (s : State) : Host.Outcome State Fault Refusal :=
  answer .encText (do
    let n ← readInt s .n
    let t ← readChars s .s
    return .bits (← encText s.cfg.maxBufBits n t)) s

/-- DEC_UINT, `0x1100` (40_bitfield.md R127). -/
def execDecUint (s : State) : Host.Outcome State Fault Refusal :=
  answer .decUint (do
    let B ← readBits s .B
    return .int (← decUint B)) s

/-- DEC_SINT, `0x1140` (40_bitfield.md R128). -/
def execDecSint (s : State) : Host.Outcome State Fault Refusal :=
  answer .decSint (do
    let B ← readBits s .B
    return .int (← decSint B)) s

/-- DEC_TEXT, `0x1180` (40_bitfield.md R130). -/
def execDecText (s : State) : Host.Outcome State Fault Refusal :=
  answer .decText (do
    let B ← readBits s .B
    return .chars (← decText B)) s

/-- ENC_LAT, `0x1200` (40_bitfield.md R131). -/
def execEncLat (s : State) : Host.Outcome State Fault Refusal :=
  answer .encLat (do
    let lat ← readOptReal s .lat
    return .bits (encLat s.cfg.roundTie lat)) s

/-- ENC_LON, `0x1240` (40_bitfield.md R132). -/
def execEncLon (s : State) : Host.Outcome State Fault Refusal :=
  answer .encLon (do
    let lon ← readOptReal s .lon
    return .bits (encLon s.cfg.roundTie lon)) s

/-- ENC_SOG, `0x1280` (40_bitfield.md R133). -/
def execEncSog (s : State) : Host.Outcome State Fault Refusal :=
  answer .encSog (do
    let sog ← readOptReal s .sog
    return .bits (encSog s.cfg.roundTie sog)) s

/-- ENC_COG, `0x12C0` (40_bitfield.md R134). -/
def execEncCog (s : State) : Host.Outcome State Fault Refusal :=
  answer .encCog (do
    let cog ← readOptReal s .cog
    return .bits (encCog s.cfg.roundTie cog)) s

/-- ENC_HDG, `0x1300` (40_bitfield.md R135). -/
def execEncHdg (s : State) : Host.Outcome State Fault Refusal :=
  answer .encHdg (do
    let hdg ← readOptInt s .hdg
    return .bits (encHdg hdg)) s

/-- ENC_ROT, `0x1340` (40_bitfield.md R136). -/
def execEncRot (s : State) : Host.Outcome State Fault Refusal :=
  answer .encRot (do
    let rot ← readOptReal s .rot
    return .bits (encRot s.cfg.roundTie rot)) s

/-- ENC_TSTAMP, `0x1380` (40_bitfield.md R137). -/
def execEncTstamp (s : State) : Host.Outcome State Fault Refusal :=
  answer .encTstamp (do
    let t ← readOptInt s .t
    return .bits (encTstamp t)) s

/-- ENC_DRAUGHT, `0x13C0` (40_bitfield.md R138). -/
def execEncDraught (s : State) : Host.Outcome State Fault Refusal :=
  answer .encDraught (do
    let d ← readOptReal s .d
    return .bits (encDraught s.cfg.roundTie d)) s

/-- ENC_ETA, `0x1400` (40_bitfield.md R140). -/
def execEncEta (s : State) : Host.Outcome State Fault Refusal :=
  answer .encEta (do
    let month ← readOptInt s .month
    let day ← readOptInt s .day
    let hour ← readOptInt s .hour
    let minute ← readOptInt s .minute
    return .bits (encEta month day hour minute)) s

/-- DEC_LAT, `0x1500` (40_bitfield.md R141). -/
def execDecLat (s : State) : Host.Outcome State Fault Refusal :=
  answer .decLat (do
    let B ← readBits s .B
    return .latVal (← decLat B)) s

/-- DEC_LON, `0x1540` (40_bitfield.md R142). -/
def execDecLon (s : State) : Host.Outcome State Fault Refusal :=
  answer .decLon (do
    let B ← readBits s .B
    return .latVal (← decLon B)) s

end Sys2Proof.Machine
end

