-- ==== Sys2Proof/Machine/Messages.lean ====
section
/-! DEFINITION. The message encoder (41_messages.md): ten operations, each the concatenation of the fields of its
layout (30_encoding.md R64 to R74), every field clamped or replaced by its not-available value (41_messages.md R170). -/

namespace Sys2Proof.Machine

/-- The 38-bit header of every payload (30_encoding.md R64). -/
def msgHeader (t : Nat) (repeatInd mmsi : Int) : Bits :=
  uBits 6 t ++ encUintField 2 repeatInd ++ encUintField 30 mmsi

/-- `DIMS(r)`, 30 bits (41_messages.md R179). -/
def dimsBits (d : Dims) : Bits :=
  encUintField 9 d.toBow ++ encUintField 9 d.toStern ++ encUintField 6 d.toPort ++ encUintField 6 d.toStarboard

/-- `POSBODY(t, r)`, 168 bits (41_messages.md R172; layout 30_encoding.md R67). -/
def posBody (tie : RoundTie) (t : Nat) (r : PosRec) : Bits :=
  msgHeader t r.repeatInd r.mmsi
    ++ encUintField 4 r.navStatus ++ encRot tie r.rot ++ encSog tie r.sog
    ++ flag r.posAcc ++ encLon tie r.lon ++ encLat tie r.lat
    ++ encCog tie r.cog ++ encHdg r.heading ++ encTstamp r.timestamp
    ++ encUintField 2 r.maneuver ++ zeros 3 ++ flag r.raim ++ encUintField 19 r.radio

/-- The type-4 payload, 168 bits (41_messages.md R177; layout 30_encoding.md R68). -/
def msg4Bits (tie : RoundTie) (r : BaseRec) : Bits :=
  msgHeader 4 r.repeatInd r.mmsi
    ++ calField r.year 1 9999 0 14 ++ calField r.month 1 12 0 4 ++ calField r.day 1 31 0 5
    ++ calField r.hour 0 23 24 5 ++ calField r.minute 0 59 60 6 ++ calField r.second 0 59 60 6
    ++ flag r.posAcc ++ encLon tie r.lon ++ encLat tie r.lat
    ++ encUintField 4 r.epfd ++ zeros 10 ++ flag r.raim ++ encUintField 19 r.radio

/-- The type-5 payload, 424 bits (41_messages.md R179; layout 30_encoding.md R69). -/
def msg5Bits (tie : RoundTie) (r : VoyRec) : Bits :=
  msgHeader 5 r.repeatInd r.mmsi
    ++ encUintField 2 r.aisVersion ++ encUintField 30 r.imo
    ++ encTextField 7 r.callsign ++ encTextField 20 r.name ++ encUintField 8 r.shipType
    ++ dimsBits r.dims ++ encUintField 4 r.epfd
    ++ encEta r.etaMonth r.etaDay r.etaHour r.etaMinute
    ++ encDraught tie r.draught ++ encTextField 20 r.destination
    ++ flag r.dte ++ zeros 1

/-- `CBBODY(t, r)`, 139 bits (41_messages.md R181). -/
def cbBody (tie : RoundTie) (t : Nat) (r : ClassBCommon) : Bits :=
  msgHeader t r.repeatInd r.mmsi ++ zeros 8
    ++ encSog tie r.sog ++ flag r.posAcc ++ encLon tie r.lon ++ encLat tie r.lat
    ++ encCog tie r.cog ++ encHdg r.heading ++ encTstamp r.timestamp

/-- The type-18 payload, 168 bits (41_messages.md R181; layout 30_encoding.md R70). -/
def msg18Bits (tie : RoundTie) (r : ClassBRec) : Bits :=
  cbBody tie 18 r.common ++ zeros 2
    ++ flag r.csUnit ++ flag r.display ++ flag r.dsc ++ flag r.band ++ flag r.msg22 ++ flag r.assigned
    ++ flag r.raim ++ encUintField 20 r.radio

/-- The type-19 payload, 312 bits (41_messages.md R183; layout 30_encoding.md R71). -/
def msg19Bits (tie : RoundTie) (r : ClassBExtRec) : Bits :=
  cbBody tie 19 r.common ++ zeros 4
    ++ encTextField 20 r.name ++ encUintField 8 r.shipType
    ++ dimsBits r.dims ++ encUintField 4 r.epfd ++ flag r.raim ++ flag r.dte
    ++ flag r.assigned ++ zeros 4

/-- `NAME20(s)` (41_messages.md R184). -/
def name20 (s : Chars) : Chars := padText 20 s

/-- `NAMEEXT(s)`: characters 21 to 34, not padded (41_messages.md R184). -/
def nameExt (s : Chars) : Bits := textBits ((s.take 34).drop 20)

/-- The zero bits up to the next multiple of 8 (41_messages.md R185). -/
def bytePad (B : Bits) : Bits := B ++ zeros ((8 - B.length % 8) % 8)

/-- The type-21 payload, 272 to 360 bits (41_messages.md R185; layout 30_encoding.md R72). -/
def msg21Bits (tie : RoundTie) (r : AtonRec) : Bits :=
  bytePad
    (msgHeader 21 r.repeatInd r.mmsi ++ encUintField 5 r.aidType
      ++ encTextField 20 (name20 r.name) ++ flag r.posAcc ++ encLon tie r.lon ++ encLat tie r.lat
      ++ dimsBits r.dims ++ encUintField 4 r.epfd ++ encTstamp r.timestamp ++ flag r.offPosition
      ++ zeros 8 ++ flag r.raim ++ flag r.virtual ++ flag r.assigned ++ zeros 1
      ++ nameExt r.name)

/-- The type-24 part A payload, 168 bits (41_messages.md R187; layout 30_encoding.md R73). -/
def msg24aBits (r : PartARec) : Bits :=
  msgHeader 24 r.repeatInd r.mmsi ++ uBits 2 0 ++ encTextField 20 r.name ++ zeros 8

/-- The type-24 part B payload, 168 bits for a vendor of 42 bits (41_messages.md R189; layout 30_encoding.md R74). -/
def msg24bBits (r : PartBRec) : Bits :=
  msgHeader 24 r.repeatInd r.mmsi ++ uBits 2 1
    ++ encUintField 8 r.shipType ++ r.vendor ++ encTextField 7 r.callsign
    ++ dimsBits r.dims ++ encUintField 4 r.epfd ++ zeros 2

/-- MSG24B's own check and its payload (41_messages.md R188, R189). -/
def msg24b (r : PartBRec) : Except OpError Bits :=
  if r.vendor.length ≠ 42 then .error (.operand .vendor) else .ok (msg24bBits r)

/-! ### The meanings -/

/-- MSG1, `0x2040` (41_messages.md R173). -/
def execMsg1 (s : State) : Host.Outcome State Fault Refusal :=
  answer .msg1 (do
    let r ← readPosRec s
    return .bits (posBody s.cfg.roundTie 1 r)) s

/-- MSG2, `0x2080` (41_messages.md R174). -/
def execMsg2 (s : State) : Host.Outcome State Fault Refusal :=
  answer .msg2 (do
    let r ← readPosRec s
    return .bits (posBody s.cfg.roundTie 2 r)) s

/-- MSG3, `0x20C0` (41_messages.md R175). -/
def execMsg3 (s : State) : Host.Outcome State Fault Refusal :=
  answer .msg3 (do
    let r ← readPosRec s
    return .bits (posBody s.cfg.roundTie 3 r)) s

/-- MSG4, `0x2100` (41_messages.md R177). -/
def execMsg4 (s : State) : Host.Outcome State Fault Refusal :=
  answer .msg4 (do
    let r ← readBaseRec s
    return .bits (msg4Bits s.cfg.roundTie r)) s

/-- MSG5, `0x2140` (41_messages.md R179). -/
def execMsg5 (s : State) : Host.Outcome State Fault Refusal :=
  answer .msg5 (do
    let r ← readVoyRec s
    return .bits (msg5Bits s.cfg.roundTie r)) s

/-- MSG18, `0x2480` (41_messages.md R181). -/
def execMsg18 (s : State) : Host.Outcome State Fault Refusal :=
  answer .msg18 (do
    let r ← readClassBRec s
    return .bits (msg18Bits s.cfg.roundTie r)) s

/-- MSG19, `0x24C0` (41_messages.md R183). -/
def execMsg19 (s : State) : Host.Outcome State Fault Refusal :=
  answer .msg19 (do
    let r ← readClassBExtRec s
    return .bits (msg19Bits s.cfg.roundTie r)) s

/-- MSG21, `0x2540` (41_messages.md R185). -/
def execMsg21 (s : State) : Host.Outcome State Fault Refusal :=
  answer .msg21 (do
    let r ← readAtonRec s
    return .bits (msg21Bits s.cfg.roundTie r)) s

/-- MSG24A, `0x2600` (41_messages.md R187). -/
def execMsg24a (s : State) : Host.Outcome State Fault Refusal :=
  answer .msg24a (do
    let r ← readPartARec s
    return .bits (msg24aBits r)) s

/-- MSG24B, `0x2610` (41_messages.md R189). -/
def execMsg24b (s : State) : Host.Outcome State Fault Refusal :=
  answer .msg24b (do
    let r ← readPartBRec s
    return .bits (← msg24b r)) s

end Sys2Proof.Machine
end

