-- ==== Sys2Proof/Machine/Dispatch.lean ====
section
/-! DEFINITION. One arm per operation of spec/opcode_table.json. -/

namespace Sys2Proof.Machine

def exec (i : Instr) (s : State) : Host.Outcome State Fault Refusal :=
  match i with
  | .seqRead => Sys2Proof.Machine.execSeqRead s
  | .seqWrite => Sys2Proof.Machine.execSeqWrite s
  | .encUint => Sys2Proof.Machine.execEncUint s
  | .encSint => Sys2Proof.Machine.execEncSint s
  | .encScaled => Sys2Proof.Machine.execEncScaled s
  | .encText => Sys2Proof.Machine.execEncText s
  | .decUint => Sys2Proof.Machine.execDecUint s
  | .decSint => Sys2Proof.Machine.execDecSint s
  | .decText => Sys2Proof.Machine.execDecText s
  | .encLat => Sys2Proof.Machine.execEncLat s
  | .encLon => Sys2Proof.Machine.execEncLon s
  | .encSog => Sys2Proof.Machine.execEncSog s
  | .encCog => Sys2Proof.Machine.execEncCog s
  | .encHdg => Sys2Proof.Machine.execEncHdg s
  | .encRot => Sys2Proof.Machine.execEncRot s
  | .encTstamp => Sys2Proof.Machine.execEncTstamp s
  | .encDraught => Sys2Proof.Machine.execEncDraught s
  | .encEta => Sys2Proof.Machine.execEncEta s
  | .decLat => Sys2Proof.Machine.execDecLat s
  | .decLon => Sys2Proof.Machine.execDecLon s
  | .msg1 => Sys2Proof.Machine.execMsg1 s
  | .msg2 => Sys2Proof.Machine.execMsg2 s
  | .msg3 => Sys2Proof.Machine.execMsg3 s
  | .msg4 => Sys2Proof.Machine.execMsg4 s
  | .msg5 => Sys2Proof.Machine.execMsg5 s
  | .msg18 => Sys2Proof.Machine.execMsg18 s
  | .msg19 => Sys2Proof.Machine.execMsg19 s
  | .msg21 => Sys2Proof.Machine.execMsg21 s
  | .msg24a => Sys2Proof.Machine.execMsg24a s
  | .msg24b => Sys2Proof.Machine.execMsg24b s
  | .armor => Sys2Proof.Machine.execArmor s
  | .dearmor => Sys2Proof.Machine.execDearmor s
  | .fillbits => Sys2Proof.Machine.execFillbits s
  | .split => Sys2Proof.Machine.execSplit s
  | .frameAivdm => Sys2Proof.Machine.execFrameAivdm s
  | .encodeAivdm => Sys2Proof.Machine.execEncodeAivdm s
  | .reassemble => Sys2Proof.Machine.execReassemble s
  | .checksum => Sys2Proof.Machine.execChecksum s
  | .build => Sys2Proof.Machine.execBuild s
  | .parse => Sys2Proof.Machine.execParse s

end Sys2Proof.Machine
end

