-- ==== Sys2Proof/Machine/Step.lean ====
section
/-! DEFINITION. One step: the block takes what the host has presented next (10_state.md R20, 20_memory.md R44). -/

namespace Sys2Proof.Machine

/-- One transaction, or one reset, per step (70_reset_and_hazards.md R336), in the order the host presents them
(20_memory.md R44). With nothing presented the block is idle and nothing changes (R331, 60_exceptions.md R311). A
command word that decodes is performed on the operand record presented with it; one that does not is answered by
`rejectCommand` (60_exceptions.md R303 item 1). -/
def step (s : State) : Host.Outcome State Fault Refusal :=
  match s.input with
  | [] => .next s
  | .reset _ :: rest => .next (s.applyReset rest)
  | .transact t :: rest =>
    match decode t.cmd with
    | .ok i => exec i (s.accept t.operands rest)
    | .error e => rejectCommand t.cmd e (s.accept t.operands rest)

/-- The host presents a command word next, before anything already presented, with the sample operand record of its
operation: the table gives a row's word no operand bits (log entry 3). -/
def State.withFetchWord (s : State) (nbits w : Nat) : State :=
  let v := w % 2 ^ nbits
  let operands := match decodeTableWord nbits w with
    | some i => sampleOperands i
    | none => []
  { s with input := .transact { cmd := BitVec.ofNat 16 v, operands := operands } :: s.input }

end Sys2Proof.Machine
end

