-- ==== Sys2Proof/Machine/Pseudo.lean ====
section
/-! DEFINITION. The host-side pseudo-operations (30_encoding.md R81): sequences of transactions, not command words.
Each is what a host does with one block instance: it presents a transaction, reads the response, and goes on. -/

namespace Sys2Proof.Machine

/-- The ten message operations, for `AIVDM.MSG<t>` (30_encoding.md R81). -/
inductive MsgKind where
  | msg1
  | msg2
  | msg3
  | msg4
  | msg5
  | msg18
  | msg19
  | msg21
  | msg24a
  | msg24b
deriving DecidableEq, Repr

/-- The message operation of a kind. -/
def msgInstr : MsgKind → Instr
  | .msg1 => .msg1
  | .msg2 => .msg2
  | .msg3 => .msg3
  | .msg4 => .msg4
  | .msg5 => .msg5
  | .msg18 => .msg18
  | .msg19 => .msg19
  | .msg21 => .msg21
  | .msg24a => .msg24a
  | .msg24b => .msg24b

/-- The pseudo-operations of 30_encoding.md R81. -/
inductive PseudoOp where
  | aivdmMsg (kind : MsgKind) (r : OpRecord) (chan : Chan)
  | static24 (recA recB : OpRecord) (chan : Chan)
  | aivdmRaw (B : Bits) (chan : Chan)
  | validate (S : Chars)
deriving DecidableEq, Repr

/-- What a pseudo-operation leaves: the block, and what the host has to emit, in order: the response of each
`AIVDM` sequence or PARSE that the pseudo-operation is made of. The next transaction takes an earlier response off the
response channel (log entry 8), so the host holds it here. -/
structure HostRun where
  block   : State
  emitted : List Response
deriving DecidableEq, Repr

/-- The host keeps its type-24 obligation: both parts have one `repeat` and one `mmsi` (70_reset_and_hazards.md
R333). -/
def Static24Paired (recA recB : OpRecord) : Prop :=
  OpRecord.lookup recA .repeatInd = OpRecord.lookup recB .repeatInd ∧
  OpRecord.lookup recA .mmsi = OpRecord.lookup recB .mmsi

/-- The host presents one operation with its operand record, and the block performs it before anything else. -/
def transact (i : Instr) (operands : OpRecord) (s : State) : Host.Outcome State Fault Refusal :=
  step { s with input := .transact { cmd := encode i, operands := operands } :: s.input }

/-- The host takes the response that stands on the response channel as the one to emit. -/
def emit (o : Host.Outcome State Fault Refusal) : Host.Outcome HostRun Fault Refusal :=
  match o with
  | .next t => .next { block := t, emitted := t.response.toList }
  | .fault f => .fault f
  | .refused r => .refused r

/-- `AIVDM.RAW B, chan`. -/
def runAivdmRaw (B : Bits) (chan : Chan) (s : State) : Host.Outcome HostRun Fault Refusal :=
  emit (transact .encodeAivdm [(.B, .bits B), (.chan, .chan chan)] s)

/-- `AIVDM.MSG<t> rec, chan`: the second transaction takes the payload the first returned; where the first returned no
payload the host stops there, with the response it got. -/
def runAivdmMsg (kind : MsgKind) (r : OpRecord) (chan : Chan) (s : State) : Host.Outcome HostRun Fault Refusal :=
  match transact (msgInstr kind) r s with
  | .next t =>
    match t.response with
    | some { status := .ok, result := some (.bits B) } => runAivdmRaw B chan t
    | _ => emit (.next t)
  | .fault f => .fault f
  | .refused r => .refused r

/-- `STATIC24 recA, recB, chan`: part A, then part B, and the host emits the results of both, part A's first
(70_reset_and_hazards.md R333). -/
def runStatic24 (recA recB : OpRecord) (chan : Chan) (s : State) : Host.Outcome HostRun Fault Refusal :=
  match runAivdmMsg .msg24a recA chan s with
  | .next a =>
    match runAivdmMsg .msg24b recB chan a.block with
    | .next b => .next { block := b.block, emitted := a.emitted ++ b.emitted }
    | .fault f => .fault f
    | .refused r => .refused r
  | .fault f => .fault f
  | .refused r => .refused r

/-- `VALIDATE S`: the status of PARSE is the verdict. -/
def runValidate (S : Chars) (s : State) : Host.Outcome HostRun Fault Refusal :=
  emit (transact .parse [(.S, .chars S)] s)

/-- The expansion of a pseudo-operation (30_encoding.md R81). -/
def runPseudo (p : PseudoOp) (s : State) : Host.Outcome HostRun Fault Refusal :=
  match p with
  | .aivdmMsg kind r chan => runAivdmMsg kind r chan s
  | .static24 recA recB chan => runStatic24 recA recB chan s
  | .aivdmRaw B chan => runAivdmRaw B chan s
  | .validate S => runValidate S s

end Sys2Proof.Machine
end

