-- ==== Sys2Proof/Safety.lean ====
section
/-! DEFINITION. What counts as a good state and a safe step, in the terms the statements use. -/

namespace Sys2Proof.Machine

/-- `SEQ_CTR.CTR` holds a legal value, 0 to 9 (10_state.md R22). -/
def State.ctrLegal (s : State) : Prop := s.seqCtr.toNat ≤ 9

/-- A result record is present exactly when the status is `OK` (10_state.md R20 item 3, 60_exceptions.md R305). -/
def Response.wf (r : Response) : Prop := r.result.isSome = true ↔ r.status = .ok

/-- The block between two transactions: the counter legal, nothing on the operand channel, and the response, if one is
there, complete (10_state.md R22, R24, 60_exceptions.md R305, R306). -/
structure State.Inv (s : State) : Prop where
  ctr      : s.ctrLegal
  operands : s.operands = []
  response : ∀ r, s.response = some r → r.wf

/-- A step is safe when it ends in a next state: no command word and no operand made the model stop
(60_exceptions.md R308). -/
def stepSafe (s : State) : Prop := ∃ t, step s = .next t

/-! ### The words the statements are written in -/

/-- `B<lo..hi>`, both ends inclusive (00_scope.md R7). -/
def slice (B : Bits) (lo hi : Nat) : Bits := (B.drop lo).take (hi + 1 - lo)

/-- The outcome is `OPERAND_ERROR` of operation `op` for operand `fd`, as `cfg.hostErrors` reads it: the fault that
names both, or the status with the state otherwise unchanged (60_exceptions.md R305, R308; log entry 2). -/
def RaisesOperandError (op : Instr) (fd : Field) (s : State) (o : Host.Outcome State Fault Refusal) : Prop :=
  (s.cfg.hostErrors = .asFault → o = .fault (.operandError op fd)) ∧
  (s.cfg.hostErrors = .asResponse → o = .next (s.failed .operandError))

/-- The outcome is the response `OK` with a field of `w` bits whose unsigned value is `v`; nothing else of the state
changes (00_scope.md R8). -/
def AnswersUnsigned (s : State) (o : Host.Outcome State Fault Refusal) (w : Nat) (v : Int) : Prop :=
  ∃ B : Bits, o = .next (s.answered (.bits B)) ∧ B.length = w ∧ (uval B : Int) = v

/-- The same for a two's-complement value (00_scope.md R8). -/
def AnswersSigned (s : State) (o : Host.Outcome State Fault Refusal) (w : Nat) (v : Int) : Prop :=
  ∃ B : Bits, o = .next (s.answered (.bits B)) ∧ B.length = w ∧ sval B = v

/-- What an operation can leave: an answer or a failure that keeps the counter, an answer that moves it, or, while
`cfg.hostErrors` is `asFault`, the fault naming the operation (60_exceptions.md R305, R308). -/
inductive Ends (op : Instr) (s : State) : Host.Outcome State Fault Refusal → Prop where
  | answered (r : Result) : Ends op s (.next (s.answered r))
  | moved (c : BitVec 4) (r : Result) : Ends op s (.next ((s.setCtr c).answered r))
  | failed (st : Status) (h : st ≠ .ok) : Ends op s (.next (s.failed st))
  | fault (fd : Field) (h : s.cfg.hostErrors = .asFault) : Ends op s (.fault (.operandError op fd))

/-- `c` is a hexadecimal digit of value `v`, in either case (00_scope.md R9, 44_nmea.md R261, R265). -/
def IsHexDigit (c : Char8) (v : Nat) : Prop :=
  (ascii "0123456789ABCDEF")[v]? = some c ∨ (ascii "0123456789abcdef")[v]? = some c

/-! Which operand each component of a record is (41_messages.md): the operand of that name, of that type. -/

/-- The operands of a `PosRec` (41_messages.md R171). -/
structure PosRecOf (s : State) (r : PosRec) : Prop where
  repeatInd : readInt s .repeatInd = .ok r.repeatInd
  mmsi      : readInt s .mmsi = .ok r.mmsi
  navStatus : readInt s .navStatus = .ok r.navStatus
  rot       : readOptReal s .rot = .ok r.rot
  sog       : readOptReal s .sog = .ok r.sog
  posAcc    : readBool s .posAcc = .ok r.posAcc
  lon       : readOptReal s .lon = .ok r.lon
  lat       : readOptReal s .lat = .ok r.lat
  cog       : readOptReal s .cog = .ok r.cog
  heading   : readOptInt s .heading = .ok r.heading
  timestamp : readOptInt s .timestamp = .ok r.timestamp
  maneuver  : readInt s .maneuver = .ok r.maneuver
  raim      : readBool s .raim = .ok r.raim
  radio     : readInt s .radio = .ok r.radio

/-- The operands of a `BaseRec` (41_messages.md R176). -/
structure BaseRecOf (s : State) (r : BaseRec) : Prop where
  repeatInd : readInt s .repeatInd = .ok r.repeatInd
  mmsi      : readInt s .mmsi = .ok r.mmsi
  year      : readOptInt s .year = .ok r.year
  month     : readOptInt s .month = .ok r.month
  day       : readOptInt s .day = .ok r.day
  hour      : readOptInt s .hour = .ok r.hour
  minute    : readOptInt s .minute = .ok r.minute
  second    : readOptInt s .second = .ok r.second
  posAcc    : readBool s .posAcc = .ok r.posAcc
  lon       : readOptReal s .lon = .ok r.lon
  lat       : readOptReal s .lat = .ok r.lat
  epfd      : readInt s .epfd = .ok r.epfd
  raim      : readBool s .raim = .ok r.raim
  radio     : readInt s .radio = .ok r.radio

/-- The operands of `DIMS` (41_messages.md R179). -/
structure DimsOf (s : State) (d : Dims) : Prop where
  toBow       : readInt s .toBow = .ok d.toBow
  toStern     : readInt s .toStern = .ok d.toStern
  toPort      : readInt s .toPort = .ok d.toPort
  toStarboard : readInt s .toStarboard = .ok d.toStarboard

/-- The operands of a `VoyRec` (41_messages.md R178). -/
structure VoyRecOf (s : State) (r : VoyRec) : Prop where
  repeatInd   : readInt s .repeatInd = .ok r.repeatInd
  mmsi        : readInt s .mmsi = .ok r.mmsi
  aisVersion  : readInt s .aisVersion = .ok r.aisVersion
  imo         : readInt s .imo = .ok r.imo
  callsign    : readChars s .callsign = .ok r.callsign
  name        : readChars s .name = .ok r.name
  shipType    : readInt s .shipType = .ok r.shipType
  dims        : DimsOf s r.dims
  epfd        : readInt s .epfd = .ok r.epfd
  etaMonth    : readOptInt s .etaMonth = .ok r.etaMonth
  etaDay      : readOptInt s .etaDay = .ok r.etaDay
  etaHour     : readOptInt s .etaHour = .ok r.etaHour
  etaMinute   : readOptInt s .etaMinute = .ok r.etaMinute
  draught     : readOptReal s .draught = .ok r.draught
  destination : readChars s .destination = .ok r.destination
  dte         : readBool s .dte = .ok r.dte

/-- The operands that `CBBODY` reads (41_messages.md R180, R182). -/
structure ClassBCommonOf (s : State) (r : ClassBCommon) : Prop where
  repeatInd : readInt s .repeatInd = .ok r.repeatInd
  mmsi      : readInt s .mmsi = .ok r.mmsi
  sog       : readOptReal s .sog = .ok r.sog
  posAcc    : readBool s .posAcc = .ok r.posAcc
  lon       : readOptReal s .lon = .ok r.lon
  lat       : readOptReal s .lat = .ok r.lat
  cog       : readOptReal s .cog = .ok r.cog
  heading   : readOptInt s .heading = .ok r.heading
  timestamp : readOptInt s .timestamp = .ok r.timestamp

/-- The operands of a `ClassBRec` (41_messages.md R180). -/
structure ClassBRecOf (s : State) (r : ClassBRec) : Prop where
  common   : ClassBCommonOf s r.common
  csUnit   : readBool s .csUnit = .ok r.csUnit
  display  : readBool s .display = .ok r.display
  dsc      : readBool s .dsc = .ok r.dsc
  band     : readBool s .band = .ok r.band
  msg22    : readBool s .msg22 = .ok r.msg22
  assigned : readBool s .assigned = .ok r.assigned
  raim     : readBool s .raim = .ok r.raim
  radio    : readInt s .radio = .ok r.radio

/-- The operands of a `ClassBExtRec` (41_messages.md R182). -/
structure ClassBExtRecOf (s : State) (r : ClassBExtRec) : Prop where
  common   : ClassBCommonOf s r.common
  name     : readChars s .name = .ok r.name
  shipType : readInt s .shipType = .ok r.shipType
  dims     : DimsOf s r.dims
  epfd     : readInt s .epfd = .ok r.epfd
  raim     : readBool s .raim = .ok r.raim
  dte      : readBool s .dte = .ok r.dte
  assigned : readBool s .assigned = .ok r.assigned

/-- The operands of an `AtonRec` (41_messages.md R184). -/
structure AtonRecOf (s : State) (r : AtonRec) : Prop where
  repeatInd   : readInt s .repeatInd = .ok r.repeatInd
  mmsi        : readInt s .mmsi = .ok r.mmsi
  aidType     : readInt s .aidType = .ok r.aidType
  name        : readChars s .name = .ok r.name
  posAcc      : readBool s .posAcc = .ok r.posAcc
  lon         : readOptReal s .lon = .ok r.lon
  lat         : readOptReal s .lat = .ok r.lat
  dims        : DimsOf s r.dims
  epfd        : readInt s .epfd = .ok r.epfd
  timestamp   : readOptInt s .timestamp = .ok r.timestamp
  offPosition : readBool s .offPosition = .ok r.offPosition
  raim        : readBool s .raim = .ok r.raim
  virtual     : readBool s .virtual = .ok r.virtual
  assigned    : readBool s .assigned = .ok r.assigned

/-- The operands of a `PartARec` (41_messages.md R186). -/
structure PartARecOf (s : State) (r : PartARec) : Prop where
  repeatInd : readInt s .repeatInd = .ok r.repeatInd
  mmsi      : readInt s .mmsi = .ok r.mmsi
  name      : readChars s .name = .ok r.name

/-- The operands of a `PartBRec` (41_messages.md R188). -/
structure PartBRecOf (s : State) (r : PartBRec) : Prop where
  repeatInd : readInt s .repeatInd = .ok r.repeatInd
  mmsi      : readInt s .mmsi = .ok r.mmsi
  shipType  : readInt s .shipType = .ok r.shipType
  vendor    : readBits s .vendor = .ok r.vendor
  callsign  : readChars s .callsign = .ok r.callsign
  dims      : DimsOf s r.dims
  epfd      : readInt s .epfd = .ok r.epfd

/-- A fragment list that passes every check of REASSEMBLE (43_framer.md R237): one to nine fragments, fragment `i` of
them numbered `i + 1` of that count and in the ranges of R230, one seqid, no fill but on the last, no more fill on it
than it has bits, and a payload within the buffer. -/
def Reassemblable (maxBufBits : Nat) (L : List Fragment) : Prop :=
  ∃ first last : Fragment, L.head? = some first ∧ L.getLast? = some last ∧ L.length ≤ 9 ∧
    (∀ (i : Nat) (h : i < L.length),
      L[i].inRange = true ∧ L[i].total = L.length ∧ L[i].index = i + 1 ∧ L[i].seqid = first.seqid ∧
      (i + 1 < L.length → L[i].fill = 0)) ∧
    last.fill ≤ 6 * last.payload.length ∧
    6 * ((L.map fun g => g.payload.length).sum : Nat) - last.fill ≤ maxBufBits

end Sys2Proof.Machine
end

