-- ==== Sys2Proof/Certificates/Slice0/Obligations.lean ====
section
/-! DEFINITION. The statements for the provers. Each docstring names the rule of spec/ it formalises. In every
statement about an operation the next state is written whole: `s.answered r` is `s` with the operand channel empty and
the response `OK, r`, `s.failed st` is `s` with the operand channel empty and the response `st`, and `s.setCtr c` is `s`
with the counter `c`. So the frame (what the operation leaves unchanged) is part of each. Where a statement says
`RaisesOperandError`, the reading of OPERAND_ERROR is that of log entry 2, which is the model's choice. -/

open Sys2Proof Sys2Proof.Machine

/-! ### Numbers (00_scope.md) -/

/-- R11: `ROUND(x)` is an integer nearest to `x`; at a tie it is even under HALF_EVEN and away from zero under
HALF_AWAY. The tie rule is the spec's own decision D5. -/
def Obligations.RoundIsNearestWithTieRule : Prop :=
  ∀ (tie : RoundTie) (x : Rat),
    (∀ n : Int, |x - (roundQ tie x : Rat)| ≤ |x - (n : Rat)|) ∧
    (|x - (roundQ tie x : Rat)| = 1 / 2 →
      (tie = .halfEven → roundQ tie x % 2 = 0) ∧ (tie = .halfAway → |x| < |(roundQ tie x : Rat)|))

/-- R12: for `m >= 0`, `RSQRT(m)` is the integer nearest to the square root of `m`, said with no irrational number:
`m` lies between `(r - 1/2)^2` and `(r + 1/2)^2`, and at a tie the result is the even one under HALF_EVEN and the
upper one under HALF_AWAY. It rests on the spec's decision D5. -/
def Obligations.RsqrtIsNearestRootWithTieRule : Prop :=
  ∀ (tie : RoundTie) (m : Rat), 0 ≤ m →
    0 ≤ rsqrt tie m ∧
    (0 < rsqrt tie m → ((rsqrt tie m : Rat) - 1 / 2) ^ 2 ≤ m) ∧
    m ≤ ((rsqrt tie m : Rat) + 1 / 2) ^ 2 ∧
    (m = ((rsqrt tie m : Rat) + 1 / 2) ^ 2 → tie = .halfEven ∧ rsqrt tie m % 2 = 0) ∧
    (0 < rsqrt tie m → m = ((rsqrt tie m : Rat) - 1 / 2) ^ 2 → tie = .halfEven → rsqrt tie m % 2 = 0)

/-- R7, R8: `u_w` and `uval` are inverse to each other, and `s_w` and `sval` are on the two's-complement range: no bit
of a field is dropped or moved. -/
def Obligations.FieldBitsAndValuesAreInverse : Prop :=
  (∀ (w v : Nat), v < 2 ^ w → (uBits w v).length = w ∧ uval (uBits w v) = v) ∧
  (∀ (w : Nat) (v : Int), 1 ≤ w → -2 ^ (w - 1) ≤ v → v ≤ 2 ^ (w - 1) - 1 →
    (sBits w v).length = w ∧ sval (sBits w v) = v) ∧
  (∀ B : Bits, uBits B.length (uval B) = B ∧ sBits B.length (sval B) = B)

/-! ### Commands (30_encoding.md) -/

/-- R60 to R63: a command word decodes to an operation exactly when it is that operation's word `FAM << 12 | FN << 6 |
SUB << 4`; so the 40 words, and no others, are operations. -/
def Obligations.DecodeReadsExactlyTheEncodedWords : Prop :=
  ∀ (w : Word) (i : Instr), decode w = .ok i ↔ encode i = w

/-- R61, R63: which error every other word gives. A word of family 2 with `RSV = 0` that is no operation is an
unsupported message type; every other word that is no operation is an illegal command. -/
def Obligations.RejectedWordsAreSortedByFamily : Prop :=
  ∀ w : Word, (∀ i : Instr, encode i ≠ w) →
    (decode w = .error .unsupportedMessageType ↔ w.toNat / 4096 = 2 ∧ w.toNat % 16 = 0) ∧
    (decode w = .error .illegalCommand ↔ ¬ (w.toNat / 4096 = 2 ∧ w.toNat % 16 = 0))

/-- R62: some words of the opcode map, written out. -/
def Obligations.OpcodeMapWordsDecode : Prop :=
  decode 0x0040 = .ok .seqRead ∧ decode 0x0080 = .ok .seqWrite ∧
  decode 0x1000 = .ok .encUint ∧ decode 0x1180 = .ok .decText ∧ decode 0x1200 = .ok .encLat ∧
  decode 0x1540 = .ok .decLon ∧ decode 0x2040 = .ok .msg1 ∧ decode 0x2540 = .ok .msg21 ∧
  decode 0x2600 = .ok .msg24a ∧ decode 0x2610 = .ok .msg24b ∧ decode 0x3080 = .ok .fillbits ∧
  decode 0x40C0 = .ok .reassemble ∧ decode 0x5080 = .ok .parse ∧
  decode 0x0000 = .error .illegalCommand ∧ decode 0x2048 = .error .illegalCommand ∧
  decode 0x2620 = .error .unsupportedMessageType

/-! ### Steps (10_state.md, 20_memory.md, 70_reset_and_hazards.md) -/

/-- R20, R44, R61: when the transaction presented next has the command word of an operation, the step is that
operation performed on the operand record presented with it, with the transaction taken off the input and no response
pending. That the channels are held this way is the model's choice (log entries 3 and 8). -/
def Obligations.StepPerformsThePresentedOperation : Prop :=
  ∀ (s : State) (t : Transaction) (rest : List HostEvent) (i : Instr),
    s.input = .transact t :: rest → decode t.cmd = .ok i →
    step s = exec i { s with input := rest, operands := t.operands, response := none }

/-- R61, R63, R305, R308: a word that is no operation leaves the counter as it was and returns no result. An
unsupported message type is an ordinary response; an illegal command is the fault naming the word, or the response, as
log entry 2 says. -/
def Obligations.StepRejectsOtherWords : Prop :=
  ∀ (s : State) (t : Transaction) (rest : List HostEvent),
    s.input = .transact t :: rest →
    (decode t.cmd = .error .unsupportedMessageType →
      step s = .next { s with input := rest, operands := [], response := some ⟨.unsupportedMessageType, none⟩ }) ∧
    (decode t.cmd = .error .illegalCommand → s.cfg.hostErrors = .asFault → step s = .fault (.illegalCommand t.cmd)) ∧
    (decode t.cmd = .error .illegalCommand → s.cfg.hostErrors = .asResponse →
      step s = .next { s with input := rest, operands := [], response := some ⟨.illegalCommand, none⟩ })

/-- R330, R331: reset sets the counter to 0 (the spec's own decision D16), leaves no response pending, abandons the
transaction in progress and keeps the configuration; with nothing presented the block waits and nothing changes (log
entries 3 and 4 say how the model holds the reset input). -/
def Obligations.ResetAndIdleSteps : Prop :=
  (∀ (s : State) (cut : Option Transaction) (rest : List HostEvent), s.input = .reset cut :: rest →
    step s = .next { cfg := s.cfg, seqCtr := 0, input := rest, operands := [], response := none }) ∧
  (∀ s : State, s.input = [] → step s = .next s)

/-- R22, R24, R305: every step keeps the invariant: the counter stays in 0..9, the operand channel is empty between
transactions, and a response has a result record exactly when its status is OK. -/
def Obligations.StepKeepsInvariant : Prop :=
  ∀ s t : State, s.Inv → step s = .next t → t.Inv

/-- R31, R330, R331: at the start of a run, whatever the configuration and the initial counter (0 to 9, by default 0),
the invariant holds, the counter is the initial one, no transaction is in flight and no response pending; and the
initial counter is what SEQ_WRITE leaves after reset. The counter's reset value is the spec's own decision D16; that
nothing is presented yet is how the model holds the host (log entry 3). -/
def Obligations.ResetMeetsInvariant : Prop :=
  ∀ (cfg : Config) (c : Fin 10),
    (State.init cfg c).Inv ∧ (State.init cfg c).cfg = cfg ∧ (State.init cfg c).seqCtr.toNat = c ∧
    (State.init cfg c).input = [] ∧ (State.init cfg c).operands = [] ∧ (State.init cfg c).response = none ∧
    (State.init cfg).seqCtr = 0 ∧
    exec .seqWrite { State.init cfg with operands := [(.ctr, .num (c : Nat))] } =
      .next ((State.init cfg c).answered .unit)

/-- R28, R44: no step changes the configuration, and each step takes exactly the event presented first. -/
def Obligations.StepKeepsConfigurationAndOrder : Prop :=
  ∀ s t : State, step s = .next t → t.cfg = s.cfg ∧ t.input = s.input.tail

/-- R23, R46, R312: nothing of an earlier transaction is visible to a later one but the counter: two instances with
the same configuration, counter and presented events take the same step, whatever response and operands stand on their
channels. -/
def Obligations.StepDependsOnlyOnCounterAndInput : Prop :=
  ∀ s t : State, s.cfg = t.cfg → s.seqCtr = t.seqCtr → s.input = t.input → s.input ≠ [] → step s = step t

/-- R46: of the operations only SEQ_WRITE, SPLIT and ENCODE_AIVDM write the counter, and those two only for a payload
of more than 336 bits; no operation touches the configuration or what is still presented. -/
def Obligations.OnlyThreeOperationsWriteTheCounter : Prop :=
  ∀ (i : Instr) (s t : State), exec i s = .next t →
    t.cfg = s.cfg ∧ t.input = s.input ∧
    (t.seqCtr ≠ s.seqCtr →
      i = .seqWrite ∨
      ((i = .split ∨ i = .encodeAivdm) ∧ ∃ B, readBits s .B = .ok B ∧ 336 < B.length))

/-! ### Errors (60_exceptions.md) -/

/-- R305, R306: an operation that responds with a status other than OK returns no result and leaves everything but the
response and the emptied operand channel as it was. -/
def Obligations.ErrorsLeaveTheStateUnchanged : Prop :=
  ∀ (i : Instr) (s t : State) (st : Status) (r : Option Result),
    exec i s = .next t → t.response = some ⟨st, r⟩ → st ≠ .ok →
    r = none ∧ t = { s with operands := [], response := some ⟨st, none⟩ }

/-- R20, R47, R308, R337: every operation ends, in a next state with one response or in the OPERAND_ERROR fault that
names it; an OK response has a result of the operation's type (R62), within the bound of R29. No operation is refused,
and none faults where the model reads host errors as responses (log entry 2). That a `Chars` result is within
`MAX_BUF_CHARS` (R5) rests on log entry 10 (DEDUCED). -/
def Obligations.EveryOperationEnds : Prop :=
  ∀ (i : Instr) (s : State),
    (∃ (t : State) (r : Response), exec i s = .next t ∧ t.response = some r ∧
      (r.status = .ok → ∃ v, r.result = some v ∧ v.hasType s.cfg i.resultType = true)) ∨
    (s.cfg.hostErrors = .asFault ∧ ∃ fd, exec i s = .fault (.operandError i fd))

/-- R29, R301 (last row), R303 item 2: an operand record that misses a field, or has one of the wrong type or out of
its type's bound, raises OPERAND_ERROR for an operand of the operation. -/
def Obligations.IllTypedRecordsRaiseOperandError : Prop :=
  ∀ (i : Instr) (s : State), OpRecord.wellTyped s.cfg i.signature s.operands = false →
    ∃ fd ∈ i.signature.map Prod.fst, RaisesOperandError i fd s (exec i s)

/-- R120, R307: no field value is an error: a field encoder or a message encoder given a well-typed record (for
MSG24B, with a vendor of 42 bits) answers OK with a bit string. -/
def Obligations.EncodingNeverRejectsAValue : Prop :=
  ∀ (i : Instr) (s : State),
    i ∈ [Instr.encLat, .encLon, .encSog, .encCog, .encHdg, .encRot, .encTstamp, .encDraught, .encEta, .msg1, .msg2,
      .msg3, .msg4, .msg5, .msg18, .msg19, .msg21, .msg24a, .msg24b] →
    OpRecord.wellTyped s.cfg i.signature s.operands = true →
    (i = .msg24b → ∃ V, OpRecord.lookup s.operands .vendor = some (.bits V) ∧ V.length = 42) →
    ∃ B, exec i s = .next (s.answered (.bits B))

/-! ### Control (45_control.md) -/

/-- R290: SEQ_READ, 0x0040, returns the counter and changes nothing else. The command is the spec's own decision D17.
-/
def Obligations.SeqReadReturnsTheCounter : Prop :=
  encode .seqRead = 0x0040 ∧
  ∀ s : State, exec .seqRead s = .next (s.answered (.int s.seqCtr.toNat))

/-- R291: SEQ_WRITE, 0x0080, writes 0 to 9 into the counter and returns no value; any other operand is OPERAND_ERROR
for `ctr`. The command is the spec's own decision D17. -/
def Obligations.SeqWriteSetsTheCounterInRange : Prop :=
  encode .seqWrite = 0x0080 ∧
  ∀ (s : State) (c : Int), readInt s .ctr = .ok c →
    (0 ≤ c ∧ c ≤ 9 → ∃ b : BitVec 4, (b.toNat : Int) = c ∧ exec .seqWrite s = .next ((s.setCtr b).answered .unit)) ∧
    (c < 0 ∨ 9 < c → RaisesOperandError .seqWrite .ctr s (exec .seqWrite s))

/-! ### Generic encoders and decoders (40_bitfield.md) -/

/-- R122: ENC_UINT, 0x1000: a field of `w` bits whose unsigned value is `v` clamped to 0..2^w - 1, for a width of 1 to
32; any other width is OPERAND_ERROR for `w`. The width bound is the spec's own decision D29. -/
def Obligations.EncUintClampsToTheField : Prop :=
  encode .encUint = 0x1000 ∧
  ∀ (s : State) (w v : Int), readInt s .w = .ok w → readInt s .v = .ok v →
    (1 ≤ w ∧ w ≤ 32 → AnswersUnsigned s (exec .encUint s) w.toNat (max 0 (min (2 ^ w.toNat - 1) v))) ∧
    (w < 1 ∨ 32 < w → RaisesOperandError .encUint .w s (exec .encUint s))

/-- R123: ENC_SINT, 0x1040: a field of `w` bits whose two's-complement value is `v` clamped to its range, for a width
of 1 to 32; any other width is OPERAND_ERROR for `w`. The width bound is the spec's own decision D29. -/
def Obligations.EncSintClampsToTheField : Prop :=
  encode .encSint = 0x1040 ∧
  ∀ (s : State) (w v : Int), readInt s .w = .ok w → readInt s .v = .ok v →
    (1 ≤ w ∧ w ≤ 32 →
      AnswersSigned s (exec .encSint s) w.toNat (max (-2 ^ (w.toNat - 1)) (min (2 ^ (w.toNat - 1) - 1) v))) ∧
    (w < 1 ∨ 32 < w → RaisesOperandError .encSint .w s (exec .encSint s))

/-- R124: ENC_SCALED, 0x1080: `x * scale` rounded, then clamped to the signed or unsigned field of `w` bits; a width
outside 1..32 is OPERAND_ERROR for `w`. The width bound is the spec's own decision D29; `roundQ` is R11's ROUND. -/
def Obligations.EncScaledRoundsThenClamps : Prop :=
  encode .encScaled = 0x1080 ∧
  ∀ (s : State) (w : Int) (sg : Bool) (scale x : Rat),
    readInt s .w = .ok w → readBool s .signed = .ok sg → readReal s .scale = .ok scale → readReal s .x = .ok x →
    (1 ≤ w ∧ w ≤ 32 → sg = true →
      AnswersSigned s (exec .encScaled s) w.toNat
        (max (-2 ^ (w.toNat - 1)) (min (2 ^ (w.toNat - 1) - 1) (roundQ s.cfg.roundTie (x * scale))))) ∧
    (1 ≤ w ∧ w ≤ 32 → sg = false →
      AnswersUnsigned s (exec .encScaled s) w.toNat
        (max 0 (min (2 ^ w.toNat - 1) (roundQ s.cfg.roundTie (x * scale))))) ∧
    (w < 1 ∨ 32 < w → RaisesOperandError .encScaled .w s (exec .encScaled s))

/-- R125, R126: ENC_TEXT gives, for each of the `n` characters, the six bits of its SIXBIT code: the character of `s`,
or a space where `s` has none. -/
def Obligations.EncTextPadsTruncatesAndMaps : Prop :=
  encode .encText = 0x10C0 ∧
  ∀ (s : State) (n : Int) (t : Chars), readInt s .n = .ok n → readChars s .s = .ok t →
    (1 ≤ n ∧ 6 * n ≤ s.cfg.maxBufBits →
      ∃ B : Bits, exec .encText s = .next (s.answered (.bits B)) ∧ (B.length : Int) = 6 * n ∧
        ∀ i : Nat, (i : Int) < n →
          uval (slice B (6 * i) (6 * i + 5)) =
            (let c := (t.getD i 32).toNat
             if 32 ≤ c ∧ c ≤ 63 then c else if 64 ≤ c ∧ c ≤ 95 then c - 64 else 0)) ∧
    (n < 1 ∨ (s.cfg.maxBufBits : Int) < 6 * n → RaisesOperandError .encText .n s (exec .encText s))

/-- R127, R128: DEC_UINT, 0x1100, and DEC_SINT, 0x1140: the unsigned and the two's-complement value of a field of 1 to
32 bits; any other length is OPERAND_ERROR for `B`. The width bound is the spec's own decision D29. -/
def Obligations.DecUintAndDecSintReadTheField : Prop :=
  encode .decUint = 0x1100 ∧ encode .decSint = 0x1140 ∧
  ∀ (s : State) (B : Bits), readBits s .B = .ok B →
    (1 ≤ B.length ∧ B.length ≤ 32 →
      exec .decUint s = .next (s.answered (.int (uval B))) ∧
      exec .decSint s =
        .next (s.answered (.int (if B.head? = some true then (uval B : Int) - 2 ^ B.length else uval B)))) ∧
    (B.length < 1 ∨ 32 < B.length →
      RaisesOperandError .decUint .B s (exec .decUint s) ∧ RaisesOperandError .decSint .B s (exec .decSint s))

/-- R129, R130: DEC_TEXT gives one character per six bits, UNSIXBIT of their value, with nothing trimmed (the spec's
own decision D15). That the result is within `MAX_BUF_CHARS` (R5) for every operand within `MAX_BUF_BITS` is log entry
10 (DEDUCED), which `Config` carries. -/
def Obligations.DecTextMapsEverySixBits : Prop :=
  encode .decText = 0x1180 ∧
  ∀ (s : State) (B : Bits), readBits s .B = .ok B →
    (B.length % 6 = 0 →
      ∃ S : Chars, exec .decText s = .next (s.answered (.chars S)) ∧ S.length = B.length / 6 ∧
        ∀ (i : Nat) (h : i < S.length),
          S[i].toNat =
            (let v := uval (slice B (6 * i) (6 * i + 5))
             if v < 32 then v + 64 else v)) ∧
    (B.length % 6 ≠ 0 → RaisesOperandError .decText .B s (exec .decText s))

/-- R144, R129: the round-trip laws of the integer fields, and that what ENC_TEXT writes DEC_TEXT reads back, for a
text of exactly `n` characters all in 32..95. -/
def Obligations.IntegerAndTextFieldsRoundTrip : Prop :=
  (∀ (w v : Int), 1 ≤ w → w ≤ 32 →
    (0 ≤ v → v ≤ 2 ^ w.toNat - 1 → ∃ B, encUint w v = .ok B ∧ decUint B = .ok v) ∧
    (-2 ^ (w.toNat - 1) ≤ v → v ≤ 2 ^ (w.toNat - 1) - 1 → ∃ B, encSint w v = .ok B ∧ decSint B = .ok v)) ∧
  (∀ t : Chars, (∀ c ∈ t, 32 ≤ c.toNat ∧ c.toNat ≤ 95) → decText (encTextField t.length t) = .ok t)

/-! ### Field encoders and decoders (40_bitfield.md) -/

/-- R131, R132: ENC_LAT, 0x1200, and ENC_LON, 0x1240: 27 and 28 bits, two's complement: the not-available value for
ABSENT and for 91 and 181, and otherwise the rounded 600000ths of a degree, clamped to the field. The bounds and the
sentinel patterns are the spec's own decision D6. -/
def Obligations.EncLatAndEncLonScaleClampAndSubstitute : Prop :=
  encode .encLat = 0x1200 ∧ encode .encLon = 0x1240 ∧
  ∀ (s : State) (x : Option Rat),
    (readOptReal s .lat = .ok x →
      AnswersSigned s (exec .encLat s) 27
        (match x with
          | none => 54600000
          | some q =>
            if q = 91 then 54600000
            else max (-67108864) (min 67108863 (roundQ s.cfg.roundTie (q * 600000))))) ∧
    (readOptReal s .lon = .ok x →
      AnswersSigned s (exec .encLon s) 28
        (match x with
          | none => 108600000
          | some q =>
            if q = 181 then 108600000
            else max (-134217728) (min 134217727 (roundQ s.cfg.roundTie (q * 600000)))))

/-- R133: ENC_SOG, 0x1280: 10 bits: 1023 for ABSENT and from 102.3 on, and otherwise ten times the speed, rounded and
clamped to 0..1022. -/
def Obligations.EncSogRoundsClampsAndSubstitutes : Prop :=
  encode .encSog = 0x1280 ∧
  ∀ (s : State) (x : Option Rat), readOptReal s .sog = .ok x →
    AnswersUnsigned s (exec .encSog s) 10
      (match x with
        | none => 1023
        | some q => if 1023 / 10 ≤ q then 1023 else max 0 (min 1022 (roundQ s.cfg.roundTie (q * 10))))

/-- R134: ENC_COG, 0x12C0: 12 bits: 3600 for ABSENT and from 360 on, and otherwise ten times the course, rounded and
clamped to 0..3599. -/
def Obligations.EncCogRoundsClampsAndSubstitutes : Prop :=
  encode .encCog = 0x12C0 ∧
  ∀ (s : State) (x : Option Rat), readOptReal s .cog = .ok x →
    AnswersUnsigned s (exec .encCog s) 12
      (match x with
        | none => 3600
        | some q => if 360 ≤ q then 3600 else max 0 (min 3599 (roundQ s.cfg.roundTie (q * 10))))

/-- R138: ENC_DRAUGHT, 0x13C0: 8 bits: 0 for ABSENT and from 25.5 on, and otherwise ten times the draught, rounded and
clamped to 0..255. The width and the unit are general knowledge (G1). That ABSENT gives 0 is the
spec's own decision D8 (R121); that 25.5 and more gives 0 and not ITU's 255 is D0's (G7). -/
def Obligations.EncDraughtRoundsClampsAndSubstitutes : Prop :=
  encode .encDraught = 0x13C0 ∧
  ∀ (s : State) (x : Option Rat), readOptReal s .d = .ok x →
    AnswersUnsigned s (exec .encDraught s) 8
      (match x with
        | none => 0
        | some q => if 255 / 10 ≤ q then 0 else max 0 (min 255 (roundQ s.cfg.roundTie (q * 10))))

/-- R135, R137: ENC_HDG, 0x1300: 9 bits: 511 for ABSENT and from 511 on, and otherwise the heading clamped to 0..359.
ENC_TSTAMP, 0x1380: 6 bits: 60 for ABSENT, and otherwise the second clamped to 0..63. The integer heading and the
values 61 to 63 are the spec's own decisions D32 and D9. -/
def Obligations.EncHdgAndEncTstampClampAndSubstitute : Prop :=
  encode .encHdg = 0x1300 ∧ encode .encTstamp = 0x1380 ∧
  ∀ (s : State) (x : Option Int),
    (readOptInt s .hdg = .ok x →
      AnswersUnsigned s (exec .encHdg s) 9
        (match x with
          | none => 511
          | some h => if 511 ≤ h then 511 else max 0 (min 359 h))) ∧
    (readOptInt s .t = .ok x →
      AnswersUnsigned s (exec .encTstamp s) 6
        (match x with
          | none => 60
          | some v => max 0 (min 63 v)))

/-- R136: ENC_ROT: the not-available pattern for ABSENT and 128, zero for zero, and otherwise the rounded `4.733 *
sqrt(|rot|)`, at most 127, with the sign of the operand. That -128 is an ordinary value is the spec's own decision D7.
-/
def Obligations.EncRotIsSignedRoundedRoot : Prop :=
  encode .encRot = 0x1340 ∧
  ∀ (s : State) (x : Option Rat), readOptReal s .rot = .ok x →
    (x = none ∨ x = some 128 → AnswersUnsigned s (exec .encRot s) 8 128) ∧
    (∀ q : Rat, x = some q → q ≠ 128 →
      AnswersSigned s (exec .encRot s) 8
        (if q = 0 then 0
         else if 0 < q then min 127 (rsqrt s.cfg.roundTie (4.733 ^ 2 * |q|))
         else -min 127 (rsqrt s.cfg.roundTie (4.733 ^ 2 * |q|))))

/-- R139, R140: ENC_ETA: month, day, hour and minute, in that order, each its value in range and its not-available
value otherwise (the spec's own decision D10). -/
def Obligations.EncEtaSubstitutesOutOfRangeFields : Prop :=
  encode .encEta = 0x1400 ∧
  ∀ (s : State) (month day hour minute : Option Int),
    readOptInt s .month = .ok month → readOptInt s .day = .ok day → readOptInt s .hour = .ok hour →
    readOptInt s .minute = .ok minute →
    ∃ B : Bits, exec .encEta s = .next (s.answered (.bits B)) ∧ B.length = 20 ∧
      (∀ v, (month = some v ∧ 1 ≤ v ∧ v ≤ 12) → (uval (slice B 0 3) : Int) = v) ∧
      (¬ (∃ v, month = some v ∧ 1 ≤ v ∧ v ≤ 12) → uval (slice B 0 3) = 0) ∧
      (∀ v, (day = some v ∧ 1 ≤ v ∧ v ≤ 31) → (uval (slice B 4 8) : Int) = v) ∧
      (¬ (∃ v, day = some v ∧ 1 ≤ v ∧ v ≤ 31) → uval (slice B 4 8) = 0) ∧
      (∀ v, (hour = some v ∧ 0 ≤ v ∧ v ≤ 23) → (uval (slice B 9 13) : Int) = v) ∧
      (¬ (∃ v, hour = some v ∧ 0 ≤ v ∧ v ≤ 23) → uval (slice B 9 13) = 24) ∧
      (∀ v, (minute = some v ∧ 0 ≤ v ∧ v ≤ 59) → (uval (slice B 14 19) : Int) = v) ∧
      (¬ (∃ v, minute = some v ∧ 0 ≤ v ∧ v ≤ 59) → uval (slice B 14 19) = 60)

/-- R141, R142: DEC_LAT, 0x1500, of 27 bits and DEC_LON, 0x1540, of 28 bits: not available for the sentinel value, and
otherwise the value divided by 600000; any other length is OPERAND_ERROR for `B`. That every other value gives degrees
is the spec's own decision D35. -/
def Obligations.DecLatAndDecLonRecogniseTheSentinel : Prop :=
  encode .decLat = 0x1500 ∧ encode .decLon = 0x1540 ∧
  ∀ (s : State) (B : Bits), readBits s .B = .ok B →
    (B.length = 27 →
      exec .decLat s =
        .next (s.answered (.latVal (if sval B = 54600000 then .na else .deg ((sval B : Rat) / 600000))))) ∧
    (B.length ≠ 27 → RaisesOperandError .decLat .B s (exec .decLat s)) ∧
    (B.length = 28 →
      exec .decLon s =
        .next (s.answered (.latVal (if sval B = 108600000 then .na else .deg ((sval B : Rat) / 600000))))) ∧
    (B.length ≠ 28 → RaisesOperandError .decLon .B s (exec .decLon s))

/-- R144: a latitude or longitude reads back as not available exactly when it was absent, the marker, or a value that
rounds onto the marker's; otherwise it reads back as its rounded and clamped degrees. -/
def Obligations.LatLonRoundTrip : Prop :=
  (∀ (tie : RoundTie) (x : Option Rat),
    decLat (encLat tie x) = .ok .na ↔
      x = none ∨ ∃ q, x = some q ∧ (q = 91 ∨ roundQ tie (q * 600000) = 54600000)) ∧
  (∀ (tie : RoundTie) (q : Rat), q ≠ 91 → roundQ tie (q * 600000) ≠ 54600000 →
    decLat (encLat tie (some q)) =
      .ok (.deg (((max (-67108864) (min 67108863 (roundQ tie (q * 600000))) : Int) : Rat) / 600000))) ∧
  (∀ (tie : RoundTie) (x : Option Rat),
    decLon (encLon tie x) = .ok .na ↔
      x = none ∨ ∃ q, x = some q ∧ (q = 181 ∨ roundQ tie (q * 600000) = 108600000)) ∧
  (∀ (tie : RoundTie) (q : Rat), q ≠ 181 → roundQ tie (q * 600000) ≠ 108600000 →
    decLon (encLon tie (some q)) =
      .ok (.deg (((max (-134217728) (min 134217727 (roundQ tie (q * 600000))) : Int) : Rat) / 600000)))

/-! ### Messages (30_encoding.md, 41_messages.md). The layouts are the spec's passages from general knowledge (G1). -/

/-- R64, R67, R170, R171, R173, R174, R175: MSG1, MSG2 and MSG3: 168 bits, every field of the layout at its place, read
from the operand of its name and as its encoder writes it, a Boolean as one bit (R143). The layout is general knowledge
(G1). -/
def Obligations.PositionReportLayout : Prop :=
  encode .msg1 = 0x2040 ∧ encode .msg2 = 0x2080 ∧ encode .msg3 = 0x20C0 ∧
  ∀ (s : State) (r : PosRec), PosRecOf s r →
    ∀ p ∈ [(Instr.msg1, 1), (.msg2, 2), (.msg3, 3)],
      ∃ B : Bits, exec p.1 s = .next (s.answered (.bits B)) ∧ B.length = 168 ∧
        uval (slice B 0 5) = p.2 ∧ slice B 6 7 = encUintField 2 r.repeatInd ∧
        slice B 8 37 = encUintField 30 r.mmsi ∧ slice B 38 41 = encUintField 4 r.navStatus ∧
        slice B 42 49 = encRot s.cfg.roundTie r.rot ∧ slice B 50 59 = encSog s.cfg.roundTie r.sog ∧
        slice B 60 60 = [r.posAcc] ∧ slice B 61 88 = encLon s.cfg.roundTie r.lon ∧
        slice B 89 115 = encLat s.cfg.roundTie r.lat ∧ slice B 116 127 = encCog s.cfg.roundTie r.cog ∧
        slice B 128 136 = encHdg r.heading ∧ slice B 137 142 = encTstamp r.timestamp ∧
        slice B 143 144 = encUintField 2 r.maneuver ∧ slice B 145 147 = zeros 3 ∧
        slice B 148 148 = [r.raim] ∧ slice B 149 167 = encUintField 19 r.radio

/-- R172: types 2 and 3 reuse the type-1 layout verbatim except for the leading 6-bit type code. -/
def Obligations.PositionReportsShareTheBody : Prop :=
  ∀ (s : State) (r : PosRec), readPosRec s = .ok r →
    ∃ head1 head2 head3 body : Bits,
      exec .msg1 s = .next (s.answered (.bits (head1 ++ body))) ∧
      exec .msg2 s = .next (s.answered (.bits (head2 ++ body))) ∧
      exec .msg3 s = .next (s.answered (.bits (head3 ++ body))) ∧
      body.length = 162 ∧ head1.length = 6 ∧ head2.length = 6 ∧ head3.length = 6 ∧
      uval head1 = 1 ∧ uval head2 = 2 ∧ uval head3 = 3

/-- R68, R176, R177: MSG4: 168 bits, every field of the layout at its place, read from the operand of its name and as
its encoder writes it, a Boolean as one bit (R143). The layout is general knowledge (G1). -/
def Obligations.BaseStationReportLayout : Prop :=
  encode .msg4 = 0x2100 ∧
  ∀ (s : State) (r : BaseRec), BaseRecOf s r →
    ∃ B : Bits, exec .msg4 s = .next (s.answered (.bits B)) ∧ B.length = 168 ∧
      uval (slice B 0 5) = 4 ∧ slice B 6 7 = encUintField 2 r.repeatInd ∧
      slice B 8 37 = encUintField 30 r.mmsi ∧ slice B 38 51 = calField r.year 1 9999 0 14 ∧
      slice B 52 55 = calField r.month 1 12 0 4 ∧ slice B 56 60 = calField r.day 1 31 0 5 ∧
      slice B 61 65 = calField r.hour 0 23 24 5 ∧ slice B 66 71 = calField r.minute 0 59 60 6 ∧
      slice B 72 77 = calField r.second 0 59 60 6 ∧ slice B 78 78 = [r.posAcc] ∧
      slice B 79 106 = encLon s.cfg.roundTie r.lon ∧ slice B 107 133 = encLat s.cfg.roundTie r.lat ∧
      slice B 134 137 = encUintField 4 r.epfd ∧ slice B 138 147 = zeros 10 ∧ slice B 148 148 = [r.raim] ∧
      slice B 149 167 = encUintField 19 r.radio

/-- R69, R178, R179: MSG5: 424 bits, every field of the layout at its place, read from the operand of its name and as
its encoder writes it, a Boolean as one bit (R143). The layout is general knowledge (G1). -/
def Obligations.VoyageDataLayout : Prop :=
  encode .msg5 = 0x2140 ∧
  ∀ (s : State) (r : VoyRec), VoyRecOf s r →
    ∃ B : Bits, exec .msg5 s = .next (s.answered (.bits B)) ∧ B.length = 424 ∧
      uval (slice B 0 5) = 5 ∧ slice B 6 7 = encUintField 2 r.repeatInd ∧
      slice B 8 37 = encUintField 30 r.mmsi ∧ slice B 38 39 = encUintField 2 r.aisVersion ∧
      slice B 40 69 = encUintField 30 r.imo ∧ slice B 70 111 = encTextField 7 r.callsign ∧
      slice B 112 231 = encTextField 20 r.name ∧ slice B 232 239 = encUintField 8 r.shipType ∧
      slice B 240 248 = encUintField 9 r.dims.toBow ∧ slice B 249 257 = encUintField 9 r.dims.toStern ∧
      slice B 258 263 = encUintField 6 r.dims.toPort ∧ slice B 264 269 = encUintField 6 r.dims.toStarboard ∧
      slice B 270 273 = encUintField 4 r.epfd ∧
      slice B 274 293 = encEta r.etaMonth r.etaDay r.etaHour r.etaMinute ∧
      slice B 294 301 = encDraught s.cfg.roundTie r.draught ∧ slice B 302 421 = encTextField 20 r.destination ∧
      slice B 422 422 = [r.dte] ∧ slice B 423 423 = zeros 1

/-- R70, R180, R181: MSG18: 168 bits, every field of the layout at its place, read from the operand of its name and as
its encoder writes it, a Boolean as one bit (R143). The layout is general knowledge (G1). -/
def Obligations.ClassBReportLayout : Prop :=
  encode .msg18 = 0x2480 ∧
  ∀ (s : State) (r : ClassBRec), ClassBRecOf s r →
    ∃ B : Bits, exec .msg18 s = .next (s.answered (.bits B)) ∧ B.length = 168 ∧
      uval (slice B 0 5) = 18 ∧ slice B 6 7 = encUintField 2 r.common.repeatInd ∧
      slice B 8 37 = encUintField 30 r.common.mmsi ∧ slice B 38 45 = zeros 8 ∧
      slice B 46 55 = encSog s.cfg.roundTie r.common.sog ∧ slice B 56 56 = [r.common.posAcc] ∧
      slice B 57 84 = encLon s.cfg.roundTie r.common.lon ∧ slice B 85 111 = encLat s.cfg.roundTie r.common.lat ∧
      slice B 112 123 = encCog s.cfg.roundTie r.common.cog ∧ slice B 124 132 = encHdg r.common.heading ∧
      slice B 133 138 = encTstamp r.common.timestamp ∧ slice B 139 140 = zeros 2 ∧
      slice B 141 141 = [r.csUnit] ∧ slice B 142 142 = [r.display] ∧ slice B 143 143 = [r.dsc] ∧
      slice B 144 144 = [r.band] ∧ slice B 145 145 = [r.msg22] ∧ slice B 146 146 = [r.assigned] ∧
      slice B 147 147 = [r.raim] ∧ slice B 148 167 = encUintField 20 r.radio

/-- R71, R182, R183: MSG19: 312 bits, every field of the layout at its place, read from the operand of its name and as
its encoder writes it, a Boolean as one bit (R143). The layout is general knowledge (G1). -/
def Obligations.ClassBExtendedReportLayout : Prop :=
  encode .msg19 = 0x24C0 ∧
  ∀ (s : State) (r : ClassBExtRec), ClassBExtRecOf s r →
    ∃ B : Bits, exec .msg19 s = .next (s.answered (.bits B)) ∧ B.length = 312 ∧
      uval (slice B 0 5) = 19 ∧ slice B 6 7 = encUintField 2 r.common.repeatInd ∧
      slice B 8 37 = encUintField 30 r.common.mmsi ∧ slice B 38 45 = zeros 8 ∧
      slice B 46 55 = encSog s.cfg.roundTie r.common.sog ∧ slice B 56 56 = [r.common.posAcc] ∧
      slice B 57 84 = encLon s.cfg.roundTie r.common.lon ∧ slice B 85 111 = encLat s.cfg.roundTie r.common.lat ∧
      slice B 112 123 = encCog s.cfg.roundTie r.common.cog ∧ slice B 124 132 = encHdg r.common.heading ∧
      slice B 133 138 = encTstamp r.common.timestamp ∧ slice B 139 142 = zeros 4 ∧
      slice B 143 262 = encTextField 20 r.name ∧ slice B 263 270 = encUintField 8 r.shipType ∧
      slice B 271 279 = encUintField 9 r.dims.toBow ∧ slice B 280 288 = encUintField 9 r.dims.toStern ∧
      slice B 289 294 = encUintField 6 r.dims.toPort ∧ slice B 295 300 = encUintField 6 r.dims.toStarboard ∧
      slice B 301 304 = encUintField 4 r.epfd ∧ slice B 305 305 = [r.raim] ∧ slice B 306 306 = [r.dte] ∧
      slice B 307 307 = [r.assigned] ∧ slice B 308 311 = zeros 4

/-- R65, R72, R184, R185: MSG21, bit for bit, every field read from the operand of its name and a Boolean as one bit
(R143), with its variable length: the name's characters 21 to 34 unpadded, then zero bits to the next multiple of 8
(the spec's own decision D14). The layout is general knowledge (G1). -/
def Obligations.AidToNavigationLayout : Prop :=
  encode .msg21 = 0x2540 ∧
  ∀ (s : State) (r : AtonRec), AtonRecOf s r →
    ∃ B : Bits, exec .msg21 s = .next (s.answered (.bits B)) ∧
      B.length = 8 * ((272 + 6 * (min r.name.length 34 - 20) + 7) / 8) ∧
      uval (slice B 0 5) = 21 ∧ slice B 6 7 = encUintField 2 r.repeatInd ∧
      slice B 8 37 = encUintField 30 r.mmsi ∧ slice B 38 42 = encUintField 5 r.aidType ∧
      slice B 43 162 = encTextField 20 r.name ∧ slice B 163 163 = [r.posAcc] ∧
      slice B 164 191 = encLon s.cfg.roundTie r.lon ∧ slice B 192 218 = encLat s.cfg.roundTie r.lat ∧
      slice B 219 227 = encUintField 9 r.dims.toBow ∧ slice B 228 236 = encUintField 9 r.dims.toStern ∧
      slice B 237 242 = encUintField 6 r.dims.toPort ∧ slice B 243 248 = encUintField 6 r.dims.toStarboard ∧
      slice B 249 252 = encUintField 4 r.epfd ∧ slice B 253 258 = encTstamp r.timestamp ∧
      slice B 259 259 = [r.offPosition] ∧ slice B 260 267 = zeros 8 ∧ slice B 268 268 = [r.raim] ∧
      slice B 269 269 = [r.virtual] ∧ slice B 270 270 = [r.assigned] ∧ slice B 271 271 = zeros 1 ∧
      (∀ k : Nat, 20 ≤ k → k < min r.name.length 34 →
        slice B (272 + 6 * (k - 20)) (272 + 6 * (k - 20) + 5) = uBits 6 (sixbit (r.name.getD k 0))) ∧
      (∀ j : Nat, 272 + 6 * (min r.name.length 34 - 20) ≤ j → j < B.length → B.getD j true = false)

/-- R73, R74, R186 to R189: MSG24A and MSG24B, bit for bit, every field read from the operand of its name, and MSG24B's
vendor check. The trailing bits of part A and the vendor operand are the spec's own decisions D12 and D13. The layouts
are general knowledge (G1). -/
def Obligations.StaticDataReportLayout : Prop :=
  encode .msg24a = 0x2600 ∧ encode .msg24b = 0x2610 ∧
  (∀ (s : State) (r : PartARec), PartARecOf s r →
    ∃ B : Bits, exec .msg24a s = .next (s.answered (.bits B)) ∧ B.length = 168 ∧
      uval (slice B 0 5) = 24 ∧ slice B 6 7 = encUintField 2 r.repeatInd ∧
      slice B 8 37 = encUintField 30 r.mmsi ∧ uval (slice B 38 39) = 0 ∧
      slice B 40 159 = encTextField 20 r.name ∧ slice B 160 167 = zeros 8) ∧
  (∀ (s : State) (r : PartBRec), PartBRecOf s r →
    (r.vendor.length = 42 →
      ∃ B : Bits, exec .msg24b s = .next (s.answered (.bits B)) ∧ B.length = 168 ∧
        uval (slice B 0 5) = 24 ∧ slice B 6 7 = encUintField 2 r.repeatInd ∧
        slice B 8 37 = encUintField 30 r.mmsi ∧ uval (slice B 38 39) = 1 ∧
        slice B 40 47 = encUintField 8 r.shipType ∧ slice B 48 89 = r.vendor ∧
        slice B 90 131 = encTextField 7 r.callsign ∧ slice B 132 140 = encUintField 9 r.dims.toBow ∧
        slice B 141 149 = encUintField 9 r.dims.toStern ∧ slice B 150 155 = encUintField 6 r.dims.toPort ∧
        slice B 156 161 = encUintField 6 r.dims.toStarboard ∧ slice B 162 165 = encUintField 4 r.epfd ∧
        slice B 166 167 = zeros 2) ∧
    (r.vendor.length ≠ 42 → RaisesOperandError .msg24b .vendor s (exec .msg24b s)))

/-! ### Armor (42_armor.md) -/

/-- R213, R210, R211: ARMOR: the payload padded with zero bits to a multiple of 6, then one character `chr(48 +
value)` per six bits; an operand of more than `MAX_BUF_BITS` bits is OPERAND_ERROR, in the reading of log entry 2
(DESIGN CHOICE, R308). The alphabet is R211's after conflict C1 (log entry 13, PRESUMED). That the result is within
`MAX_BUF_CHARS` (R5) is log entry 10 (DEDUCED). -/
def Obligations.ArmorMapsEverySixBits : Prop :=
  encode .armor = 0x3000 ∧
  ∀ (s : State) (B : Bits), OpRecord.lookup s.operands .B = some (.bits B) →
    (B.length ≤ s.cfg.maxBufBits →
      ∃ S : Chars, exec .armor s = .next (s.answered (.chars S)) ∧ S.length = (B.length + 5) / 6 ∧
        ∀ (i : Nat) (h : i < S.length),
          S[i].toNat = 48 + uval (slice (B ++ zeros ((6 - B.length % 6) % 6)) (6 * i) (6 * i + 5))) ∧
    (s.cfg.maxBufBits < B.length → RaisesOperandError .armor .B s (exec .armor s))

/-- R214: DEARMOR: six bits per character, six zero bits for a character outside 48..111. -/
def Obligations.DearmorMapsEveryCharacter : Prop :=
  encode .dearmor = 0x3040 ∧
  ∀ (s : State) (S : Chars), readChars s .S = .ok S →
    (6 * S.length ≤ s.cfg.maxBufBits →
      ∃ B : Bits, exec .dearmor s = .next (s.answered (.bits B)) ∧ B.length = 6 * S.length ∧
        ∀ (i : Nat) (h : i < S.length),
          uval (slice B (6 * i) (6 * i + 5)) =
            if 48 ≤ S[i].toNat ∧ S[i].toNat ≤ 111 then S[i].toNat - 48 else 0) ∧
    (s.cfg.maxBufBits < 6 * S.length → RaisesOperandError .dearmor .S s (exec .dearmor s))

/-- R212: FILLBITS. The error for a negative count is the spec's own decision D41. -/
def Obligations.FillbitsCountsThePadding : Prop :=
  encode .fillbits = 0x3080 ∧
  ∀ (s : State) (n : Int), readInt s .n = .ok n →
    (0 ≤ n → exec .fillbits s = .next (s.answered (.int ((6 - n % 6) % 6)))) ∧
    (n < 0 → RaisesOperandError .fillbits .n s (exec .fillbits s))

/-- R215: the round-trip laws of the armor, as laws of the two functions, free of the bounds of DEARMOR's operand and
result (log entry 10, DEDUCED). -/
def Obligations.ArmorRoundTrip : Prop :=
  (∀ B : Bits, dearmorBits (armor B) = B ++ zeros ((6 - B.length % 6) % 6)) ∧
  (∀ S : Chars, armor (dearmorBits S) = S.map fun c => if 48 ≤ c.toNat ∧ c.toNat ≤ 111 then c else 48)

/-! ### Framer (43_framer.md) -/

/-- R231, R232, R233, R234: SPLIT. Up to 336 bits make one fragment with no seqid and leave the counter; more make
`ceil(n / 336)` fragments that share the seqid of the incremented counter, each armored by itself. The counter's use
is the spec's own decision D16. -/
def Obligations.SplitCutsAndNumbersThePayload : Prop :=
  encode .split = 0x4000 ∧
  ∀ (s : State) (B : Bits) (chan : Chan), readBits s .B = .ok B → readChan s .chan = .ok chan →
    (1 ≤ B.length ∧ B.length ≤ 336 →
      exec .split s = .next (s.answered (.fragments
        [{ total := 1, index := 1, seqid := [], chan := chan, payload := armor B,
           fill := ((6 - B.length % 6) % 6 : Nat) }]))) ∧
    (336 < B.length ∧ B.length ≤ 3024 →
      ∃ (c : BitVec 4) (L : List Fragment),
        exec .split s = .next ((s.setCtr c).answered (.fragments L)) ∧
        c.toNat = (s.seqCtr.toNat + 1) % 10 ∧ L.length = (B.length + 335) / 336 ∧
        ∀ (i : Nat) (h : i < L.length),
          L[i].total = L.length ∧ L[i].index = i + 1 ∧ L[i].chan = chan ∧
          L[i].seqid = (if c.toNat = 0 then [] else [BitVec.ofNat 8 (48 + c.toNat)]) ∧
          L[i].payload = armor (slice B (336 * i) (336 * i + 335)) ∧
          L[i].fill = if i + 1 < L.length then 0 else ((6 - B.length % 6) % 6 : Nat)) ∧
    (B.length < 1 ∨ 3024 < B.length → RaisesOperandError .split .B s (exec .split s))

/-- R234, R236, R239: ENCODE_AIVDM: from 1 to 3024 bits it always completes, with the counter SPLIT leaves and one
sentence per fragment of SPLIT, each the frame of its fragment and at most 78 characters. -/
def Obligations.EncodeAivdmFramesEveryFragment : Prop :=
  encode .encodeAivdm = 0x4080 ∧
  ∀ (s : State) (B : Bits) (chan : Chan), readBits s .B = .ok B → readChan s .chan = .ok chan →
    (1 ≤ B.length ∧ B.length ≤ 3024 →
      ∃ (c : BitVec 4) (L : List Fragment) (T : List Chars),
        splitPayload s.seqCtr B chan = .ok (c, L) ∧
        exec .encodeAivdm s = .next ((s.setCtr c).answered (.sentences T)) ∧
        T.length = L.length ∧
        (∀ (i : Nat) (h : i < L.length) (h' : i < T.length), frameAivdm L[i] = .ok T[i] ∧ T[i].length ≤ 78)) ∧
    (B.length < 1 ∨ 3024 < B.length → RaisesOperandError .encodeAivdm .B s (exec .encodeAivdm s))

/-- R76, R230, R235: FRAME_AIVDM, character for character: the sentence
`!AIVDM,total,index,seqid,chan,payload,fill*HH` and CR LF, for a fragment in the ranges of R230 whose seqid and
payload have at most 61 characters together; the status MALFORMED_SENTENCE when they have more, since the sentence
would exceed 82 characters; OPERAND_ERROR for a field out of range. `HH` is the XOR of the characters of the body
(R260) in two digits of 0 to 9 and A to F (R9, R261). -/
def Obligations.FrameAivdmIsCharacterExact : Prop :=
  encode .frameAivdm = 0x4040 ∧
  ∀ (s : State) (g : Fragment), readFragment s .f = .ok g →
    (g.inRange = true →
      ∃ (body : Chars) (x : Nat),
        x = (body.foldr (fun c y => c ^^^ y) 0).toNat ∧
        body = ascii "AIVDM," ++ [BitVec.ofInt 8 (48 + g.total), ord ',', BitVec.ofInt 8 (48 + g.index), ord ','] ++
          g.seqid ++ [ord ',', if g.chan = .a then ord 'A' else ord 'B', ord ','] ++ g.payload ++
          [ord ',', BitVec.ofInt 8 (48 + g.fill)] ∧
        (g.seqid.length + g.payload.length ≤ 61 →
          exec .frameAivdm s =
            .next (s.answered (.sentence (ord '!' :: body ++
              [ord '*', (ascii "0123456789ABCDEF").getD (x / 16) 0, (ascii "0123456789ABCDEF").getD (x % 16) 0,
               13, 10])))) ∧
        (61 < g.seqid.length + g.payload.length →
          exec .frameAivdm s = .next (s.failed .malformedSentence))) ∧
    (g.inRange = false → RaisesOperandError .frameAivdm .f s (exec .frameAivdm s))

/-- R237: REASSEMBLE, on a list that passes its checks and on one that does not. The checks are the spec's own
decision D20; that the inner DEARMOR applies no bound of its own is log entry 9. -/
def Obligations.ReassembleChecksThenJoins : Prop :=
  encode .reassemble = 0x40C0 ∧
  ∀ (s : State) (L : List Fragment), readFragments s .L = .ok L →
    (Reassemblable s.cfg.maxBufBits L →
      ∃ (B pad : Bits), exec .reassemble s = .next (s.answered (.bits B)) ∧
        B ++ pad = L.flatMap (fun g => dearmorBits g.payload) ∧
        ∀ last, L.getLast? = some last → (pad.length : Int) = last.fill) ∧
    (¬ Reassemblable s.cfg.maxBufBits L → RaisesOperandError .reassemble .L s (exec .reassemble s))

/-- R238: the reassembly invariant: whatever SPLIT returns, REASSEMBLE, given it on any instance, returns the payload.
-/
def Obligations.ReassembleInvertsSplit : Prop :=
  ∀ (s t : State) (B : Bits) (chan : Chan),
    readBits s .B = .ok B → readChan s .chan = .ok chan → 1 ≤ B.length → B.length ≤ 3024 →
    ∃ (s' : State) (L : List Fragment),
      exec .split s = .next s' ∧ s'.response = some ⟨.ok, some (.fragments L)⟩ ∧
      (OpRecord.lookup t.operands .L = some (.fragments L) →
        exec .reassemble t = .next (t.answered (.bits B)))

/-- R233, R334: a run of `n` SPLIT transactions of more than 336 bits each advances the counter by `n` modulo 10, so
the seqids go round 1 to 9 and the empty one. The counter's use is the spec's own decision D16. -/
def Obligations.CounterCountsMultiFragmentMessages : Prop :=
  ∀ (ts : List Transaction) (s : State),
    (∀ t ∈ ts, t.cmd = 0x4000 ∧
      (∃ B, OpRecord.lookup t.operands .B = some (.bits B) ∧ 336 < B.length ∧ B.length ≤ 3024) ∧
      (∃ c, OpRecord.lookup t.operands .chan = some (.chan c))) →
    s.input = ts.map .transact → s.seqCtr.toNat ≤ 9 →
    ∃ u : State, Host.Core.run Sys2Proof.core ts.length s = .next u ∧
      u.seqCtr.toNat = (s.seqCtr.toNat + ts.length) % 10 ∧ u.input = []

/-! ### NMEA (44_nmea.md) -/

/-- R260: CHECKSUM: the XOR of the 8-bit codes, 0 for the empty string, different for strings that differ in exactly
one character; an operand of more than `MAX_BUF_CHARS` characters is OPERAND_ERROR, in the reading of log
entry 2 (DESIGN CHOICE, R308). That CHECKSUM takes its whole operand, and the host passes the span between the prefix
and the star, is the spec's own decision D40. -/
def Obligations.ChecksumIsTheXorOfTheCharacters : Prop :=
  encode .checksum = 0x5000 ∧
  (∀ (s : State) (S : Chars), OpRecord.lookup s.operands .S = some (.chars S) →
    (S.length ≤ s.cfg.maxBufChars →
      exec .checksum s = .next (s.answered (.int (S.foldr (fun c x => c ^^^ x) 0).toNat))) ∧
    (s.cfg.maxBufChars < S.length → RaisesOperandError .checksum .S s (exec .checksum s))) ∧
  (∀ (P Q : Chars) (a b : Char8), a ≠ b → checksum (P ++ a :: Q) ≠ checksum (P ++ b :: Q))

/-- R262, R263, R264: BUILD, its three errors in order and its sentence, whose length is `1 + 5 + sum (1 + len f) + 3
+ 2`; the checksum is written in two digits of 0 to 9 and A to F (R9, R261). The prefix rule, the checks and their
order are the spec's own decisions D21 and D23. -/
def Obligations.BuildChecksThenRenders : Prop :=
  encode .build = 0x5040 ∧
  ∀ (s : State) (talker sid : Chars) (fields : List Chars),
    readChars s .talker = .ok talker → readChars s .sid = .ok sid → readCharsList s .fields = .ok fields →
    (talker.length ≠ 2 → RaisesOperandError .build .talker s (exec .build s)) ∧
    (talker.length = 2 → sid ∉ [ascii "VDM", ascii "GGA", ascii "RMC"] →
      exec .build s = .next (s.failed .unsupportedSentenceType)) ∧
    (talker.length = 2 → sid ∈ [ascii "VDM", ascii "GGA", ascii "RMC"] →
      82 < 1 + 5 + (fields.map fun g => 1 + g.length).sum + 3 + 2 →
      exec .build s = .next (s.failed .malformedSentence)) ∧
    (talker.length = 2 → sid ∈ [ascii "VDM", ascii "GGA", ascii "RMC"] →
      1 + 5 + (fields.map fun g => 1 + g.length).sum + 3 + 2 ≤ 82 →
      ∃ (body S : Chars) (x : Nat),
        x = (body.foldr (fun c y => c ^^^ y) 0).toNat ∧
        body = talker ++ sid ++ (fields.map fun g => ord ',' :: g).flatten ∧
        S = (if sid = ascii "VDM" then ord '!' else ord '$') :: body ++
          [ord '*', (ascii "0123456789ABCDEF").getD (x / 16) 0, (ascii "0123456789ABCDEF").getD (x % 16) 0, 13, 10] ∧
        S.length = 1 + 5 + (fields.map fun g => 1 + g.length).sum + 3 + 2 ∧
        exec .build s = .next (s.answered (.sentence S)))

/-- R261, R265, R266, R303: PARSE on a sentence with a prefix, a body without `*`, a checksum text, and any run of CR
and LF after it, that is within the length: the errors in their order, and the record of a good sentence with the
talker fallback. A checksum text is two hexadecimal digits of either case, and its value is compared with the XOR of
the body (R260); any other text is MALFORMED_SENTENCE. The order is the spec's own decision D23, the terminator rule
its decision D24. -/
def Obligations.ParseChecksInOrder : Prop :=
  encode .parse = 0x5080 ∧
  ∀ (s : State) (pre : Char8) (body h tail S : Chars),
    readChars s .S = .ok S → S = pre :: body ++ ord '*' :: h ++ tail →
    pre = ord '!' ∨ pre = ord '$' → ord '*' ∉ body →
    (∀ c ∈ tail, c = 13 ∨ c = 10) → (∀ c, h.getLast? = some c → c ≠ 13 ∧ c ≠ 10) →
    (82 < body.length + h.length + 4 → exec .parse s = .next (s.failed .malformedSentence)) ∧
    (body.length + h.length + 4 ≤ 82 →
      ((¬ ∃ a b x y, h = [a, b] ∧ IsHexDigit a x ∧ IsHexDigit b y) →
        exec .parse s = .next (s.failed .malformedSentence)) ∧
      (∀ a b x y, h = [a, b] → IsHexDigit a x → IsHexDigit b y →
        16 * x + y ≠ (body.foldr (fun c z => c ^^^ z) 0).toNat →
        exec .parse s = .next (s.failed .checksumMismatch)) ∧
      (∀ a b x y (addr : Chars) (fields : List Chars),
        h = [a, b] → IsHexDigit a x → IsHexDigit b y → 16 * x + y = (body.foldr (fun c z => c ^^^ z) 0).toNat →
        body = addr ++ (fields.map fun g => ord ',' :: g).flatten →
        ord ',' ∉ addr → (∀ g ∈ fields, ord ',' ∉ g) →
        (addr.length ≠ 5 → exec .parse s = .next (s.failed .malformedSentence)) ∧
        (addr.length = 5 → addr.drop 2 ∉ [ascii "VDM", ascii "GGA", ascii "RMC"] →
          exec .parse s = .next (s.failed .unsupportedSentenceType)) ∧
        (addr.length = 5 → addr.drop 2 ∈ [ascii "VDM", ascii "GGA", ascii "RMC"] →
          exec .parse s = .next (s.answered (.parsed
            { talker := if addr.take 2 ∈ [ascii "AI", ascii "GP"] then addr.take 2
                else (match s.cfg.defaultTalker with | .ai => ascii "AI" | .gp => ascii "GP")
              sid := addr.drop 2
              fields := fields
              checksum := body.foldr (fun c z => c ^^^ z) 0 })))))

/-- R265: PARSE refuses as MALFORMED_SENTENCE a text that, without its trailing CR and LF, is too long, has no `$` or
`!` in front, or has no `*`. -/
def Obligations.ParseRefusesUnframedText : Prop :=
  ∀ (s : State) (T tail S : Chars),
    readChars s .S = .ok S → S = T ++ tail → (∀ c ∈ tail, c = 13 ∨ c = 10) →
    (∀ c, T.getLast? = some c → c ≠ 13 ∧ c ≠ 10) →
    (82 < T.length + 2 ∨ (T.head? ≠ some (ord '$') ∧ T.head? ≠ some (ord '!')) ∨ ord '*' ∉ T) →
    exec .parse s = .next (s.failed .malformedSentence)

/-- R267: what BUILD builds PARSE reads back: the sentence ID, the fields and the checksum, and the talker, or the
default talker for one outside TALKER_IDS. -/
def Obligations.ParseInvertsBuild : Prop :=
  ∀ (dflt : TalkerId) (talker sid : Chars) (fields : List Chars) (S : Chars),
    build talker sid fields = .ok S →
    ord ',' ∉ talker → ord '*' ∉ talker → (∀ g ∈ fields, ord ',' ∉ g ∧ ord '*' ∉ g) →
    parse dflt S = .ok
      { talker := if talker ∈ talkerIds then talker else talkerChars dflt
        sid := sid
        fields := fields
        checksum := checksum (talker ++ sid ++ (fields.map fun g => ord ',' :: g).flatten) }

/-! ### Pseudo-operations (30_encoding.md) -/

/-- R81, R333: the expansion of the pseudo-operations. `AIVDM.MSG<t>` performs the message operation and then frames
its payload, and `STATIC24` is part A and then part B from the state part A left. So on two readable records with a
vendor of 42 bits each part is one fragment, the host emits the sentence of part A and then the sentence of part B, and
the counter, the configuration and what is still presented stay. Where the host gives both parts one `repeat` and one
`mmsi` (R333), both payloads carry them. How a pseudo-operation runs on an instance is the model's choice (log entry
11, DESIGN CHOICE). -/
def Obligations.StaticPairIsTwoSingleSentences : Prop :=
  ∀ (s : State) (ra rb : OpRecord) (chan : Chan) (a : PartARec) (b : PartBRec),
    PartARecOf (s.accept ra s.input) a → PartBRecOf (s.accept rb s.input) b → b.vendor.length = 42 →
    ∃ (t u : State) (A B : Chars),
      frameAivdm { total := 1, index := 1, seqid := [], chan := chan, payload := armor (msg24aBits a), fill := 0 }
        = .ok A ∧
      frameAivdm { total := 1, index := 1, seqid := [], chan := chan, payload := armor (msg24bBits b), fill := 0 }
        = .ok B ∧
      t = { s with operands := [], response := some ⟨.ok, some (.sentences [A])⟩ } ∧
      u = { s with operands := [], response := some ⟨.ok, some (.sentences [B])⟩ } ∧
      runPseudo (.aivdmMsg .msg24a ra chan) s = .next ⟨t, [⟨.ok, some (.sentences [A])⟩]⟩ ∧
      runPseudo (.aivdmMsg .msg24b rb chan) t = .next ⟨u, [⟨.ok, some (.sentences [B])⟩]⟩ ∧
      runPseudo (.static24 ra rb chan) s =
        .next ⟨u, [⟨.ok, some (.sentences [A])⟩, ⟨.ok, some (.sentences [B])⟩]⟩ ∧
      (Static24Paired ra rb → slice (msg24aBits a) 6 37 = slice (msg24bBits b) 6 37)
end

