-- ==== Sys2Proof/Laws/State.lean ====
section
/-! SUPPORT. One lemma per field per update of the state, and what each shared end of a transaction can answer. -/

namespace Sys2Proof.Machine

@[simp] theorem setCtr_cfg (s : State) (c : BitVec 4) : (s.setCtr c).cfg = s.cfg := rfl
@[simp] theorem setCtr_seqCtr (s : State) (c : BitVec 4) : (s.setCtr c).seqCtr = c := rfl
@[simp] theorem setCtr_input (s : State) (c : BitVec 4) : (s.setCtr c).input = s.input := rfl
@[simp] theorem setCtr_operands (s : State) (c : BitVec 4) : (s.setCtr c).operands = s.operands := rfl
@[simp] theorem setCtr_response (s : State) (c : BitVec 4) : (s.setCtr c).response = s.response := rfl
@[simp] theorem setCtr_self (s : State) : s.setCtr s.seqCtr = s := rfl

@[simp] theorem accept_cfg (s : State) (o : OpRecord) (r : List HostEvent) : (s.accept o r).cfg = s.cfg := rfl
@[simp] theorem accept_seqCtr (s : State) (o : OpRecord) (r : List HostEvent) : (s.accept o r).seqCtr = s.seqCtr := rfl
@[simp] theorem accept_input (s : State) (o : OpRecord) (r : List HostEvent) : (s.accept o r).input = r := rfl
@[simp] theorem accept_operands (s : State) (o : OpRecord) (r : List HostEvent) : (s.accept o r).operands = o := rfl
@[simp] theorem accept_response (s : State) (o : OpRecord) (r : List HostEvent) : (s.accept o r).response = none := rfl

@[simp] theorem answered_cfg (s : State) (r : Result) : (s.answered r).cfg = s.cfg := rfl
@[simp] theorem answered_seqCtr (s : State) (r : Result) : (s.answered r).seqCtr = s.seqCtr := rfl
@[simp] theorem answered_input (s : State) (r : Result) : (s.answered r).input = s.input := rfl
@[simp] theorem answered_operands (s : State) (r : Result) : (s.answered r).operands = [] := rfl
@[simp] theorem answered_response (s : State) (r : Result) :
    (s.answered r).response = some { status := .ok, result := some r } := rfl

@[simp] theorem failed_cfg (s : State) (st : Status) : (s.failed st).cfg = s.cfg := rfl
@[simp] theorem failed_seqCtr (s : State) (st : Status) : (s.failed st).seqCtr = s.seqCtr := rfl
@[simp] theorem failed_input (s : State) (st : Status) : (s.failed st).input = s.input := rfl
@[simp] theorem failed_operands (s : State) (st : Status) : (s.failed st).operands = [] := rfl
@[simp] theorem failed_response (s : State) (st : Status) :
    (s.failed st).response = some { status := st, result := none } := rfl

@[simp] theorem applyReset_cfg (s : State) (r : List HostEvent) : (s.applyReset r).cfg = s.cfg := rfl
@[simp] theorem applyReset_seqCtr (s : State) (r : List HostEvent) : (s.applyReset r).seqCtr = 0 := rfl
@[simp] theorem applyReset_input (s : State) (r : List HostEvent) : (s.applyReset r).input = r := rfl
@[simp] theorem applyReset_operands (s : State) (r : List HostEvent) : (s.applyReset r).operands = [] := rfl
@[simp] theorem applyReset_response (s : State) (r : List HostEvent) : (s.applyReset r).response = none := rfl

@[simp] theorem init_cfg (cfg : Config) (c : Fin 10) : (State.init cfg c).cfg = cfg := rfl
@[simp] theorem init_input (cfg : Config) (c : Fin 10) : (State.init cfg c).input = [] := rfl
@[simp] theorem init_operands (cfg : Config) (c : Fin 10) : (State.init cfg c).operands = [] := rfl
@[simp] theorem init_response (cfg : Config) (c : Fin 10) : (State.init cfg c).response = none := rfl
@[simp] theorem init_seqCtr_toNat (cfg : Config) (c : Fin 10) : (State.init cfg c).seqCtr.toNat = c := by
  rw [State.init, BitVec.toNat_ofNat, Nat.mod_eq_of_lt (by omega)]

@[simp] theorem emit_next (t : State) : emit (.next t) = .next { block := t, emitted := t.response.toList } := rfl
@[simp] theorem emit_fault (f : Fault) : emit (.fault f) = .fault f := rfl

/-! ### Reading one operand after another -/

@[simp] theorem ok_bind {α β : Type} (a : α) (k : α → Except OpError β) : (Except.ok a >>= k) = k a := rfl

@[simp] theorem error_bind {α β : Type} (e : OpError) (k : α → Except OpError β) :
    ((Except.error e : Except OpError α) >>= k) = .error e := rfl

@[simp] theorem pure_ok {α : Type} (a : α) : (pure a : Except OpError α) = .ok a := rfl

/-! ### What the shared ends can answer -/

@[simp] theorem answer_ok (op : Instr) (v : Result) (s : State) : answer op (.ok v) s = .next (s.answered v) := rfl

@[simp] theorem answer_error (op : Instr) (e : OpError) (s : State) : answer op (.error e) s = raise op e s := rfl

@[simp] theorem answerCtr_ok (op : Instr) (c : BitVec 4) (v : Result) (s : State) :
    answerCtr op (.ok (c, v)) s = .next ((s.setCtr c).answered v) := rfl

@[simp] theorem answerCtr_error (op : Instr) (e : OpError) (s : State) : answerCtr op (.error e) s = raise op e s := rfl

theorem raise_operand (op : Instr) (fd : Field) (s : State) :
    RaisesOperandError op fd s (raise op (.operand fd) s) := by
  constructor <;> intro h <;> simp [raise, h]

theorem raise_ends (op : Instr) (e : OpError) (s : State) : Ends op s (raise op e s) := by
  cases e with
  | malformedSentence => exact .failed _ (by decide)
  | checksumMismatch => exact .failed _ (by decide)
  | unsupportedSentenceType => exact .failed _ (by decide)
  | operand fd =>
    cases h : s.cfg.hostErrors with
    | asFault => simpa [raise, h] using Ends.fault fd h
    | asResponse => simpa [raise, h] using Ends.failed (op := op) (s := s) .operandError (by decide)

theorem answer_ends (op : Instr) (r : Except OpError Result) (s : State) : Ends op s (answer op r s) := by
  cases r with
  | ok v => exact .answered v
  | error e => exact raise_ends op e s

theorem answerCtr_ends (op : Instr) (r : Except OpError (BitVec 4 × Result)) (s : State) :
    Ends op s (answerCtr op r s) := by
  cases r with
  | ok p => exact .moved p.1 p.2
  | error e => exact raise_ends op e s

/-- What an operation that writes no state can leave. -/
theorem answer_next {op : Instr} {r : Except OpError Result} {s t : State} (h : answer op r s = .next t) :
    (∃ v, r = .ok v ∧ t = s.answered v) ∨ (∃ e st, r = .error e ∧ st ≠ .ok ∧ t = s.failed st) := by
  cases r with
  | ok v => exact .inl ⟨v, rfl, by simpa using h.symm⟩
  | error e =>
    refine .inr ⟨e, ?_⟩
    rw [answer_error] at h
    cases e with
    | operand fd =>
      cases hc : s.cfg.hostErrors with
      | asFault => simp [raise, hc] at h
      | asResponse => exact ⟨.operandError, rfl, by decide, by simpa [raise, hc] using h.symm⟩
    | malformedSentence => exact ⟨.malformedSentence, rfl, by decide, by simpa [raise] using h.symm⟩
    | checksumMismatch => exact ⟨.checksumMismatch, rfl, by decide, by simpa [raise] using h.symm⟩
    | unsupportedSentenceType => exact ⟨.unsupportedSentenceType, rfl, by decide, by simpa [raise] using h.symm⟩

end Sys2Proof.Machine
end

