-- ==== Sys2Proof/Laws/Ops.lean ====
section
/-! SUPPORT. Bit strings, numbers and numerals: what each named operation gives. -/

namespace Sys2Proof.Machine

/-! ### Bit strings -/

@[simp] theorem uBits_length (w v : Nat) : (uBits w v).length = w := by
  induction w with
  | zero => rfl
  | succ w ih => simp [uBits, ih]

@[simp] theorem sBits_length (w : Nat) (v : Int) : (sBits w v).length = w := uBits_length _ _

@[simp] theorem zeros_length (k : Nat) : (zeros k).length = k := List.length_replicate

@[simp] theorem flag_length (b : Bool) : (flag b).length = 1 := rfl

theorem uval_foldl (B : Bits) (acc : Nat) :
    B.foldl (fun a b => 2 * a + b.toNat) acc = acc * 2 ^ B.length + uval B := by
  induction B generalizing acc with
  | nil => simp [uval]
  | cons b B ih =>
    have h0 : uval (b :: B) = (2 * 0 + b.toNat) * 2 ^ B.length + uval B := ih (2 * 0 + b.toNat)
    rw [List.foldl_cons, ih, h0, List.length_cons, pow_succ]
    ring

theorem uval_cons (b : Bool) (B : Bits) : uval (b :: B) = b.toNat * 2 ^ B.length + uval B := by
  rw [uval, List.foldl_cons, uval_foldl]; simp

theorem uval_append (A B : Bits) : uval (A ++ B) = uval A * 2 ^ B.length + uval B := by
  rw [uval, List.foldl_append, uval_foldl]; rfl

@[simp] theorem uval_nil : uval [] = 0 := rfl

@[simp] theorem uval_zeros (k : Nat) : uval (zeros k) = 0 := by
  induction k with
  | zero => rfl
  | succ k ih =>
    have : zeros (k + 1) = false :: zeros k := rfl
    rw [this, uval_cons, ih]; simp

theorem uval_lt (B : Bits) : uval B < 2 ^ B.length := by
  induction B with
  | nil => simp
  | cons b B ih =>
    rw [uval_cons, List.length_cons, pow_succ]
    cases b <;> simp <;> omega

theorem uval_uBits_mod (w v : Nat) : uval (uBits w v) = v % 2 ^ w := by
  induction w with
  | zero => simp [uBits, Nat.mod_one]
  | succ w ih =>
    have hb : (v.testBit w).toNat = v / 2 ^ w % 2 := by
      rw [Nat.testBit_eq_decide_div_mod_eq]
      rcases Nat.mod_two_eq_zero_or_one (v / 2 ^ w) with h | h <;> simp [h]
    rw [uBits, uval_cons, uBits_length, ih, hb, pow_succ, Nat.mod_mul]
    ring

theorem uval_uBits {w v : Nat} (h : v < 2 ^ w) : uval (uBits w v) = v := by
  rw [uval_uBits_mod, Nat.mod_eq_of_lt h]

/-- A bit string is the only one of its length and value. -/
theorem eq_of_uval {A B : Bits} (hl : A.length = B.length) (hv : uval A = uval B) : A = B := by
  induction A generalizing B with
  | nil => exact (List.length_eq_zero_iff.mp hl.symm).symm
  | cons a A ih =>
    cases B with
    | nil => simp at hl
    | cons b B =>
      have hl' : A.length = B.length := by simpa using hl
      rw [uval_cons, uval_cons, hl'] at hv
      have hA := uval_lt A
      have hB := uval_lt B
      rw [hl'] at hA
      have hab : a = b ∧ uval A = uval B := by
        cases a <;> cases b <;> simp at hv ⊢ <;> omega
      rw [hab.1, ih hl' hab.2]

theorem uBits_uval (B : Bits) : uBits B.length (uval B) = B :=
  eq_of_uval (by simp) (uval_uBits (uval_lt B))

theorem sval_eq (B : Bits) : sval B = if 2 ^ B.length ≤ 2 * uval B then (uval B : Int) - 2 ^ B.length else uval B := by
  cases B with
  | nil => simp [sval]
  | cons b B =>
    have hB := uval_lt B
    cases b with
    | true =>
      have : 2 ^ (true :: B).length ≤ 2 * uval (true :: B) := by
        rw [uval_cons, List.length_cons, pow_succ]; simp; omega
      rw [if_pos this]; rfl
    | false =>
      have : ¬ 2 ^ (false :: B).length ≤ 2 * uval (false :: B) := by
        rw [uval_cons, List.length_cons, pow_succ]; simp; omega
      rw [if_neg this]; rfl

/-- `s_w` is two's complement inside its range (00_scope.md R8). -/
theorem sval_sBits {w : Nat} (hw : 0 < w) {v : Int} (hlo : -2 ^ (w - 1) ≤ v) (hhi : v < 2 ^ (w - 1)) :
    sval (sBits w v) = v := by
  obtain ⟨k, rfl⟩ : ∃ k, w = k + 1 := ⟨w - 1, by omega⟩
  simp only [Nat.add_sub_cancel] at hlo hhi
  have hp : (0 : Int) < 2 ^ k := by positivity
  have hpow : (2 : Int) ^ (k + 1) = 2 * 2 ^ k := by rw [pow_succ]; ring
  have hval : ((uval (sBits (k + 1) v) : Nat) : Int) = v % 2 ^ (k + 1) := by
    have h0 := Int.emod_nonneg v (show (2 : Int) ^ (k + 1) ≠ 0 by positivity)
    have h1 := Int.emod_lt_of_pos v (show (0 : Int) < 2 ^ (k + 1) by positivity)
    rw [sBits, uval_uBits]
    · exact Int.toNat_of_nonneg h0
    · zify; rw [Int.toNat_of_nonneg h0]; exact h1
  rw [sval_eq, sBits_length, hval]
  by_cases hv : 0 ≤ v
  · have hm : v % 2 ^ (k + 1) = v := Int.emod_eq_of_lt hv (by omega)
    rw [if_neg, hm]
    zify
    rw [hval, hm]; omega
  · have hm : v % 2 ^ (k + 1) = v + 2 ^ (k + 1) := by
      rw [← Int.add_emod_right]
      exact Int.emod_eq_of_lt (by omega) (by omega)
    rw [if_pos, hm]
    · ring
    · zify; rw [hval, hm]; omega

@[simp] theorem sixGroups_length (k : Nat) (B : Bits) : (sixGroups k B).length = k := by
  induction k generalizing B with
  | zero => rfl
  | succ k ih => simp [sixGroups, ih]

theorem sixGroups_append {A : Bits} (hA : A.length = 6) (k : Nat) (B : Bits) :
    sixGroups (k + 1) (A ++ B) = A :: sixGroups k B := by
  rw [sixGroups, List.take_left' hA, List.drop_left' hA]

/-- Group `i` is `B<6i..6i+5>` (42_armor.md R210). -/
theorem sixGroups_getElem (k : Nat) (B : Bits) (i : Nat) (h : i < (sixGroups k B).length) :
    (sixGroups k B)[i] = (B.drop (6 * i)).take 6 := by
  induction k generalizing B i with
  | zero => simp [sixGroups] at h
  | succ k ih =>
    cases i with
    | zero => rfl
    | succ i =>
      simp only [sixGroups, List.getElem_cons_succ]
      rw [ih, List.drop_drop]
      congr 2
      omega

/-! ### Numbers -/

theorem clamp_eq (v lo hi : Int) : clamp v lo hi = max lo (min hi v) := rfl

theorem clamp_lo {v lo hi : Int} : lo ≤ clamp v lo hi := le_max_left _ _

theorem clamp_hi {v lo hi : Int} (h : lo ≤ hi) : clamp v lo hi ≤ hi := max_le h (min_le_left _ _)

theorem clamp_of_mem {v lo hi : Int} (h1 : lo ≤ v) (h2 : v ≤ hi) : clamp v lo hi = v := by
  rw [clamp, min_eq_right h2, max_eq_right h1]

theorem isqrtBits_spec (k acc n : Nat) (hlo : acc * acc ≤ n) (hhi : n < (acc + 2 ^ k) * (acc + 2 ^ k)) :
    isqrtBits k acc n * isqrtBits k acc n ≤ n ∧ n < (isqrtBits k acc n + 1) * (isqrtBits k acc n + 1) := by
  induction k generalizing acc with
  | zero => exact ⟨hlo, by simpa [isqrtBits] using hhi⟩
  | succ k ih =>
    rw [isqrtBits]
    split
    · rename_i h
      refine ih _ h ?_
      rw [pow_succ] at hhi
      convert hhi using 1
      ring
    · rename_i h
      exact ih _ hlo (by omega)

/-- `isqrt n` is the greatest `q` with `q * q <= n` (00_scope.md R12). -/
theorem isqrt_spec (n : Nat) : isqrt n * isqrt n ≤ n ∧ n < (isqrt n + 1) * (isqrt n + 1) := by
  refine isqrtBits_spec _ _ _ (by omega) ?_
  have h1 : n < 2 ^ (n.log2 + 1) := Nat.lt_log2_self
  have h2 : 1 ≤ 2 ^ (n.log2 + 1) := Nat.one_le_two_pow
  rw [Nat.zero_add]
  exact lt_of_lt_of_le h1 (Nat.le_mul_of_pos_left _ h2)

/-! ### Numerals and the counter -/

@[simp] theorem hex2_length (v : Char8) : (hex2 v).length = 2 := rfl

@[simp] theorem crlf_length : crlf.length = 2 := rfl

theorem decimal_digit {n : Nat} (h : n < 10) : decimal n = [BitVec.ofNat 8 (48 + n)] := by
  rw [decimal, decimalDigits, if_pos h]

theorem nextCtr_toNat (c : BitVec 4) : (nextCtr c).toNat = (c.toNat + 1) % 10 := by
  have : (c.toNat + 1) % seqMod < 10 := Nat.mod_lt _ (by decide)
  rw [nextCtr, BitVec.toNat_ofNat, Nat.mod_eq_of_lt (by omega)]
  rfl

end Sys2Proof.Machine
end

