-- ==== Sys2Proof/Laws/Operands.lean ====
section
/-! SUPPORT. What each reader of the operand channel answers: the value of a well-typed field, or the error naming the
field. -/

namespace Sys2Proof.Machine

theorem readInt_cases (s : State) (fd : Field) :
    (∃ v, readInt s fd = .ok v) ∨ readInt s fd = .error (.operand fd) := by
  unfold readInt; split
  · split
    · exact .inl ⟨_, rfl⟩
    · exact .inr rfl
  · exact .inr rfl

theorem readReal_cases (s : State) (fd : Field) :
    (∃ v, readReal s fd = .ok v) ∨ readReal s fd = .error (.operand fd) := by
  unfold readReal; split
  · exact .inl ⟨_, rfl⟩
  · exact .inr rfl

theorem readOptInt_cases (s : State) (fd : Field) :
    (∃ v, readOptInt s fd = .ok v) ∨ readOptInt s fd = .error (.operand fd) := by
  unfold readOptInt; split
  · exact .inl ⟨_, rfl⟩
  · split
    · exact .inl ⟨_, rfl⟩
    · exact .inr rfl
  · exact .inr rfl

theorem readOptReal_cases (s : State) (fd : Field) :
    (∃ v, readOptReal s fd = .ok v) ∨ readOptReal s fd = .error (.operand fd) := by
  unfold readOptReal; split
  · exact .inl ⟨_, rfl⟩
  · exact .inl ⟨_, rfl⟩
  · exact .inr rfl

theorem readBool_cases (s : State) (fd : Field) :
    (∃ v, readBool s fd = .ok v) ∨ readBool s fd = .error (.operand fd) := by
  unfold readBool; split
  · exact .inl ⟨_, rfl⟩
  · exact .inr rfl

theorem readBits_cases (s : State) (fd : Field) :
    (∃ v, readBits s fd = .ok v) ∨ readBits s fd = .error (.operand fd) := by
  unfold readBits; split
  · split
    · exact .inl ⟨_, rfl⟩
    · exact .inr rfl
  · exact .inr rfl

theorem readChars_cases (s : State) (fd : Field) :
    (∃ v, readChars s fd = .ok v) ∨ readChars s fd = .error (.operand fd) := by
  unfold readChars; split
  · split
    · exact .inl ⟨_, rfl⟩
    · exact .inr rfl
  · exact .inr rfl

theorem readChan_cases (s : State) (fd : Field) :
    (∃ v, readChan s fd = .ok v) ∨ readChan s fd = .error (.operand fd) := by
  unfold readChan; split
  · exact .inl ⟨_, rfl⟩
  · exact .inr rfl

theorem readFragment_cases (s : State) (fd : Field) :
    (∃ v, readFragment s fd = .ok v) ∨ readFragment s fd = .error (.operand fd) := by
  unfold readFragment; split
  · split
    · exact .inl ⟨_, rfl⟩
    · exact .inr rfl
  · exact .inr rfl

theorem readFragments_cases (s : State) (fd : Field) :
    (∃ v, readFragments s fd = .ok v) ∨ readFragments s fd = .error (.operand fd) := by
  unfold readFragments; split
  · split
    · exact .inl ⟨_, rfl⟩
    · exact .inr rfl
  · exact .inr rfl

theorem readCharsList_cases (s : State) (fd : Field) :
    (∃ v, readCharsList s fd = .ok v) ∨ readCharsList s fd = .error (.operand fd) := by
  unfold readCharsList; split
  · split
    · exact .inl ⟨_, rfl⟩
    · exact .inr rfl
  · exact .inr rfl

/-! ### A field of its type is read, and a read field has its type -/

theorem readInt_isOk (s : State) (fd : Field) :
    (readInt s fd).isOk = (match OpRecord.lookup s.operands fd with | some v => v.hasType s.cfg .int | none => false) := by
  unfold readInt OpVal.hasType
  cases OpRecord.lookup s.operands fd with
  | none => rfl
  | some v => cases v <;> simp <;> try rfl
              split <;> simp_all [Except.isOk, Except.toBool]

theorem readReal_isOk (s : State) (fd : Field) :
    (readReal s fd).isOk = (match OpRecord.lookup s.operands fd with | some v => v.hasType s.cfg .real | none => false) := by
  unfold readReal OpVal.hasType
  cases OpRecord.lookup s.operands fd with
  | none => rfl
  | some v => cases v <;> rfl

theorem readOptInt_isOk (s : State) (fd : Field) :
    (readOptInt s fd).isOk =
      (match OpRecord.lookup s.operands fd with | some v => v.hasType s.cfg .optInt | none => false) := by
  unfold readOptInt OpVal.hasType
  cases OpRecord.lookup s.operands fd with
  | none => rfl
  | some v => cases v <;> simp <;> try rfl
              split <;> simp_all [Except.isOk, Except.toBool]

theorem readOptReal_isOk (s : State) (fd : Field) :
    (readOptReal s fd).isOk =
      (match OpRecord.lookup s.operands fd with | some v => v.hasType s.cfg .optReal | none => false) := by
  unfold readOptReal OpVal.hasType
  cases OpRecord.lookup s.operands fd with
  | none => rfl
  | some v => cases v <;> rfl

theorem readBool_isOk (s : State) (fd : Field) :
    (readBool s fd).isOk = (match OpRecord.lookup s.operands fd with | some v => v.hasType s.cfg .bool | none => false) := by
  unfold readBool OpVal.hasType
  cases OpRecord.lookup s.operands fd with
  | none => rfl
  | some v => cases v <;> rfl

theorem readBits_isOk (s : State) (fd : Field) :
    (readBits s fd).isOk = (match OpRecord.lookup s.operands fd with | some v => v.hasType s.cfg .bits | none => false) := by
  unfold readBits OpVal.hasType
  cases OpRecord.lookup s.operands fd with
  | none => rfl
  | some v => cases v <;> simp <;> try rfl
              split <;> simp_all [Except.isOk, Except.toBool]

theorem readChars_isOk (s : State) (fd : Field) :
    (readChars s fd).isOk = (match OpRecord.lookup s.operands fd with | some v => v.hasType s.cfg .chars | none => false) := by
  unfold readChars OpVal.hasType
  cases OpRecord.lookup s.operands fd with
  | none => rfl
  | some v => cases v <;> simp <;> try rfl
              split <;> simp_all [Except.isOk, Except.toBool]

theorem readChan_isOk (s : State) (fd : Field) :
    (readChan s fd).isOk = (match OpRecord.lookup s.operands fd with | some v => v.hasType s.cfg .chan | none => false) := by
  unfold readChan OpVal.hasType
  cases OpRecord.lookup s.operands fd with
  | none => rfl
  | some v => cases v <;> rfl

theorem readCharsList_isOk (s : State) (fd : Field) :
    (readCharsList s fd).isOk =
      (match OpRecord.lookup s.operands fd with | some v => v.hasType s.cfg .charsList | none => false) := by
  unfold readCharsList OpVal.hasType
  cases OpRecord.lookup s.operands fd with
  | none => rfl
  | some v => cases v <;> simp <;> try rfl
              split <;> simp_all [Except.isOk, Except.toBool]

/-! ### What a read value says -/

theorem readBits_ok {s : State} {fd : Field} {B : Bits} (h : readBits s fd = .ok B) :
    OpRecord.lookup s.operands fd = some (.bits B) ∧ B.length ≤ s.cfg.maxBufBits := by
  unfold readBits at h
  split at h
  · split at h
    · cases h; exact ⟨by assumption, by assumption⟩
    · cases h
  · cases h

theorem readBits_of_lookup {s : State} {fd : Field} {B : Bits} (h : OpRecord.lookup s.operands fd = some (.bits B))
    (hl : B.length ≤ s.cfg.maxBufBits) : readBits s fd = .ok B := by
  simp [readBits, h, hl]

theorem readChars_ok {s : State} {fd : Field} {S : Chars} (h : readChars s fd = .ok S) :
    OpRecord.lookup s.operands fd = some (.chars S) ∧ S.length ≤ s.cfg.maxBufChars := by
  unfold readChars at h
  split at h
  · split at h
    · cases h; exact ⟨by assumption, by assumption⟩
    · cases h
  · cases h

theorem readFragments_of_lookup {s : State} {fd : Field} {L : List Fragment}
    (h : OpRecord.lookup s.operands fd = some (.fragments L))
    (hl : ∀ g ∈ L, g.payload.length ≤ s.cfg.maxBufChars) : readFragments s fd = .ok L := by
  simp only [readFragments, h]
  rw [if_pos]
  simpa using hl

theorem readChan_of_lookup {s : State} {fd : Field} {c : Chan} (h : OpRecord.lookup s.operands fd = some (.chan c)) :
    readChan s fd = .ok c := by
  simp [readChan, h]

/-! ### Reading a whole record -/

/-- `m` reads the operands of `sig`: it succeeds on a record well typed for them, and names one of them otherwise. -/
structure Reads (s : State) (sig : List (Field × OpType)) {α : Type} (m : Except OpError α) : Prop where
  ok    : OpRecord.wellTyped s.cfg sig s.operands = true → ∃ a, m = .ok a
  error : OpRecord.wellTyped s.cfg sig s.operands = false → ∃ fd ∈ sig.map Prod.fst, m = .error (.operand fd)

theorem wellTyped_append (cfg : Config) (a b : List (Field × OpType)) (r : OpRecord) :
    OpRecord.wellTyped cfg (a ++ b) r = (OpRecord.wellTyped cfg a r && OpRecord.wellTyped cfg b r) := List.all_append

theorem Reads.pure (s : State) {α : Type} (a : α) : Reads s [] (pure a) :=
  ⟨fun _ => ⟨a, rfl⟩, fun h => by cases h⟩

theorem Reads.bind {s : State} {sig sig' : List (Field × OpType)} {α β : Type} {m : Except OpError α}
    {k : α → Except OpError β} (hm : Reads s sig m) (hk : ∀ a, Reads s sig' (k a)) :
    Reads s (sig ++ sig') (m >>= k) := by
  constructor
  · intro h
    rw [wellTyped_append, Bool.and_eq_true] at h
    obtain ⟨a, rfl⟩ := hm.ok h.1
    exact (hk a).ok h.2
  · intro h
    rw [List.map_append]
    cases h1 : OpRecord.wellTyped s.cfg sig s.operands with
    | false =>
      obtain ⟨fd, hf, rfl⟩ := hm.error h1
      exact ⟨fd, List.mem_append_left _ hf, rfl⟩
    | true =>
      obtain ⟨a, rfl⟩ := hm.ok h1
      rw [wellTyped_append, h1, Bool.true_and] at h
      obtain ⟨fd, hf, he⟩ := (hk a).error h
      exact ⟨fd, List.mem_append_right _ hf, he⟩

/-- A reader of one operand. -/
theorem Reads.one {s : State} {fd : Field} {ty : OpType} {α : Type} {m : Except OpError α}
    (hc : (∃ v, m = .ok v) ∨ m = .error (.operand fd))
    (ho : m.isOk = (match OpRecord.lookup s.operands fd with | some v => v.hasType s.cfg ty | none => false)) :
    Reads s [(fd, ty)] m := by
  have hw : OpRecord.wellTyped s.cfg [(fd, ty)] s.operands = m.isOk := by
    rw [ho]
    exact Bool.and_true _
  constructor
  · intro h
    rcases hc with hc | rfl
    · exact hc
    · rw [hw] at h; cases h
  · intro h
    rcases hc with ⟨v, rfl⟩ | rfl
    · rw [hw] at h; cases h
    · exact ⟨fd, by simp, rfl⟩

theorem reads_int (s : State) (fd : Field) : Reads s [(fd, .int)] (readInt s fd) :=
  .one (readInt_cases s fd) (readInt_isOk s fd)
theorem reads_real (s : State) (fd : Field) : Reads s [(fd, .real)] (readReal s fd) :=
  .one (readReal_cases s fd) (readReal_isOk s fd)
theorem reads_optInt (s : State) (fd : Field) : Reads s [(fd, .optInt)] (readOptInt s fd) :=
  .one (readOptInt_cases s fd) (readOptInt_isOk s fd)
theorem reads_optReal (s : State) (fd : Field) : Reads s [(fd, .optReal)] (readOptReal s fd) :=
  .one (readOptReal_cases s fd) (readOptReal_isOk s fd)
theorem reads_bool (s : State) (fd : Field) : Reads s [(fd, .bool)] (readBool s fd) :=
  .one (readBool_cases s fd) (readBool_isOk s fd)
theorem reads_bits (s : State) (fd : Field) : Reads s [(fd, .bits)] (readBits s fd) :=
  .one (readBits_cases s fd) (readBits_isOk s fd)
theorem reads_chars (s : State) (fd : Field) : Reads s [(fd, .chars)] (readChars s fd) :=
  .one (readChars_cases s fd) (readChars_isOk s fd)
theorem reads_chan (s : State) (fd : Field) : Reads s [(fd, .chan)] (readChan s fd) :=
  .one (readChan_cases s fd) (readChan_isOk s fd)
theorem reads_charsList (s : State) (fd : Field) : Reads s [(fd, .charsList)] (readCharsList s fd) :=
  .one (readCharsList_cases s fd) (readCharsList_isOk s fd)

theorem reads_dims (s : State) : Reads s dimsFields (readDims s) :=
  (reads_int s _).bind fun _ => (reads_int s _).bind fun _ => (reads_int s _).bind fun _ =>
    (reads_int s _).bind fun _ => .pure s _

theorem reads_posRec (s : State) : Reads s posRecFields (readPosRec s) := by
  unfold readPosRec
  repeat' first
    | exact .pure s _
    | refine (reads_int s _).bind fun _ => ?_
    | refine (reads_bool s _).bind fun _ => ?_
    | refine (reads_optReal s _).bind fun _ => ?_
    | refine (reads_optInt s _).bind fun _ => ?_

theorem reads_baseRec (s : State) : Reads s baseRecFields (readBaseRec s) := by
  unfold readBaseRec
  repeat' first
    | exact .pure s _
    | refine (reads_int s _).bind fun _ => ?_
    | refine (reads_bool s _).bind fun _ => ?_
    | refine (reads_optReal s _).bind fun _ => ?_
    | refine (reads_optInt s _).bind fun _ => ?_

theorem reads_voyRec (s : State) : Reads s voyRecFields (readVoyRec s) := by
  unfold readVoyRec
  repeat' first
    | exact .pure s _
    | refine (reads_int s _).bind fun _ => ?_
    | refine (reads_bool s _).bind fun _ => ?_
    | refine (reads_optReal s _).bind fun _ => ?_
    | refine (reads_optInt s _).bind fun _ => ?_
    | refine (reads_chars s _).bind fun _ => ?_
    | refine (reads_bits s _).bind fun _ => ?_
    | refine (reads_dims s).bind fun _ => ?_

theorem reads_classBCommon (s : State) : Reads s classBCommonFields (readClassBCommon s) := by
  unfold readClassBCommon
  repeat' first
    | exact .pure s _
    | refine (reads_int s _).bind fun _ => ?_
    | refine (reads_bool s _).bind fun _ => ?_
    | refine (reads_optReal s _).bind fun _ => ?_
    | refine (reads_optInt s _).bind fun _ => ?_

theorem reads_classBRec (s : State) : Reads s classBRecFields (readClassBRec s) := by
  unfold readClassBRec
  repeat' first
    | exact .pure s _
    | refine (reads_int s _).bind fun _ => ?_
    | refine (reads_bool s _).bind fun _ => ?_
    | refine (reads_optReal s _).bind fun _ => ?_
    | refine (reads_optInt s _).bind fun _ => ?_
    | refine (reads_chars s _).bind fun _ => ?_
    | refine (reads_bits s _).bind fun _ => ?_
    | refine (reads_dims s).bind fun _ => ?_
    | refine (reads_classBCommon s).bind fun _ => ?_

theorem reads_classBExtRec (s : State) : Reads s classBExtRecFields (readClassBExtRec s) := by
  unfold readClassBExtRec
  repeat' first
    | exact .pure s _
    | refine (reads_int s _).bind fun _ => ?_
    | refine (reads_bool s _).bind fun _ => ?_
    | refine (reads_optReal s _).bind fun _ => ?_
    | refine (reads_optInt s _).bind fun _ => ?_
    | refine (reads_chars s _).bind fun _ => ?_
    | refine (reads_bits s _).bind fun _ => ?_
    | refine (reads_dims s).bind fun _ => ?_
    | refine (reads_classBCommon s).bind fun _ => ?_

theorem reads_atonRec (s : State) : Reads s atonRecFields (readAtonRec s) := by
  unfold readAtonRec
  repeat' first
    | exact .pure s _
    | refine (reads_int s _).bind fun _ => ?_
    | refine (reads_bool s _).bind fun _ => ?_
    | refine (reads_optReal s _).bind fun _ => ?_
    | refine (reads_optInt s _).bind fun _ => ?_
    | refine (reads_chars s _).bind fun _ => ?_
    | refine (reads_bits s _).bind fun _ => ?_
    | refine (reads_dims s).bind fun _ => ?_

theorem reads_partARec (s : State) : Reads s partARecFields (readPartARec s) := by
  unfold readPartARec
  repeat' first
    | exact .pure s _
    | refine (reads_int s _).bind fun _ => ?_
    | refine (reads_bool s _).bind fun _ => ?_
    | refine (reads_optReal s _).bind fun _ => ?_
    | refine (reads_optInt s _).bind fun _ => ?_
    | refine (reads_chars s _).bind fun _ => ?_

theorem reads_partBRec (s : State) : Reads s partBRecFields (readPartBRec s) := by
  unfold readPartBRec
  repeat' first
    | exact .pure s _
    | refine (reads_int s _).bind fun _ => ?_
    | refine (reads_bool s _).bind fun _ => ?_
    | refine (reads_optReal s _).bind fun _ => ?_
    | refine (reads_optInt s _).bind fun _ => ?_
    | refine (reads_chars s _).bind fun _ => ?_
    | refine (reads_bits s _).bind fun _ => ?_
    | refine (reads_dims s).bind fun _ => ?_

/-! ### A read record is the operands of its names (41_messages.md) -/

theorem bind_eq_ok {α β : Type} {m : Except OpError α} {k : α → Except OpError β} {b : β} :
    (m >>= k) = .ok b ↔ ∃ a, m = .ok a ∧ k a = .ok b := by
  cases m with
  | ok a => exact ⟨fun h => ⟨a, rfl, h⟩, fun ⟨_, ha, h⟩ => by cases ha; exact h⟩
  | error e => exact ⟨fun h => (by cases h), fun ⟨_, ha, _⟩ => (by cases ha)⟩

theorem readPosRec_ok_iff {s : State} {r : PosRec} : readPosRec s = .ok r ↔ PosRecOf s r := by
  simp only [readPosRec, bind_eq_ok, pure_ok, Except.ok.injEq]
  constructor
  · rintro ⟨_, h0, _, h1, _, h2, _, h3, _, h4, _, h5, _, h6, _, h7, _, h8, _, h9, _, h10, _, h11, _, h12, _, h13,
      rfl⟩
    exact ⟨h0, h1, h2, h3, h4, h5, h6, h7, h8, h9, h10, h11, h12, h13⟩
  · intro h
    exact ⟨_, h.repeatInd, _, h.mmsi, _, h.navStatus, _, h.rot, _, h.sog, _, h.posAcc, _, h.lon, _, h.lat, _, h.cog,
      _, h.heading, _, h.timestamp, _, h.maneuver, _, h.raim, _, h.radio, rfl⟩

theorem readBaseRec_ok_iff {s : State} {r : BaseRec} : readBaseRec s = .ok r ↔ BaseRecOf s r := by
  simp only [readBaseRec, bind_eq_ok, pure_ok, Except.ok.injEq]
  constructor
  · rintro ⟨_, h0, _, h1, _, h2, _, h3, _, h4, _, h5, _, h6, _, h7, _, h8, _, h9, _, h10, _, h11, _, h12, _, h13,
      rfl⟩
    exact ⟨h0, h1, h2, h3, h4, h5, h6, h7, h8, h9, h10, h11, h12, h13⟩
  · intro h
    exact ⟨_, h.repeatInd, _, h.mmsi, _, h.year, _, h.month, _, h.day, _, h.hour, _, h.minute, _, h.second, _,
      h.posAcc, _, h.lon, _, h.lat, _, h.epfd, _, h.raim, _, h.radio, rfl⟩

theorem readDims_ok_iff {s : State} {r : Dims} : readDims s = .ok r ↔ DimsOf s r := by
  simp only [readDims, bind_eq_ok, pure_ok, Except.ok.injEq]
  constructor
  · rintro ⟨_, h0, _, h1, _, h2, _, h3, rfl⟩
    exact ⟨h0, h1, h2, h3⟩
  · intro h
    exact ⟨_, h.toBow, _, h.toStern, _, h.toPort, _, h.toStarboard, rfl⟩

theorem readVoyRec_ok_iff {s : State} {r : VoyRec} : readVoyRec s = .ok r ↔ VoyRecOf s r := by
  simp only [readVoyRec, bind_eq_ok, pure_ok, Except.ok.injEq, readDims_ok_iff]
  constructor
  · rintro ⟨_, h0, _, h1, _, h2, _, h3, _, h4, _, h5, _, h6, _, h7, _, h8, _, h9, _, h10, _, h11, _, h12, _, h13, _,
      h14, _, h15, rfl⟩
    exact ⟨h0, h1, h2, h3, h4, h5, h6, h7, h8, h9, h10, h11, h12, h13, h14, h15⟩
  · intro h
    exact ⟨_, h.repeatInd, _, h.mmsi, _, h.aisVersion, _, h.imo, _, h.callsign, _, h.name, _, h.shipType, _, h.dims,
      _, h.epfd, _, h.etaMonth, _, h.etaDay, _, h.etaHour, _, h.etaMinute, _, h.draught, _, h.destination, _, h.dte,
      rfl⟩

theorem readClassBCommon_ok_iff {s : State} {r : ClassBCommon} : readClassBCommon s = .ok r ↔ ClassBCommonOf s r := by
  simp only [readClassBCommon, bind_eq_ok, pure_ok, Except.ok.injEq]
  constructor
  · rintro ⟨_, h0, _, h1, _, h2, _, h3, _, h4, _, h5, _, h6, _, h7, _, h8, rfl⟩
    exact ⟨h0, h1, h2, h3, h4, h5, h6, h7, h8⟩
  · intro h
    exact ⟨_, h.repeatInd, _, h.mmsi, _, h.sog, _, h.posAcc, _, h.lon, _, h.lat, _, h.cog, _, h.heading, _,
      h.timestamp, rfl⟩

theorem readClassBRec_ok_iff {s : State} {r : ClassBRec} : readClassBRec s = .ok r ↔ ClassBRecOf s r := by
  simp only [readClassBRec, bind_eq_ok, pure_ok, Except.ok.injEq, readClassBCommon_ok_iff]
  constructor
  · rintro ⟨_, h0, _, h1, _, h2, _, h3, _, h4, _, h5, _, h6, _, h7, _, h8, rfl⟩
    exact ⟨h0, h1, h2, h3, h4, h5, h6, h7, h8⟩
  · intro h
    exact ⟨_, h.common, _, h.csUnit, _, h.display, _, h.dsc, _, h.band, _, h.msg22, _, h.assigned, _, h.raim, _,
      h.radio, rfl⟩

theorem readClassBExtRec_ok_iff {s : State} {r : ClassBExtRec} : readClassBExtRec s = .ok r ↔ ClassBExtRecOf s r := by
  simp only [readClassBExtRec, bind_eq_ok, pure_ok, Except.ok.injEq, readDims_ok_iff, readClassBCommon_ok_iff]
  constructor
  · rintro ⟨_, h0, _, h1, _, h2, _, h3, _, h4, _, h5, _, h6, _, h7, rfl⟩
    exact ⟨h0, h1, h2, h3, h4, h5, h6, h7⟩
  · intro h
    exact ⟨_, h.common, _, h.name, _, h.shipType, _, h.dims, _, h.epfd, _, h.raim, _, h.dte, _, h.assigned, rfl⟩

theorem readAtonRec_ok_iff {s : State} {r : AtonRec} : readAtonRec s = .ok r ↔ AtonRecOf s r := by
  simp only [readAtonRec, bind_eq_ok, pure_ok, Except.ok.injEq, readDims_ok_iff]
  constructor
  · rintro ⟨_, h0, _, h1, _, h2, _, h3, _, h4, _, h5, _, h6, _, h7, _, h8, _, h9, _, h10, _, h11, _, h12, _, h13,
      rfl⟩
    exact ⟨h0, h1, h2, h3, h4, h5, h6, h7, h8, h9, h10, h11, h12, h13⟩
  · intro h
    exact ⟨_, h.repeatInd, _, h.mmsi, _, h.aidType, _, h.name, _, h.posAcc, _, h.lon, _, h.lat, _, h.dims, _,
      h.epfd, _, h.timestamp, _, h.offPosition, _, h.raim, _, h.virtual, _, h.assigned, rfl⟩

theorem readPartARec_ok_iff {s : State} {r : PartARec} : readPartARec s = .ok r ↔ PartARecOf s r := by
  simp only [readPartARec, bind_eq_ok, pure_ok, Except.ok.injEq]
  constructor
  · rintro ⟨_, h0, _, h1, _, h2, rfl⟩
    exact ⟨h0, h1, h2⟩
  · intro h
    exact ⟨_, h.repeatInd, _, h.mmsi, _, h.name, rfl⟩

theorem readPartBRec_ok_iff {s : State} {r : PartBRec} : readPartBRec s = .ok r ↔ PartBRecOf s r := by
  simp only [readPartBRec, bind_eq_ok, pure_ok, Except.ok.injEq, readDims_ok_iff]
  constructor
  · rintro ⟨_, h0, _, h1, _, h2, _, h3, _, h4, _, h5, _, h6, rfl⟩
    exact ⟨h0, h1, h2, h3, h4, h5, h6⟩
  · intro h
    exact ⟨_, h.repeatInd, _, h.mmsi, _, h.shipType, _, h.vendor, _, h.callsign, _, h.dims, _, h.epfd, rfl⟩

end Sys2Proof.Machine
end

