-- ==== Sys2Proof/Laws/Exec.lean ====
section
/-! SUPPORT. Said once: how every operation and every step can end. -/

namespace Sys2Proof.Machine

/-- Every operation but SEQ_WRITE, SPLIT and ENCODE_AIVDM answers without writing the counter (20_memory.md R46). -/
theorem exec_answer {i : Instr} (h : i ≠ .seqWrite ∧ i ≠ .split ∧ i ≠ .encodeAivdm) (s : State) :
    ∃ r, exec i s = answer i r s := by
  cases i <;> first
    | exact ⟨_, by rw [exec]; rfl⟩
    | exact absurd rfl h.1
    | exact absurd rfl h.2.1
    | exact absurd rfl h.2.2

/-- Every operation ends in one of the ways of `Ends`. -/
theorem exec_ends (i : Instr) (s : State) : Ends i s (exec i s) := by
  by_cases h : i ≠ .seqWrite ∧ i ≠ .split ∧ i ≠ .encodeAivdm
  · obtain ⟨r, hr⟩ := exec_answer h s
    rw [hr]
    exact answer_ends i r s
  · cases i
    case seqWrite => exact answerCtr_ends _ _ _
    case split => exact answerCtr_ends _ _ _
    case encodeAivdm => exact answerCtr_ends _ _ _
    all_goals exact absurd ⟨nofun, nofun, nofun⟩ h

/-- No operation is refused. -/
theorem exec_not_refused (i : Instr) (s : State) (r : Refusal) : exec i s ≠ .refused r := by
  intro h
  have := exec_ends i s
  rw [h] at this
  cases this

/-- What an operation that answered a next state can have left. -/
theorem exec_next {i : Instr} {s t : State} (h : exec i s = .next t) :
    (∃ c r, t = (s.setCtr c).answered r) ∨ (∃ st, st ≠ .ok ∧ t = s.failed st) := by
  have := exec_ends i s
  rw [h] at this
  cases this with
  | answered r => exact .inl ⟨s.seqCtr, r, rfl⟩
  | moved c r => exact .inl ⟨c, r, rfl⟩
  | failed st hst => exact .inr ⟨st, hst, rfl⟩

/-- What a rejected command word leaves, when it leaves a next state. -/
theorem rejectCommand_next {w : Word} {e : DecodeError} {s t : State} (h : rejectCommand w e s = .next t) :
    ∃ st, st ≠ .ok ∧ t = s.failed st := by
  cases e with
  | unsupportedMessageType =>
    simp only [rejectCommand, Host.Outcome.next.injEq] at h
    exact ⟨.unsupportedMessageType, by decide, h.symm⟩
  | illegalCommand =>
    cases hc : s.cfg.hostErrors with
    | asFault => simp [rejectCommand, hc] at h
    | asResponse =>
      simp only [rejectCommand, hc, Host.Outcome.next.injEq] at h
      exact ⟨.illegalCommand, by decide, h.symm⟩

/-- What a step that answered a next state did. -/
theorem step_next {s t : State} (h : step s = .next t) :
    (s.input = [] ∧ t = s) ∨
    (∃ cut rest, s.input = .reset cut :: rest ∧ t = s.applyReset rest) ∨
    (∃ x rest i, s.input = .transact x :: rest ∧ decode x.cmd = .ok i ∧ exec i (s.accept x.operands rest) = .next t) ∨
    (∃ x rest st, s.input = .transact x :: rest ∧ st ≠ .ok ∧ t = (s.accept x.operands rest).failed st) := by
  unfold step at h
  split at h
  · exact .inl ⟨by assumption, by simpa using h.symm⟩
  · exact .inr (.inl ⟨_, _, by assumption, by simpa using h.symm⟩)
  · split at h
    · exact .inr (.inr (.inl ⟨_, _, _, by assumption, by assumption, h⟩))
    · obtain ⟨st, hst, ht⟩ := rejectCommand_next h
      exact .inr (.inr (.inr ⟨_, _, st, by assumption, hst, ht⟩))

/-- What the host's presenting one operation does: the operation, on the record presented with it. -/
theorem transact_eq_exec (i : Instr) (o : OpRecord) (s : State) : transact i o s = exec i (s.accept o s.input) := by
  have h : decode (encode i) = .ok i := by cases i <;> rfl
  simp only [transact, step, h]
  rfl

/-! ### Runs -/

theorem run_zero (s : State) : Host.Core.run Sys2Proof.core 0 s = .next s := Host.Core.run.eq_1 Sys2Proof.core s

theorem run_succ {s t : State} (h : step s = .next t) (k : Nat) :
    Host.Core.run Sys2Proof.core (k + 1) s = Host.Core.run Sys2Proof.core k t := by
  have h' : Sys2Proof.core.step s = .next t := h
  exact (Host.Core.run.eq_2 Sys2Proof.core s k).trans (by rw [h'])

end Sys2Proof.Machine
end

