-- ==== Sys2Proof/Laws/Armor.lean ====
section
/-! SUPPORT. The armor: lengths, and what one character stands for. -/

namespace Sys2Proof.Machine

theorem fill_lt (n : Nat) : fill n < 6 := Nat.mod_lt _ (by decide)

theorem padSix_length (B : Bits) : (padSix B).length = 6 * ((B.length + 5) / 6) := by
  rw [padSix, List.length_append, zeros_length, fill]; omega

theorem armor_length (B : Bits) : (armor B).length = (B.length + 5) / 6 := by
  rw [armor, List.length_map, sixGroups_length, padSix_length]; omega

@[simp] theorem dearmorChar_length (c : Char8) : (dearmorChar c).length = 6 := by
  unfold dearmorChar; split <;> simp

theorem dearmorBits_cons (c : Char8) (S : Chars) : dearmorBits (c :: S) = dearmorChar c ++ dearmorBits S := rfl

theorem dearmorBits_append (S T : Chars) : dearmorBits (S ++ T) = dearmorBits S ++ dearmorBits T :=
  List.flatMap_append

@[simp] theorem dearmorBits_length (S : Chars) : (dearmorBits S).length = 6 * S.length := by
  induction S with
  | nil => rfl
  | cons c S ih => rw [dearmorBits_cons, List.length_append, ih, dearmorChar_length, List.length_cons]; omega

theorem alpha_toNat {i : Nat} (h : i < 64) : (alpha i).toNat = 48 + i := by
  rw [alpha, BitVec.toNat_ofNat, Nat.mod_eq_of_lt (by omega)]

/-- A group of six bits is read back from its character (42_armor.md R214). -/
theorem dearmorChar_alpha {g : Bits} (h : g.length = 6) : dearmorChar (alpha (uval g)) = g := by
  have hv := uval_lt g
  rw [h] at hv
  have ha := alpha_toNat (i := uval g) hv
  rw [dearmorChar, if_pos (by omega), ha, Nat.add_sub_cancel_left]
  conv_rhs => rw [← uBits_uval g, h]

/-- The characters of whole groups de-armor to the groups (42_armor.md R215). -/
theorem dearmorBits_groups (k : Nat) (P : Bits) (h : P.length = 6 * k) :
    dearmorBits ((sixGroups k P).map fun g => alpha (uval g)) = P := by
  induction k generalizing P with
  | zero => exact (List.length_eq_zero_iff.mp (by simpa using h)).symm
  | succ k ih =>
    rw [sixGroups, List.map_cons, dearmorBits_cons, dearmorChar_alpha, ih, List.take_append_drop]
    · rw [List.length_drop]; omega
    · rw [List.length_take]; omega

/-- One character of an armored string read back: itself, or '0' for one outside the alphabet (42_armor.md R215). -/
theorem alpha_uval_dearmorChar (c : Char8) :
    alpha (uval (dearmorChar c)) = if 48 ≤ c.toNat ∧ c.toNat ≤ 111 then c else 48 := by
  unfold dearmorChar
  split
  · rename_i h
    apply BitVec.eq_of_toNat_eq
    rw [uval_uBits (by omega), alpha_toNat (by omega)]
    omega
  · rw [uval_zeros]; rfl

/-- Group `i` of the de-armored bits is character `i`'s (42_armor.md R214). -/
theorem dearmorBits_slice (S : Chars) (i : Nat) (h : i < S.length) :
    slice (dearmorBits S) (6 * i) (6 * i + 5) = dearmorChar S[i] := by
  have h6 : 6 * i + 5 + 1 - 6 * i = 6 := by omega
  rw [slice, h6]
  clear h6
  induction S generalizing i with
  | nil => simp at h
  | cons c S ih =>
    rw [dearmorBits_cons]
    cases i with
    | zero => simp
    | succ i =>
      have e : 6 * (i + 1) = (dearmorChar c).length + 6 * i := by simp; omega
      rw [e, List.drop_length_add_append]
      exact ih i (by simpa using h)

end Sys2Proof.Machine
end

