-- ==== Sys2Proof/Laws/Bitfield.lean ====
section
/-! SUPPORT. The bit-field codec: the length and the value of every field. -/

namespace Sys2Proof.Machine

/-! ### Lengths -/

@[simp] theorem encUintField_length (w : Nat) (v : Int) : (encUintField w v).length = w := uBits_length _ _

@[simp] theorem encSintField_length (w : Nat) (v : Int) : (encSintField w v).length = w := sBits_length _ _

theorem textBits_length (t : Chars) : (textBits t).length = 6 * t.length := by
  induction t with
  | nil => rfl
  | cons c t ih =>
    rw [textBits, List.flatMap_cons, List.length_append, uBits_length, List.length_cons]
    rw [textBits] at ih
    omega

@[simp] theorem padText_length (n : Nat) (s : Chars) : (padText n s).length = n := by
  simp [padText]

@[simp] theorem encTextField_length (n : Nat) (s : Chars) : (encTextField n s).length = 6 * n := by
  rw [encTextField, textBits_length, padText_length]

@[simp] theorem encLat_length (tie : RoundTie) (x : Option Rat) : (encLat tie x).length = 27 := by
  unfold encLat; split <;> (try split) <;> simp

@[simp] theorem encLon_length (tie : RoundTie) (x : Option Rat) : (encLon tie x).length = 28 := by
  unfold encLon; split <;> (try split) <;> simp

@[simp] theorem encSog_length (tie : RoundTie) (x : Option Rat) : (encSog tie x).length = 10 := by
  unfold encSog; split <;> (try split) <;> simp

@[simp] theorem encCog_length (tie : RoundTie) (x : Option Rat) : (encCog tie x).length = 12 := by
  unfold encCog; split <;> (try split) <;> simp

@[simp] theorem encHdg_length (x : Option Int) : (encHdg x).length = 9 := by
  unfold encHdg; split <;> (try split) <;> simp

@[simp] theorem encRot_length (tie : RoundTie) (x : Option Rat) : (encRot tie x).length = 8 := by
  unfold encRot; repeat' split
  all_goals simp

@[simp] theorem encTstamp_length (x : Option Int) : (encTstamp x).length = 6 := by
  unfold encTstamp; split <;> simp

@[simp] theorem encDraught_length (tie : RoundTie) (x : Option Rat) : (encDraught tie x).length = 8 := by
  unfold encDraught; split <;> (try split) <;> simp

@[simp] theorem calField_length (x : Option Int) (lo hi : Int) (na w : Nat) : (calField x lo hi na w).length = w := by
  unfold calField; split <;> (try split) <;> simp

@[simp] theorem encEta_length (a b c d : Option Int) : (encEta a b c d).length = 20 := by
  simp [encEta]

/-! ### Values -/

/-- An unsigned field holds any value of its range (00_scope.md R8). -/
theorem uval_uBits_toNat {w : Nat} {v : Int} (h0 : 0 ≤ v) (h1 : v < 2 ^ w) : (uval (uBits w v.toNat) : Int) = v := by
  rw [uval_uBits]
  · exact Int.toNat_of_nonneg h0
  · zify; rw [Int.toNat_of_nonneg h0]; exact h1

/-- `ENC_UINT` writes the clamped value (40_bitfield.md R122). -/
theorem uval_encUintField (w : Nat) (v : Int) : (uval (encUintField w v) : Int) = max 0 (min (2 ^ w - 1) v) := by
  have h1 : (1 : Int) ≤ 2 ^ w := one_le_pow₀ (by norm_num)
  have h2 := clamp_hi (v := v) (lo := 0) (hi := 2 ^ w - 1) (by omega)
  exact uval_uBits_toNat clamp_lo (by omega)

/-- `ENC_SINT` writes the clamped value (40_bitfield.md R123). -/
theorem sval_encSintField {w : Nat} (hw : 1 ≤ w) (v : Int) :
    sval (encSintField w v) = max (-2 ^ (w - 1)) (min (2 ^ (w - 1) - 1) v) := by
  have h1 : (1 : Int) ≤ 2 ^ (w - 1) := one_le_pow₀ (by norm_num)
  have h2 := clamp_hi (v := v) (lo := -2 ^ (w - 1)) (hi := 2 ^ (w - 1) - 1) (by omega)
  exact sval_sBits hw clamp_lo (by omega)

/-- A clamped signed field holds its value when the clamp range is inside the field's (00_scope.md R8). -/
theorem sval_sBits_clamp {w : Nat} (hw : 0 < w) {v lo hi : Int} (hlh : lo ≤ hi) (hlo : -2 ^ (w - 1) ≤ lo)
    (hhi : hi < 2 ^ (w - 1)) : sval (sBits w (clamp v lo hi)) = max lo (min hi v) :=
  sval_sBits hw (le_trans hlo clamp_lo) (lt_of_le_of_lt (clamp_hi hlh) hhi)

/-- A clamped unsigned field holds its value when the clamp range is inside the field's (00_scope.md R8). -/
theorem uval_uBits_clamp {w : Nat} {v hi : Int} (hlh : 0 ≤ hi) (hhi : hi < 2 ^ w) :
    (uval (uBits w (clamp v 0 hi).toNat) : Int) = max 0 (min hi v) :=
  uval_uBits_toNat clamp_lo (lt_of_le_of_lt (clamp_hi hlh) hhi)

theorem widthOk_iff (w : Int) : widthOk w = true ↔ 1 ≤ w ∧ w ≤ 32 := decide_eq_true_iff

theorem fieldLenOk_iff (B : Bits) : fieldLenOk B = true ↔ 1 ≤ B.length ∧ B.length ≤ 32 := by
  rw [fieldLenOk, decide_eq_true_iff, maxFieldW]; omega

theorem sixbit_lt (c : Char8) : sixbit c < 64 := by
  unfold sixbit; split
  · omega
  · split <;> omega

/-- Group `i` of a text's bits is its character `i` (40_bitfield.md R126). -/
theorem textBits_group (t : Chars) (i : Nat) (h : i < t.length) :
    ((textBits t).drop (6 * i)).take 6 = uBits 6 (sixbit t[i]) := by
  induction t generalizing i with
  | nil => simp at h
  | cons c t ih =>
    have hc : textBits (c :: t) = uBits 6 (sixbit c) ++ textBits t := rfl
    rw [hc]
    cases i with
    | zero => simp
    | succ i =>
      have h6 : 6 * (i + 1) = (uBits 6 (sixbit c)).length + 6 * i := by simp; omega
      rw [h6, List.drop_length_add_append, ih i (by simpa using h)]
      rfl

theorem unsixbit_toNat {v : Nat} (h : v < 64) : (unsixbit v).toNat = if v < 32 then v + 64 else v := by
  unfold unsixbit; split <;> rw [BitVec.toNat_ofNat] <;> omega

/-- `CALFIELD` writes a value in range (40_bitfield.md R139). -/
theorem uval_calField_mem {v lo hi : Int} {na w : Nat} (h0 : 0 ≤ lo) (hw : hi < 2 ^ w) (h1 : lo ≤ v) (h2 : v ≤ hi) :
    (uval (calField (some v) lo hi na w) : Int) = v := by
  rw [calField, if_neg (by omega)]
  exact uval_uBits_toNat (by omega) (by omega)

/-- `CALFIELD` writes its not-available value for everything else (40_bitfield.md R139). -/
theorem uval_calField_na {x : Option Int} {lo hi : Int} {na w : Nat} (hn : na < 2 ^ w)
    (h : ¬ ∃ v, x = some v ∧ lo ≤ v ∧ v ≤ hi) : uval (calField x lo hi na w) = na := by
  unfold calField
  split
  · exact uval_uBits hn
  · rename_i v
    rw [if_pos, uval_uBits hn]
    by_contra hc
    exact h ⟨v, rfl, by omega, by omega⟩

end Sys2Proof.Machine
end

