-- ==== Sys2Proof/Laws/Nmea.lean ====
section
/-! SUPPORT. The NMEA framework: lengths, the checksum text, splitting and stripping. -/

namespace Sys2Proof.Machine

theorem checksum_append (S T : Chars) : checksum (S ++ T) = checksum S ^^^ checksum T := by
  have key : ∀ (T : Chars) (x : Char8), T.foldl (fun x c => x ^^^ c) x = x ^^^ checksum T := by
    intro T
    induction T with
    | nil => intro x; simp [checksum]
    | cons c T ih =>
      intro x
      have h0 : checksum (c :: T) = (0 ^^^ c) ^^^ checksum T := ih (0 ^^^ c)
      rw [List.foldl_cons, ih, h0]
      simp [BitVec.xor_assoc]
  rw [checksum, List.foldl_append, key]; rfl

theorem checksum_singleton (c : Char8) : checksum [c] = c := by simp [checksum]

theorem checksum_foldr (S : Chars) : S.foldr (fun c x => c ^^^ x) 0 = checksum S := by
  induction S with
  | nil => rfl
  | cons c S ih => rw [List.foldr_cons, ih, show c :: S = [c] ++ S from rfl, checksum_append, checksum_singleton]

theorem joinFields_length (fields : List Chars) :
    (joinFields fields).length = (fields.map fun g => 1 + g.length).sum := by
  induction fields with
  | nil => rfl
  | cons g fields ih =>
    have : joinFields (g :: fields) = (ord ',' :: g) ++ joinFields fields := rfl
    rw [this, List.length_append, ih, List.map_cons, List.sum_cons, List.length_cons]
    omega

/-- The length of a rendered sentence (44_nmea.md R264). -/
theorem renderSentence_length (talker sid : Chars) (fields : List Chars) :
    (renderSentence talker sid fields).length =
      1 + (talker.length + sid.length) + (fields.map fun g => 1 + g.length).sum + 3 + 2 := by
  simp only [renderSentence, List.length_cons, List.length_append, joinFields_length, hex2_length, crlf_length]
  omega

theorem sentenceId_length {sid : Chars} (h : sid ∈ sentenceIds) : sid.length = 3 := by
  simp only [sentenceIds, List.mem_cons, List.not_mem_nil, or_false] at h
  rcases h with rfl | rfl | rfl <;> decide

/-- Trailing CR and LF are stripped up to the last other character (44_nmea.md R265). -/
theorem stripCrLf_append {T tail : Chars} (htail : ∀ c ∈ tail, c = 13 ∨ c = 10)
    (hT : ∀ c, T.getLast? = some c → c ≠ 13 ∧ c ≠ 10) : stripCrLf (T ++ tail) = T := by
  have hd : ∀ (l r : Chars), (∀ c ∈ l, c = 13 ∨ c = 10) → (l ++ r).dropWhile isCrLf = r.dropWhile isCrLf := by
    intro l r hl
    induction l with
    | nil => rfl
    | cons c l ih =>
      have hc : isCrLf c = true := by
        rcases hl c (by simp) with rfl | rfl <;> decide
      rw [List.cons_append, List.dropWhile_cons, if_pos hc]
      exact ih fun x hx => hl x (by simp [hx])
  rw [stripCrLf, List.reverse_append, hd _ _ (by simpa using htail)]
  have hr : T.reverse.dropWhile isCrLf = T.reverse := by
    cases hrev : T.reverse with
    | nil => rfl
    | cons c r =>
      have hl : T.getLast? = some c := by rw [← List.head?_reverse, hrev]; rfl
      have := hT c hl
      rw [List.dropWhile_cons, if_neg]
      simpa [isCrLf] using this
  rw [hr, List.reverse_reverse]

/-- Where the first `*` stands (44_nmea.md R265). -/
theorem takeWhile_star {body : Chars} (h : ord '*' ∉ body) (r : Chars) :
    (body ++ ord '*' :: r).takeWhile (· != ord '*') = body := by
  induction body with
  | nil => simp
  | cons c body ih =>
    simp only [List.mem_cons, not_or] at h
    rw [List.cons_append, List.takeWhile_cons, if_pos (by simpa using fun e => h.1 e.symm), ih h.2]

theorem dropWhile_star {body : Chars} (h : ord '*' ∉ body) (r : Chars) :
    (body ++ ord '*' :: r).dropWhile (· != ord '*') = ord '*' :: r := by
  induction body with
  | nil => simp
  | cons c body ih =>
    simp only [List.mem_cons, not_or] at h
    rw [List.cons_append, List.dropWhile_cons, if_pos (by simpa using fun e => h.1 e.symm), ih h.2]

theorem dropWhile_noStar {T : Chars} (h : ord '*' ∉ T) : T.dropWhile (· != ord '*') = [] := by
  induction T with
  | nil => rfl
  | cons c T ih =>
    simp only [List.mem_cons, not_or] at h
    rw [List.dropWhile_cons, if_pos (by simpa using fun e => h.1 e.symm), ih h.2]

/-- Splitting a text without commas from what follows its first comma (44_nmea.md R265). -/
theorem splitComma_join {addr : Chars} {fields : List Chars} (ha : ord ',' ∉ addr)
    (hf : ∀ g ∈ fields, ord ',' ∉ g) : splitComma (addr ++ joinFields fields) = (addr, fields) := by
  have hno : ∀ (a : Chars), ord ',' ∉ a → splitComma a = (a, []) := by
    intro a
    induction a with
    | nil => intro _; rfl
    | cons c a ih =>
      intro h
      simp only [List.mem_cons, not_or] at h
      rw [splitComma, if_neg (fun e => h.1 e.symm), ih h.2]
  have hstep : ∀ (a r : Chars), ord ',' ∉ a →
      splitComma (a ++ ord ',' :: r) = (a, (splitComma r).1 :: (splitComma r).2) := by
    intro a r
    induction a with
    | nil => intro _; simp [splitComma]
    | cons c a ih =>
      intro h
      simp only [List.mem_cons, not_or] at h
      rw [List.cons_append, splitComma, if_neg (fun e => h.1 e.symm), ih h.2]
  induction fields generalizing addr with
  | nil => simpa [joinFields] using hno addr ha
  | cons g fields ih =>
    have hj : joinFields (g :: fields) = ord ',' :: (g ++ joinFields fields) := rfl
    rw [hj, hstep _ _ ha, ih (hf g (by simp)) fun x hx => hf x (by simp [hx])]

theorem joinFields_eq (fields : List Chars) : joinFields fields = (fields.map fun g => ord ',' :: g).flatten := rfl

/-- The checksum text is read back (44_nmea.md R261). -/
theorem hexPair_hex2 : ∀ v : Char8, hexPair (hex2 v) = some v := by decide +kernel

/-- The last character of a stripped sentence is that of its checksum text, or the `*`. -/
theorem sentence_getLast {pre : Char8} {body h : Chars} (hh : ∀ c, h.getLast? = some c → c ≠ 13 ∧ c ≠ 10) :
    ∀ c, (pre :: body ++ ord '*' :: h).getLast? = some c → c ≠ 13 ∧ c ≠ 10 := by
  intro c hc
  rw [List.getLast?_append] at hc
  cases h with
  | nil => simp at hc; subst hc; decide
  | cons x h => apply hh; simpa [List.getLast?_cons_cons] using hc

/-! ### Hexadecimal digits (00_scope.md R9, 44_nmea.md R261, R265) -/

theorem hexDigit_eq {n : Nat} (h : n < 16) : hexDigit n = (ascii "0123456789ABCDEF").getD n 0 := by
  have : ∀ n : Fin 16, hexDigit n = (ascii "0123456789ABCDEF").getD n 0 := by decide
  exact this ⟨n, h⟩

/-- `HEX2` written out. -/
theorem hex2_eq (v : Char8) :
    hex2 v =
      [(ascii "0123456789ABCDEF").getD (v.toNat / 16) 0, (ascii "0123456789ABCDEF").getD (v.toNat % 16) 0] := by
  rw [hex2, hexDigit_eq (by have := v.isLt; omega), hexDigit_eq (Nat.mod_lt _ (by decide))]

/-- The digits that PARSE reads, with their values. -/
theorem hexVal_eq_some {c : Char8} {v : Nat} : hexVal c = some v ↔ IsHexDigit c v := by
  constructor
  · intro h
    have all : ∀ n : Fin 256, ∀ v ∈ hexVal (BitVec.ofFin n),
        (ascii "0123456789ABCDEF")[v]? = some (BitVec.ofFin n) ∨
        (ascii "0123456789abcdef")[v]? = some (BitVec.ofFin n) := by decide +kernel
    exact all c.toFin v h
  · rintro (h | h)
    · have all : ∀ n : Fin 16, hexVal ((ascii "0123456789ABCDEF")[n]) = some n.val := by decide
      obtain ⟨hv, rfl⟩ := List.getElem?_eq_some_iff.mp h
      exact all ⟨v, hv⟩
    · have all : ∀ n : Fin 16, hexVal ((ascii "0123456789abcdef")[n]) = some n.val := by decide
      obtain ⟨hv, rfl⟩ := List.getElem?_eq_some_iff.mp h
      exact all ⟨v, hv⟩

theorem hexPair_digits {a b : Char8} {x y : Nat} (ha : IsHexDigit a x) (hb : IsHexDigit b y) :
    hexPair [a, b] = some (BitVec.ofNat 8 (16 * x + y)) := by
  rw [hexPair, hexVal_eq_some.mpr ha, hexVal_eq_some.mpr hb]

/-- A checksum text is read exactly when it is two hexadecimal digits. -/
theorem hexPair_eq_none {h : Chars} (hn : ¬ ∃ a b x y, h = [a, b] ∧ IsHexDigit a x ∧ IsHexDigit b y) :
    hexPair h = none := by
  unfold hexPair
  split
  · rename_i a b
    split
    · rename_i x y hx hy
      exact absurd ⟨a, b, x, y, rfl, hexVal_eq_some.mp hx, hexVal_eq_some.mp hy⟩ hn
    · rfl
  · rfl

theorem IsHexDigit.lt {c : Char8} {v : Nat} (h : IsHexDigit c v) : v < 16 := by
  rcases h with h | h
  · exact (List.getElem?_eq_some_iff.mp h).1
  · exact (List.getElem?_eq_some_iff.mp h).1

end Sys2Proof.Machine
end

