-- ==== Sys2Proof/Laws/Framer.lean ====
section
/-! SUPPORT. The framer: chunks, fragments and their frames. -/

namespace Sys2Proof.Machine

theorem fragmentOk_eq (g : Fragment) : fragmentOk g = g.inRange := rfl

theorem chunk_length (B : Bits) (i : Nat) : (chunk B i).length = min 336 (B.length - 336 * i) := by
  rw [chunk, List.length_take, List.length_drop]; rfl

/-- The chunks of a payload, joined, are the payload (43_framer.md R232). -/
theorem flatMap_chunk (B : Bits) (k : Nat) :
    (List.range k).flatMap (chunk B) = B.take (336 * k) := by
  induction k with
  | zero => simp
  | succ k ih =>
    rw [List.range_succ, List.flatMap_append, ih, List.flatMap_singleton, chunk]
    have : 336 * (k + 1) = 336 * k + 336 := by omega
    rw [this, List.take_add]; rfl

theorem fragCount_eq (n : Nat) : fragCount n = (n + 335) / 336 := rfl

/-- The seqid shown for a legal counter value (43_framer.md R233). -/
theorem seqidOf_eq {c : BitVec 4} (h : c.toNat ≤ 9) :
    seqidOf c = if c.toNat = 0 then [] else [BitVec.ofNat 8 (48 + c.toNat)] := by
  unfold seqidOf
  rw [decimal_digit (by omega)]

theorem nextCtr_le (c : BitVec 4) : (nextCtr c).toNat ≤ 9 := by rw [nextCtr_toNat]; omega

theorem seqidInRange_seqidOf {c : BitVec 4} (h : c.toNat ≤ 9) : seqidInRange (seqidOf c) = true := by
  rw [seqidOf_eq h]
  split
  · rfl
  · simp only [seqidInRange, decide_eq_true_eq, BitVec.toNat_ofNat]; omega

theorem seqidOf_length_le {c : BitVec 4} (h : c.toNat ≤ 9) : (seqidOf c).length ≤ 1 := by
  rw [seqidOf_eq h]; split <;> simp

/-! ### Who writes the counter (20_memory.md R46) -/

theorem answer_ctr {op : Instr} {r : Except OpError Result} {s t : State} (h : answer op r s = .next t) :
    t.seqCtr = s.seqCtr := by
  rcases answer_next h with ⟨v, _, rfl⟩ | ⟨e, st, _, _, rfl⟩ <;> rfl

theorem answerCtr_ctr {op : Instr} {r : Except OpError (BitVec 4 × Result)} {s t : State}
    (h : answerCtr op r s = .next t) : t.seqCtr = s.seqCtr ∨ ∃ v, r = .ok (t.seqCtr, v) := by
  cases r with
  | ok p =>
    obtain ⟨c, v⟩ := p
    rw [answerCtr_ok] at h
    cases h
    exact .inr ⟨v, rfl⟩
  | error e => exact .inl (answer_ctr (r := .error e) h)

theorem splitPayload_ctr {c c' : BitVec 4} {B : Bits} {ch : Chan} {L : List Fragment}
    (h : splitPayload c B ch = .ok (c', L)) : c' = c ∨ (c' = nextCtr c ∧ 336 < B.length) := by
  unfold splitPayload at h
  split at h
  · cases h
  · split at h
    · cases h; exact .inl rfl
    · rename_i hl
      cases h
      exact .inr ⟨rfl, by simpa [fragBits] using hl⟩

/-- When an operation moves the counter, it is one of three, the new value is legal, and a framing operation had a
payload of more than one fragment. -/
theorem exec_ctr {i : Instr} {s t : State} (h : exec i s = .next t) :
    t.seqCtr = s.seqCtr ∨ (t.seqCtr.toNat ≤ 9 ∧ (i = .seqWrite ∨
      ((i = .split ∨ i = .encodeAivdm) ∧ ∃ B, readBits s .B = .ok B ∧ 336 < B.length))) := by
  have framed : ∀ {B : Bits} {ch : Chan} {L : List Fragment} {c : BitVec 4}, splitPayload s.seqCtr B ch = .ok (c, L) →
      c = s.seqCtr ∨ (c.toNat ≤ 9 ∧ 336 < B.length) := fun hs =>
    (splitPayload_ctr hs).imp_right fun ⟨hc, hl⟩ => ⟨by rw [hc]; exact nextCtr_le _, hl⟩
  by_cases hi : i ≠ .seqWrite ∧ i ≠ .split ∧ i ≠ .encodeAivdm
  · obtain ⟨r, hr⟩ := exec_answer hi s
    exact .inl (answer_ctr (hr ▸ h))
  · cases i
    case seqWrite =>
      refine (answerCtr_ctr h).imp_right fun ⟨v, h⟩ => ⟨?_, .inl rfl⟩
      rcases readInt_cases s .ctr with ⟨x, hx⟩ | hx <;> rw [hx] at h
      · rw [ok_bind] at h
        by_cases hr : x < 0 ∨ 9 < x
        · rw [seqWriteValue, if_pos hr] at h; cases h
        · rw [seqWriteValue, if_neg hr] at h
          injection h with h
          rw [← (Prod.mk.inj h).1, BitVec.toNat_ofNat]
          omega
      · cases h
    case split =>
      rcases answerCtr_ctr h with h | ⟨v, h⟩
      · exact .inl h
      · rcases readBits_cases s .B with ⟨B, hB⟩ | hB <;> rw [hB] at h
        · rcases readChan_cases s .chan with ⟨x, hx⟩ | hx <;> rw [hx] at h
          · simp only [ok_bind] at h
            cases hs : splitPayload s.seqCtr B x with
            | error e => rw [hs] at h; cases h
            | ok p =>
              rw [hs] at h
              injection h with h
              rw [← (Prod.mk.inj h).1]
              exact (framed hs).imp_right fun h => ⟨h.1, .inr ⟨.inl rfl, B, hB, h.2⟩⟩
          · cases h
        · cases h
    case encodeAivdm =>
      rcases answerCtr_ctr h with h | ⟨v, h⟩
      · exact .inl h
      · rcases readBits_cases s .B with ⟨B, hB⟩ | hB <;> rw [hB] at h
        · rcases readChan_cases s .chan with ⟨x, hx⟩ | hx <;> rw [hx] at h
          · simp only [ok_bind, encodePayload] at h
            cases hs : splitPayload s.seqCtr B x with
            | error e => rw [hs] at h; cases h
            | ok p =>
              rw [hs] at h
              simp only [ok_bind] at h
              cases hf : frameAll p.2 with
              | error e => rw [hf] at h; cases h
              | ok T =>
                rw [hf] at h
                injection h with h
                rw [← (Prod.mk.inj h).1]
                exact (framed hs).imp_right fun h => ⟨h.1, .inr ⟨.inr rfl, B, hB, h.2⟩⟩
          · cases h
        · cases h
    all_goals exact absurd ⟨nofun, nofun, nofun⟩ hi

/-! ### SPLIT, FRAME_AIVDM and REASSEMBLE, said once -/

theorem splitPayload_one {c : BitVec 4} {B : Bits} {ch : Chan} (h : 1 ≤ B.length ∧ B.length ≤ 336) :
    splitPayload c B ch = .ok (c, [mkFragment 1 1 [] ch B]) := by
  rw [splitPayload, if_neg (by simp only [maxPayloadBits]; omega), if_pos (by simpa [fragBits] using h.2)]

theorem splitPayload_many {c : BitVec 4} {B : Bits} {ch : Chan} (h : 336 < B.length ∧ B.length ≤ 3024) :
    splitPayload c B ch = .ok (nextCtr c, (List.range (fragCount B.length)).map fun i =>
      mkFragment (fragCount B.length) (i + 1) (seqidOf (nextCtr c)) ch (chunk B i)) := by
  rw [splitPayload, if_neg (by simp only [maxPayloadBits]; omega), if_neg (by simp only [fragBits]; omega)]

theorem splitPayload_error {c : BitVec 4} {B : Bits} {ch : Chan} (h : B.length < 1 ∨ 3024 < B.length) :
    splitPayload c B ch = .error (.operand .B) := by
  rw [splitPayload, if_pos (by simpa only [maxPayloadBits] using h)]

theorem mkFragment_inRange {k i : Nat} {q : Chars} {ch : Chan} {C : Bits} (h1 : 1 ≤ i) (h2 : i ≤ k) (h3 : k ≤ 9)
    (hq : seqidInRange q = true) : (mkFragment k i q ch C).inRange = true := by
  have := fill_lt C.length
  rw [Fragment.inRange, Bool.and_eq_true, Bool.and_eq_true, Bool.and_eq_true, decide_eq_true_eq, decide_eq_true_eq,
    decide_eq_true_eq]
  simp only [mkFragment]
  exact ⟨⟨⟨by omega, by omega⟩, hq⟩, by omega⟩

/-- The length of a fragment's sentence (43_framer.md R235). -/
theorem frame_length {g : Fragment} (h : g.inRange = true) :
    (renderSentence (ascii "AI") (ascii "VDM") [decimal g.total.toNat, decimal g.index.toNat, g.seqid,
      chanChars g.chan, g.payload, decimal g.fill.toNat]).length = 21 + (g.seqid.length + g.payload.length) := by
  simp only [Fragment.inRange, Bool.and_eq_true, decide_eq_true_eq] at h
  have hc : (chanChars g.chan).length = 1 := by cases g.chan <;> rfl
  rw [renderSentence_length, decimal_digit (by omega), decimal_digit (by omega), decimal_digit (by omega)]
  have ha : (ascii "AI").length + (ascii "VDM").length = 5 := by decide
  rw [ha]
  simp only [List.map_cons, List.map_nil, List.sum_cons, List.sum_nil, List.length_cons, List.length_nil, hc]
  omega

/-- A fragment in range whose sentence fits is framed (43_framer.md R235). -/
theorem frameAivdm_ok {g : Fragment} (h : g.inRange = true) (hl : g.seqid.length + g.payload.length ≤ 61) :
    ∃ T, frameAivdm g = .ok T ∧ T.length = 21 + (g.seqid.length + g.payload.length) := by
  refine ⟨_, ?_, frame_length h⟩
  rw [frameAivdm, fragmentOk_eq, if_pos h, build, if_neg (by decide), if_neg (by decide), if_neg]
  rw [frame_length h, maxSentence]; omega

/-- Every fragment SPLIT makes is in range and short enough to frame (43_framer.md R239). -/
theorem splitPayload_inRange {c : BitVec 4} {B : Bits} {ch : Chan} (h : 1 ≤ B.length ∧ B.length ≤ 3024) :
    ∃ c' L, splitPayload c B ch = .ok (c', L) ∧
      ∀ g ∈ L, g.inRange = true ∧ g.seqid.length + g.payload.length ≤ 57 := by
  by_cases hs : B.length ≤ 336
  · refine ⟨_, _, splitPayload_one ⟨h.1, hs⟩, fun g hg => ?_⟩
    rw [List.mem_singleton] at hg
    subst hg
    refine ⟨mkFragment_inRange (by decide) (by decide) (by decide) rfl, ?_⟩
    simp only [mkFragment, armor_length, List.length_nil]; omega
  · refine ⟨_, _, splitPayload_many ⟨by omega, h.2⟩, fun g hg => ?_⟩
    simp only [List.mem_map, List.mem_range] at hg
    obtain ⟨i, hi, rfl⟩ := hg
    rw [fragCount_eq] at hi ⊢
    refine ⟨mkFragment_inRange (by omega) (by omega) (by omega) (seqidInRange_seqidOf (nextCtr_le _)), ?_⟩
    have := seqidOf_length_le (nextCtr_le c)
    simp only [mkFragment, armor_length, chunk_length]; omega

theorem reassembleItemOk_iff (k : Nat) (q : Chars) (i : Nat) (f : Fragment) :
    reassembleItemOk k q i f = true ↔
      f.inRange = true ∧ f.total = k ∧ f.index = i + 1 ∧ f.seqid = q ∧ (i + 1 < k → f.fill = 0) := by
  simp only [reassembleItemOk, fragmentOk_eq, Bool.and_eq_true, Bool.or_eq_true, decide_eq_true_eq]
  constructor
  · rintro ⟨⟨⟨a, b⟩, c⟩, d⟩
    exact ⟨a, b.1, b.2, c, fun h => d.resolve_left (by omega)⟩
  · rintro ⟨a, b, c, d, e⟩
    refine ⟨⟨⟨a, b, c⟩, d⟩, ?_⟩
    by_cases h : i + 1 < k
    · exact .inr (e h)
    · exact .inl (by omega)

theorem reassembleAllOk_iff (k : Nat) (q : Chars) (i : Nat) (L : List Fragment) :
    reassembleAllOk k q i L = true ↔ ∀ (j : Nat) (h : j < L.length), reassembleItemOk k q (i + j) L[j] = true := by
  induction L generalizing i with
  | nil => simp [reassembleAllOk]
  | cons f L ih =>
    rw [reassembleAllOk, Bool.and_eq_true, ih]
    constructor
    · rintro ⟨h1, h2⟩ j hj
      cases j with
      | zero => exact h1
      | succ j =>
        have := h2 j (by simpa using hj)
        rw [show i + (j + 1) = i + 1 + j by omega]; exact this
    · intro h
      refine ⟨h 0 (by simp), fun j hj => ?_⟩
      have := h (j + 1) (by simpa using hj)
      rw [show i + 1 + j = i + (j + 1) by omega]; exact this

theorem dearmorAll_length (L : List Fragment) :
    (dearmorAll L).length = 6 * (L.map fun g => g.payload.length).sum := by
  induction L with
  | nil => rfl
  | cons g L ih =>
    rw [dearmorAll] at ih
    rw [dearmorAll, List.flatMap_cons, List.length_append, ih, dearmorBits_length, List.map_cons, List.sum_cons]
    omega

end Sys2Proof.Machine
end

