-- ==== Sys2Proof/Laws/Messages.lean ====
section
/-! SUPPORT. Payloads: the length of every body, and how a field is cut out of a concatenation. -/

namespace Sys2Proof.Machine

/-! ### Cutting a field out -/

/-- A slice inside the second part of a concatenation. -/
theorem slice_append_right (A B : Bits) (lo hi : Nat) (h : A.length ≤ lo) (hh : lo ≤ hi) :
    slice (A ++ B) lo hi = slice B (lo - A.length) (hi - A.length) := by
  unfold slice
  rw [List.drop_append, List.drop_eq_nil_of_le h, List.nil_append]
  congr 1
  omega

/-- A slice inside the first part of a concatenation. -/
theorem slice_append_left (A B : Bits) (lo hi : Nat) (h : hi < A.length) (hh : lo ≤ hi) :
    slice (A ++ B) lo hi = slice A lo hi := by
  unfold slice
  rw [List.drop_append_of_le_length (by omega), List.take_append_of_le_length]
  rw [List.length_drop]; omega

/-- The slice that is the whole of a bit string. -/
theorem slice_whole (A : Bits) (hi : Nat) (h : A.length = hi + 1) : slice A 0 hi = A := by
  unfold slice
  rw [List.drop_zero]
  exact List.take_of_length_le (by omega)

/-! ### Lengths -/

@[simp] theorem msgHeader_length (t : Nat) (r m : Int) : (msgHeader t r m).length = 38 := by simp [msgHeader]

@[simp] theorem dimsBits_length (d : Dims) : (dimsBits d).length = 30 := by simp [dimsBits]

@[simp] theorem posBody_length (tie : RoundTie) (t : Nat) (r : PosRec) : (posBody tie t r).length = 168 := by
  simp [posBody]

@[simp] theorem msg4Bits_length (tie : RoundTie) (r : BaseRec) : (msg4Bits tie r).length = 168 := by simp [msg4Bits]

@[simp] theorem msg5Bits_length (tie : RoundTie) (r : VoyRec) : (msg5Bits tie r).length = 424 := by simp [msg5Bits]

@[simp] theorem cbBody_length (tie : RoundTie) (t : Nat) (r : ClassBCommon) : (cbBody tie t r).length = 139 := by
  simp [cbBody]

@[simp] theorem msg18Bits_length (tie : RoundTie) (r : ClassBRec) : (msg18Bits tie r).length = 168 := by
  simp [msg18Bits]

@[simp] theorem msg19Bits_length (tie : RoundTie) (r : ClassBExtRec) : (msg19Bits tie r).length = 312 := by
  simp [msg19Bits]

theorem nameExt_length (s : Chars) : (nameExt s).length = 6 * (min s.length 34 - 20) := by
  rw [nameExt, textBits_length, List.length_drop, List.length_take, Nat.min_comm]

theorem bytePad_length (B : Bits) : (bytePad B).length = 8 * ((B.length + 7) / 8) := by
  rw [bytePad, List.length_append, zeros_length]; omega

@[simp] theorem msg24aBits_length (r : PartARec) : (msg24aBits r).length = 168 := by simp [msg24aBits]

theorem msg24bBits_length (r : PartBRec) (h : r.vendor.length = 42) : (msg24bBits r).length = 168 := by
  simp [msg24bBits, h]

/-- Padding an exact text again changes nothing (41_messages.md R184). -/
theorem padText_padText (n : Nat) (s : Chars) : padText n (padText n s) = padText n s := by
  have h : (padText n s).length = n := padText_length n s
  conv_lhs => rw [padText]
  rw [List.take_left' h]

/-- Character `20 + m` of a name, in the extension after 272 bits (41_messages.md R184, R185). -/
theorem nameExt_slice (F Z : Bits) (name : Chars) (hl : F.length = 272) (m : Nat) (h : m < min name.length 34 - 20) :
    slice (F ++ (nameExt name ++ Z)) (272 + 6 * m) (272 + 6 * m + 5) = uBits 6 (sixbit (name.getD (20 + m) 0)) := by
  have hx := nameExt_length name
  have e1 : ∀ a : Nat, 272 + a - 272 = a := fun a => by omega
  have e2 : ∀ a : Nat, 272 + a + 5 - 272 = a + 5 := fun a => by omega
  have e3 : ∀ a : Nat, a + 5 + 1 - a = 6 := fun a => by omega
  have q1 : F.length ≤ 272 + 6 * m := by rw [hl]; omega
  have q3 : 6 * m + 5 < (nameExt name).length := by rw [hx]; omega
  rw [slice_append_right _ _ _ _ q1 (Nat.le_add_right _ _), hl, e1, e2,
    slice_append_left _ _ _ _ q3 (Nat.le_add_right _ _)]
  have hll : m < ((name.take 34).drop 20).length := by
    rw [List.length_drop, List.length_take]; omega
  rw [slice, nameExt, e3, textBits_group _ m hll, List.getElem_drop, List.getElem_take,
    List.getD_eq_getElem _ _ (by omega)]

end Sys2Proof.Machine
end

