-- ==== Sys2Proof/Laws/PerInstr.lean ====
section
/-! SUPPORT. The family Encoding, one lemma per operation: its word is the FAM, FN, SUB and RSV of 30_encoding.md R62. -/

namespace Sys2Proof.Laws.Encoding

open Sys2Proof

/-- The fields of the operation's word are those of its row, with RSV zero (30_encoding.md R60, R62). -/
def Statement (i : Instr) : Prop :=
  (cmdFam (encode i), cmdFn (encode i), cmdSub (encode i)) = i.code ∧ cmdRsv (encode i) = 0

theorem seqRead : Statement .seqRead := ⟨by decide, by decide⟩
theorem seqWrite : Statement .seqWrite := ⟨by decide, by decide⟩
theorem encUint : Statement .encUint := ⟨by decide, by decide⟩
theorem encSint : Statement .encSint := ⟨by decide, by decide⟩
theorem encScaled : Statement .encScaled := ⟨by decide, by decide⟩
theorem encText : Statement .encText := ⟨by decide, by decide⟩
theorem decUint : Statement .decUint := ⟨by decide, by decide⟩
theorem decSint : Statement .decSint := ⟨by decide, by decide⟩
theorem decText : Statement .decText := ⟨by decide, by decide⟩
theorem encLat : Statement .encLat := ⟨by decide, by decide⟩
theorem encLon : Statement .encLon := ⟨by decide, by decide⟩
theorem encSog : Statement .encSog := ⟨by decide, by decide⟩
theorem encCog : Statement .encCog := ⟨by decide, by decide⟩
theorem encHdg : Statement .encHdg := ⟨by decide, by decide⟩
theorem encRot : Statement .encRot := ⟨by decide, by decide⟩
theorem encTstamp : Statement .encTstamp := ⟨by decide, by decide⟩
theorem encDraught : Statement .encDraught := ⟨by decide, by decide⟩
theorem encEta : Statement .encEta := ⟨by decide, by decide⟩
theorem decLat : Statement .decLat := ⟨by decide, by decide⟩
theorem decLon : Statement .decLon := ⟨by decide, by decide⟩
theorem msg1 : Statement .msg1 := ⟨by decide, by decide⟩
theorem msg2 : Statement .msg2 := ⟨by decide, by decide⟩
theorem msg3 : Statement .msg3 := ⟨by decide, by decide⟩
theorem msg4 : Statement .msg4 := ⟨by decide, by decide⟩
theorem msg5 : Statement .msg5 := ⟨by decide, by decide⟩
theorem msg18 : Statement .msg18 := ⟨by decide, by decide⟩
theorem msg19 : Statement .msg19 := ⟨by decide, by decide⟩
theorem msg21 : Statement .msg21 := ⟨by decide, by decide⟩
theorem msg24a : Statement .msg24a := ⟨by decide, by decide⟩
theorem msg24b : Statement .msg24b := ⟨by decide, by decide⟩
theorem armor : Statement .armor := ⟨by decide, by decide⟩
theorem dearmor : Statement .dearmor := ⟨by decide, by decide⟩
theorem fillbits : Statement .fillbits := ⟨by decide, by decide⟩
theorem split : Statement .split := ⟨by decide, by decide⟩
theorem frameAivdm : Statement .frameAivdm := ⟨by decide, by decide⟩
theorem encodeAivdm : Statement .encodeAivdm := ⟨by decide, by decide⟩
theorem reassemble : Statement .reassemble := ⟨by decide, by decide⟩
theorem checksum : Statement .checksum := ⟨by decide, by decide⟩
theorem build : Statement .build := ⟨by decide, by decide⟩
theorem parse : Statement .parse := ⟨by decide, by decide⟩

end Sys2Proof.Laws.Encoding
end

