-- ==== Sys2Proof/Tests/Slice0.lean ====
section
/-! SUPPORT. The model's own tests. Every expected result is a row of spec/95_test_vectors.md (cited by section or
vector) or of the rule named, never the model's own answer. The `witness_` theorems show that the hypotheses of the
statements of Certificates/Slice0/Obligations.lean are met, each clause at a boundary of its range. -/

namespace Sys2Proof.Tests

-- One proof at a time: many kernel evaluations at once need more memory than a check has.
set_option Elab.async false

open Sys2Proof Sys2Proof.Machine

/-! ### Helpers -/

/-- A state just after reset with an operand record on the operand channel. -/
def st (r : OpRecord) : State := { State.reset with operands := r }

/-- The same under the other tie rule. -/
def stAway (r : OpRecord) : State := { State.init { Config.default with roundTie := .halfAway } with operands := r }

/-- The response of one operation. -/
def resp (i : Instr) (s : State) : Option Response :=
  match exec i s with
  | .next t => t.response
  | _ => none

/-- The fault of one operation. -/
def faultOf (i : Instr) (r : OpRecord) : Option Fault :=
  match exec i (st r) with
  | .fault f => some f
  | _ => none

def okBits (B : Bits) : Option Response := some ⟨.ok, some (.bits B)⟩

def okInt (v : Int) : Option Response := some ⟨.ok, some (.int v)⟩

def okChars (S : String) : Option Response := some ⟨.ok, some (.chars (ascii S))⟩

def failedWith (e : Status) : Option Response := some ⟨e, none⟩

/-- A bit string written out. -/
def bs (s : String) : Bits := s.toList.map (· == '1')

/-- A bit string written in hexadecimal, four bits a digit. -/
def hex (s : String) : Bits := s.toList.flatMap fun c => uBits 4 ((hexVal (ord c)).getD 0)

def n (q : Rat) : OpVal := .num q

def txt (s : String) : OpVal := .chars (ascii s)

def one (i : Instr) (fd : Field) (v : OpVal) : Option Response := resp i (st [(fd, v)])

def frag (total index : Int) (q : String) (ch : Chan) (payload : String) (fill : Int) : Fragment :=
  ⟨total, index, ascii q, ch, ascii payload, fill⟩

def xs (k : Nat) : Chars := List.replicate k 88

/-! ### Command words, bit by bit: FAM (4), FN (6), SUB (2), RSV (4) (30_encoding.md R60, R62) -/

theorem test_decode_control :
    decode 0b0000000001000000 = .ok .seqRead ∧ decode 0b0000000010000000 = .ok .seqWrite := by decide

theorem test_decode_bitfield :
    decode 0b0001000000000000 = .ok .encUint ∧ decode 0b0001000001000000 = .ok .encSint ∧
    decode 0b0001000010000000 = .ok .encScaled ∧ decode 0b0001000011000000 = .ok .encText ∧
    decode 0b0001000100000000 = .ok .decUint ∧ decode 0b0001000101000000 = .ok .decSint ∧
    decode 0b0001000110000000 = .ok .decText := by decide

theorem test_decode_fields :
    decode 0b0001001000000000 = .ok .encLat ∧ decode 0b0001001001000000 = .ok .encLon ∧
    decode 0b0001001010000000 = .ok .encSog ∧ decode 0b0001001011000000 = .ok .encCog ∧
    decode 0b0001001100000000 = .ok .encHdg ∧ decode 0b0001001101000000 = .ok .encRot ∧
    decode 0b0001001110000000 = .ok .encTstamp ∧ decode 0b0001001111000000 = .ok .encDraught ∧
    decode 0b0001010000000000 = .ok .encEta ∧ decode 0b0001010100000000 = .ok .decLat ∧
    decode 0b0001010101000000 = .ok .decLon := by decide

theorem test_decode_messages :
    decode 0b0010000001000000 = .ok .msg1 ∧ decode 0b0010000010000000 = .ok .msg2 ∧
    decode 0b0010000011000000 = .ok .msg3 ∧ decode 0b0010000100000000 = .ok .msg4 ∧
    decode 0b0010000101000000 = .ok .msg5 ∧ decode 0b0010010010000000 = .ok .msg18 ∧
    decode 0b0010010011000000 = .ok .msg19 ∧ decode 0b0010010101000000 = .ok .msg21 ∧
    decode 0b0010011000000000 = .ok .msg24a ∧ decode 0b0010011000010000 = .ok .msg24b := by decide

theorem test_decode_armor_framer_nmea :
    decode 0b0011000000000000 = .ok .armor ∧ decode 0b0011000001000000 = .ok .dearmor ∧
    decode 0b0011000010000000 = .ok .fillbits ∧ decode 0b0100000000000000 = .ok .split ∧
    decode 0b0100000001000000 = .ok .frameAivdm ∧ decode 0b0100000010000000 = .ok .encodeAivdm ∧
    decode 0b0100000011000000 = .ok .reassemble ∧ decode 0b0101000000000000 = .ok .checksum ∧
    decode 0b0101000001000000 = .ok .build ∧ decode 0b0101000010000000 = .ok .parse := by decide

/-- 95_test_vectors.md 2.4, unsupported types, and 30_encoding.md R63. -/
theorem test_decode_rejects :
    decode 0x2180 = .error .unsupportedMessageType ∧ decode 0x2000 = .error .unsupportedMessageType ∧
    decode 0x2620 = .error .unsupportedMessageType ∧ decode 0x2FC0 = .error .unsupportedMessageType ∧
    decode 0x2048 = .error .illegalCommand ∧ decode 0x0000 = .error .illegalCommand ∧
    decode 0x0001 = .error .illegalCommand ∧ decode 0x1050 = .error .illegalCommand ∧
    decode 0x11C0 = .error .illegalCommand ∧ decode 0xF000 = .error .illegalCommand := by decide

theorem test_decodeTableWord : decodeTableWord 16 0x2610 = some .msg24b ∧ decodeTableWord 16 0x0001 = none := by decide

/-! ### WellFormed: an ill-typed record for each check -/

def okFor (i : Instr) (r : OpRecord) : Bool := OpRecord.wellTyped Config.default i.signature r

theorem test_wellTyped_missing : okFor .encUint [(.w, n 6)] = false := by decide +kernel
theorem test_wellTyped_int :
    okFor .fillbits [(.n, n (1 / 2))] = false ∧ okFor .fillbits [(.n, .absent)] = false := by decide +kernel
theorem test_wellTyped_real : okFor .encScaled [(.w, n 8), (.signed, .bool true), (.scale, txt "4"), (.x, n 1)] = false := by
  decide +kernel
theorem test_wellTyped_optInt : okFor .encHdg [(.hdg, n (1 / 2))] = false := by decide +kernel
theorem test_wellTyped_optReal : okFor .encLat [(.lat, .bool true)] = false := by decide +kernel
theorem test_wellTyped_bool : okFor .encScaled [(.w, n 8), (.signed, n 1), (.scale, n 4), (.x, n 1)] = false := by
  decide +kernel
theorem test_wellTyped_bits :
    okFor .armor [(.B, txt "1")] = false ∧ okFor .armor [(.B, .bits (zeros 3025))] = false := by decide +kernel
theorem test_wellTyped_chars :
    okFor .parse [(.S, .bits [])] = false ∧ okFor .parse [(.S, .chars (xs 505))] = false := by decide +kernel
theorem test_wellTyped_chan : okFor .split [(.B, .bits [true]), (.chan, txt "A")] = false := by decide +kernel
theorem test_wellTyped_illTyped : okFor .frameAivdm [(.f, .illTyped)] = false := by decide +kernel

/-- 43_framer.md R230: each field of a fragment out of its range, and a payload out of its bound. -/
theorem test_wellTyped_fragment :
    [frag 0 0 "" .a "" 0, frag 10 1 "" .a "" 0, frag 2 3 "1" .a "P" 5, frag 2 0 "1" .a "P" 5, frag 1 1 "0" .a "P" 5,
      frag 1 1 "12" .a "P" 5, frag 1 1 "" .a "P" 6, frag 1 1 "" .a "P" (-1), ⟨1, 1, [], .a, xs 505, 0⟩].all
      (fun g => okFor .frameAivdm [(.f, .fragment g)] == false && okFor .reassemble [(.L, .fragments [g])] == false)
    = true := by decide +kernel

theorem test_wellTyped_charsList :
    okFor .build [(.talker, txt "GP"), (.sid, txt "GGA"), (.fields, .charsList [xs 505])] = false := by decide +kernel

/-! ### Control (95_test_vectors.md 2.1) -/

theorem test_seqRead : resp .seqRead { State.reset with seqCtr := 4 } = okInt 4 := by decide +kernel

theorem test_seqWrite :
    (match exec .seqWrite (st [(.ctr, n 9)]) with | .next t => (t.seqCtr.toNat, t.response) | _ => (0, none))
      = (9, some ⟨.ok, some .unit⟩) ∧
    faultOf .seqWrite [(.ctr, n 10)] = some (.operandError .seqWrite .ctr) := by decide +kernel

/-! ### Generic encoders and decoders (95_test_vectors.md 2.2) -/

theorem test_encUint :
    resp .encUint (st [(.w, n 6), (.v, n 64)]) = okBits (bs "111111") ∧
    resp .encUint (st [(.w, n 30), (.v, n 227006760)]) = okBits (bs "001101100001111101100100101000") := by decide +kernel

theorem test_encSint :
    resp .encSint (st [(.w, n 8), (.v, n (-200))]) = okBits (bs "10000000") ∧
    resp .encSint (st [(.w, n 8), (.v, n 200)]) = okBits (bs "01111111") := by decide +kernel

def scaled (w : Rat) (sg : Bool) (k x : Rat) : OpRecord := [(.w, n w), (.signed, .bool sg), (.scale, n k), (.x, n x)]

theorem test_encScaled_even :
    resp .encScaled (st (scaled 8 true 4 (-3.25))) = okBits (bs "11110011") ∧
    resp .encScaled (st (scaled 8 true 1 (-2.5))) = okBits (bs "11111110") := by decide +kernel

theorem test_encScaled_away :
    resp .encScaled (stAway (scaled 8 false 1 2.5)) = okBits (bs "00000011") ∧
    resp .encScaled (stAway (scaled 8 true 1 (-2.5))) = okBits (bs "11111101") := by decide +kernel

theorem test_encText :
    resp .encText (st [(.n, n 3), (.s, txt "AB")]) = okBits (bs "000001000010100000") ∧
    resp .encText (st [(.n, n 3), (.s, txt "@_?")]) = okBits (bs "000000011111111111") ∧
    resp .encText (st [(.n, n 2), (.s, txt "abc")]) = okBits (bs "000000000000") := by decide +kernel

theorem test_decUint : one .decUint .B (.bits (bs "111111")) = okInt 63 := by decide +kernel

theorem test_decSint :
    one .decSint .B (.bits (bs "100000")) = okInt (-32) ∧ one .decSint .B (.bits (bs "1")) = okInt (-1) := by
  decide +kernel

theorem test_decText :
    one .decText .B (.bits (bs "000001000010100000")) = okChars "AB " ∧
    faultOf .decText [(.B, .bits (zeros 5))] = some (.operandError .decText .B) := by decide +kernel

/-! ### Field encoders and decoders (95_test_vectors.md 2.3) -/

theorem test_encLat :
    one .encLat .lat (n (-37.7749)) = okBits (bs "110101001100010100100010100") ∧
    one .encLat .lat (n 91) = okBits (bs "011010000010010000101000000") ∧
    one .encLat .lat (n 200) = okBits (bs "011111111111111111111111111") := by decide +kernel

theorem test_encLon :
    one .encLon .lon (n (-122.4194)) = okBits (bs "1011100111110011011110001000") ∧
    one .encLon .lon .absent = okBits (bs "0110011110010001101011000000") ∧
    one .encLon .lon (n (-300)) = okBits (bs "1000000000000000000000000000") := by decide +kernel

theorem test_encSog :
    one .encSog .sog (n 102.29) = okBits (uBits 10 1022) ∧ one .encSog .sog (n 102.3) = okBits (uBits 10 1023) ∧
    one .encSog .sog (n 0.25) = okBits (uBits 10 2) := by decide +kernel

theorem test_encCog :
    one .encCog .cog (n 359.96) = okBits (uBits 12 3599) ∧ one .encCog .cog (n 360) = okBits (uBits 12 3600) ∧
    one .encCog .cog (n (-5)) = okBits (uBits 12 0) := by decide +kernel

theorem test_encHdg :
    one .encHdg .hdg (n 510) = okBits (uBits 9 359) ∧ one .encHdg .hdg (n 511) = okBits (uBits 9 511) := by decide +kernel

theorem test_encRot_sentinel :
    one .encRot .rot .absent = okBits (hex "80") ∧ one .encRot .rot (n 128) = okBits (hex "80") ∧
    one .encRot .rot (n (-128)) = okBits (hex "CA") := by decide +kernel

theorem test_encRot_root :
    one .encRot .rot (n (-2.5)) = okBits (hex "F9") ∧ one .encRot .rot (n 714) = okBits (hex "7E") ∧
    one .encRot .rot (n (-1000)) = okBits (hex "81") := by decide +kernel

theorem test_encTstamp :
    one .encTstamp .t .absent = okBits (uBits 6 60) ∧ one .encTstamp .t (n 61) = okBits (uBits 6 61) ∧
    one .encTstamp .t (n 70) = okBits (uBits 6 63) := by decide +kernel

theorem test_encDraught :
    one .encDraught .d (n 25.49) = okBits (uBits 8 255) ∧ one .encDraught .d (n 25.5) = okBits (uBits 8 0) := by
  decide +kernel

def eta (a b c d : OpVal) : OpRecord := [(.month, a), (.day, b), (.hour, c), (.minute, d)]

theorem test_encEta :
    resp .encEta (st (eta (n 12) (n 25) (n 14) (n 30))) = okBits (bs "11001100101110011110") ∧
    resp .encEta (st (eta (n 13) (n 32) (n 24) (n 60))) = okBits (bs "00000000011000111100") ∧
    resp .encEta (st (eta (n 0) (n 0) (n (-1)) (n (-1)))) = okBits (bs "00000000011000111100") := by decide +kernel

theorem test_decLat :
    one .decLat .B (.bits (bs "001010110011101011011101100")) = some ⟨.ok, some (.latVal (.deg 37.7749))⟩ ∧
    one .decLat .B (.bits (bs "011010000010010000101000000")) = some ⟨.ok, some (.latVal .na)⟩ := by decide +kernel

theorem test_decLon :
    one .decLon .B (.bits (bs "1011100111110011011110001000")) = some ⟨.ok, some (.latVal (.deg (-122.4194)))⟩ ∧
    one .decLon .B (.bits (bs "0110011110010001101011000000")) = some ⟨.ok, some (.latVal .na)⟩ := by decide +kernel

/-! ### Messages (95_test_vectors.md 2.4: V1 to V12) -/

def recV1 : OpRecord :=
  [(.repeatInd, n 0), (.mmsi, n 227006760), (.navStatus, n 0), (.rot, .absent), (.sog, n 12.3), (.posAcc, .bool false),
   (.lon, n (-122.4194)), (.lat, n 37.7749), (.cog, n 89), (.heading, n 90), (.timestamp, .absent), (.maneuver, n 0),
   (.raim, .bool false), (.radio, n 0)]

def recV2 : OpRecord :=
  [(.repeatInd, n 0), (.mmsi, n 366053209), (.navStatus, n 5), (.rot, n 0), (.sog, n 0), (.posAcc, .bool true),
   (.lon, n (-122.3421)), (.lat, n 37.8081), (.cog, n 0), (.heading, n 270), (.timestamp, n 30), (.maneuver, n 0),
   (.raim, .bool true), (.radio, n 0)]

def recV3 : OpRecord :=
  [(.repeatInd, n 3), (.mmsi, n 123456789), (.navStatus, n 15), (.rot, n (-2.5)), (.sog, .absent),
   (.posAcc, .bool false), (.lon, .absent), (.lat, .absent), (.cog, .absent), (.heading, .absent),
   (.timestamp, .absent), (.maneuver, n 2), (.raim, .bool false), (.radio, n 524287)]

def recV4 : OpRecord :=
  [(.repeatInd, n 0), (.mmsi, n 3669987), (.year, n 2026), (.month, n 11), (.day, n 11), (.hour, n 12),
   (.minute, n 30), (.second, n 45), (.posAcc, .bool true), (.lon, n (-122.4194)), (.lat, n 37.7749), (.epfd, n 7),
   (.raim, .bool false), (.radio, n 0)]

def recV5 : OpRecord :=
  [(.repeatInd, n 0), (.mmsi, n 227006760), (.aisVersion, n 0), (.imo, n 9123456), (.callsign, txt "FRA1234"),
   (.name, txt "TEST VESSEL"), (.shipType, n 70), (.toBow, n 100), (.toStern, n 20), (.toPort, n 10),
   (.toStarboard, n 10), (.epfd, n 1), (.etaMonth, n 12), (.etaDay, n 25), (.etaHour, n 14), (.etaMinute, n 30),
   (.draught, n 6.5), (.destination, txt "MARSEILLE"), (.dte, .bool false)]

def recV6 : OpRecord :=
  [(.repeatInd, n 0), (.mmsi, n 338123456), (.sog, n 15.2), (.posAcc, .bool true), (.lon, n (-70.9876)),
   (.lat, n 42.3456), (.cog, n 123.4), (.heading, n 125), (.timestamp, n 15), (.csUnit, .bool true),
   (.display, .bool false), (.dsc, .bool true), (.band, .bool true), (.msg22, .bool true), (.assigned, .bool false),
   (.raim, .bool false), (.radio, n 917510)]

def recV7 : OpRecord :=
  recV6 ++ [(.name, txt "SAILOR ONE"), (.shipType, n 37), (.toBow, n 8), (.toStern, n 4), (.toPort, n 2),
   (.toStarboard, n 2), (.epfd, n 1), (.dte, .bool false)]

def recV8 (name : String) : OpRecord :=
  [(.repeatInd, n 0), (.mmsi, n 993672001), (.aidType, n 1), (.name, txt name), (.posAcc, .bool true),
   (.lon, n (-122.465)), (.lat, n 37.8107), (.toBow, n 0), (.toStern, n 0), (.toPort, n 0), (.toStarboard, n 0),
   (.epfd, n 7), (.timestamp, .absent), (.offPosition, .bool false), (.raim, .bool false), (.virtual, .bool false),
   (.assigned, .bool false)]

def recV11 : OpRecord := [(.repeatInd, n 0), (.mmsi, n 338123456), (.name, txt "SAILOR ONE")]

def recV12 (k : Nat) : OpRecord :=
  [(.repeatInd, n 0), (.mmsi, n 338123456), (.shipType, n 37), (.vendor, .bits (zeros k)), (.callsign, txt "WDA1234"),
   (.toBow, n 8), (.toStern, n 4), (.toPort, n 2), (.toStarboard, n 2), (.epfd, n 1)]

theorem test_msg1_V1 : resp .msg1 (st recV1) = okBits (hex "04361F64A02007B5CF9BC4159D6EC37A2D78000000") := by
  decide +kernel
theorem test_msg1_V2 : resp .msg1 (st recV2) = okBits (hex "0457461D6540000DCFF65A15A24BC000873C080000") := by
  decide +kernel
theorem test_msg2_V1 : resp .msg2 (st recV1) = okBits (hex "08361F64A02007B5CF9BC4159D6EC37A2D78000000") := by
  decide +kernel
theorem test_msg3_V3 : resp .msg3 (st recV3) = okBits (hex "0F1D6F3457FE7FF33C8D603412140E10FFF907FFFF") := by
  decide +kernel
theorem test_msg4_V4 : resp .msg4 (st recV4) = okBits (hex "1000DFFF8C7EAB5B1EB773E6F105675BB1C0000000") := by
  decide +kernel
theorem test_msg5_V5 :
    resp .msg5 (st recV5) = okBits (hex ("14361F64A0022CDA006481C72CF45054D48161534C53208208208208204632050A2873" ++
      "2E7904D0524C524C30582082082082082080")) := by decide +kernel
theorem test_msg18_V6 : resp .msg18 (st recV6) = okBits (hex "48509D6B000098EBB0B68183AF804D23E9E5CE0006") := by
  decide +kernel
theorem test_msg19_V7 :
    resp .msg19 (st recV7) = okBits (hex ("4C509D6B000098EBB0B68183AF804D23E9E09824987A501E70B041041041041040" ++
      "4A0802041080")) := by decide +kernel
theorem test_msg21_V8 :
    resp .msg21 (st (recV8 "SF BAY BUOY 7")) = okBits (hex ("54ECE8ED04298D0040B3004A9ECC1BC1041041041B9ECCA82B455A" ++
      "800000003F8000")) := by decide +kernel
theorem test_msg21_V10 :
    resp .msg21 (st (recV8 "GOLDEN GATE BRIDGE SOUTH TOWER EXTRA")) =
      okBits (hex ("54ECE8ED04239E60829D00E0A82C012448838B027B9ECCA82B455A800000003F80003D55088143D71528" ++
        "056140")) := by decide +kernel
theorem test_msg24a_V11 : resp .msg24a (st recV11) = okBits (hex "60509D6B004C124C3D280F38582082082082082000") := by
  decide +kernel
theorem test_msg24b_V12 :
    resp .msg24b (st (recV12 42)) = okBits (hex "60509D6B0125000000000017101C72CF4040102084") ∧
    faultOf .msg24b (recV12 41) = some (.operandError .msg24b .vendor) := by decide +kernel

/-! ### Armor (95_test_vectors.md 2.5) -/

theorem test_armor :
    one .armor .B (.bits (bs "000001000010000011")) = okChars "123" ∧
    one .armor .B (.bits (bs "1111111111110")) = okChars "oo0" := by decide +kernel

theorem test_dearmor :
    one .dearmor .S (txt "W") = okBits (bs "100111") ∧ one .dearmor .S (txt "w") = okBits (bs "000000") := by
  decide +kernel

theorem test_fillbits : one .fillbits .n (n 424) = okInt 2 ∧ one .fillbits .n (n 336) = okInt 0 := by decide +kernel

/-! ### Framer (95_test_vectors.md 2.6) -/

/-- 337 zero bits on channel A: two fragments with seqid 1, and the counter at 1. -/
theorem test_split :
    (match exec .split (st [(.B, .bits (zeros 337)), (.chan, .chan .a)]) with
      | .next t => (t.seqCtr.toNat, t.response)
      | _ => (0, none)) =
    (1, some ⟨.ok, some (.fragments [⟨2, 1, ascii "1", .a, List.replicate 56 48, 0⟩, frag 2 2 "1" .a "0" 5])⟩) := by
  decide +kernel

/-- V1's fixture and an index above the total. -/
theorem test_frameAivdm :
    one .frameAivdm .f (.fragment (frag 1 1 "" .a "13HOI:0P1kG?Vl@EWFk3NReh0000" 0)) =
      some ⟨.ok, some (.sentence (ascii "!AIVDM,1,1,,A,13HOI:0P1kG?Vl@EWFk3NReh0000,0*75" ++ crlf))⟩ ∧
    faultOf .frameAivdm [(.f, .fragment (frag 2 3 "1" .a "P" 5))] = some (.operandError .frameAivdm .f) := by
  decide +kernel

/-- The counter wrap: 337 one bits on channel B from counter 9. -/
theorem test_encodeAivdm :
    (match exec .encodeAivdm
        { st [(.B, .bits (List.replicate 337 true)), (.chan, .chan .b)] with seqCtr := 9 } with
      | .next t => (t.seqCtr.toNat, t.response)
      | _ => (1, none)) =
    (0, some ⟨.ok, some (.sentences
      [ascii "!AIVDM,2,1,,B,oooooooooooooooooooooooooooooooooooooooooooooooooooooooo,0*26" ++ crlf,
       ascii "!AIVDM,2,2,,B,P,5*70" ++ crlf])⟩) := by decide +kernel

theorem test_reassemble :
    one .reassemble .L (.fragments [frag 1 1 "" .a "P" 5]) = okBits (bs "1") ∧
    faultOf .reassemble [(.L, .fragments [frag 2 1 "1" .a "0" 3, frag 2 2 "1" .a "0" 0])] =
      some (.operandError .reassemble .L) := by decide +kernel

theorem test_reassemble_seqids :
    faultOf .reassemble [(.L, .fragments [frag 2 1 "1" .a "0" 0, frag 2 2 "2" .b "0" 0])] =
      some (.operandError .reassemble .L) ∧
    one .reassemble .L (.fragments [frag 1 1 "" .a "" 0]) = okBits [] := by decide +kernel

/-! ### NMEA (95_test_vectors.md 2.7) -/

theorem test_checksum :
    one .checksum .S (txt "AIVDM,1,1,,A,13HOI:0P1kG?Vl@EWFk3NReh0000,0") = okInt 0x75 ∧
    one .checksum .S (txt "") = okInt 0 := by decide +kernel

def buildRec (talker sid : String) (fields : List Chars) : OpRecord :=
  [(.talker, txt talker), (.sid, txt sid), (.fields, .charsList fields)]

theorem test_build :
    resp .build (st (buildRec "GP" "RMC" (["123519", "A", "4807.038", "N", "01131.000", "E", "022.4", "084.4", "230394",
      "003.1", "W"].map ascii))) =
      some ⟨.ok, some (.sentence (ascii "$GPRMC,123519,A,4807.038,N,01131.000,E,022.4,084.4,230394,003.1,W*6A" ++ crlf))⟩ ∧
    resp .build (st (buildRec "GP" "GGA" [xs 71])) = failedWith .malformedSentence := by decide +kernel

theorem test_build_order :
    resp .build (st (buildRec "GP" "XYZ" [ascii "1"])) = failedWith .unsupportedSentenceType ∧
    faultOf .build (buildRec "GPS" "XYZ" []) = some (.operandError .build .talker) := by decide +kernel

/-- The default talker of the reset configuration is GP (log entry 1). -/
theorem test_parse :
    one .parse .S (.chars (ascii "!ZZVDM,1,1,,A,13HOI:0P1kG?Vl@EWFk3NReh0000,0*7D" ++ crlf)) =
      some ⟨.ok, some (.parsed ⟨ascii "GP", ascii "VDM",
        ["1", "1", "", "A", "13HOI:0P1kG?Vl@EWFk3NReh0000", "0"].map ascii, 0x7D⟩)⟩ ∧
    one .parse .S (txt "!AIVDM,1,1,,A,,0*26") =
      some ⟨.ok, some (.parsed ⟨ascii "AI", ascii "VDM", ["1", "1", "", "A", "", "0"].map ascii, 0x26⟩)⟩ := by
  decide +kernel

theorem test_parse_order :
    one .parse .S (txt "!AIXYZ,1*4E") = failedWith .unsupportedSentenceType ∧
    one .parse .S (txt "!AIXYZ,1*00") = failedWith .checksumMismatch ∧
    one .parse .S (txt "!AIVD,1*07") = failedWith .malformedSentence ∧
    one .parse .S (txt "$gpgga*56") = failedWith .checksumMismatch := by decide +kernel

/-! ### Steps and pseudo-operations -/

def present (ts : List HostEvent) : State := { State.reset with input := ts }

/-- 95_test_vectors.md P6: an unsupported type is a response, an illegal word a fault. -/
theorem test_step_rejects :
    (match step (present [.transact ⟨0x2180, []⟩]) with | .next t => t.response | _ => none) =
      failedWith .unsupportedMessageType ∧
    (match step (present [.transact ⟨0x0001, []⟩]) with | .fault f => some f | _ => none) =
      some (.illegalCommand 1) := by decide +kernel

/-- 95_test_vectors.md P5: the type-24 pair from counter 3. -/
theorem test_static24 :
    (match runPseudo (.static24 recV11 (recV12 42) .a) { State.reset with seqCtr := 3 } with
      | .next h => (h.block.seqCtr.toNat, h.emitted)
      | _ => (0, [])) =
    (3, [⟨.ok, some (.sentences [ascii "!AIVDM,1,1,,A,H52MJ`1<4T`m:0lhF22222222200,0*14" ++ crlf])⟩,
      ⟨.ok, some (.sentences [ascii "!AIVDM,1,1,,A,H52MJ`4U0000000G41abcd104224,0*18" ++ crlf])⟩]) := by
  decide +kernel

/-- `withFetchWord` presents the word with a record the operation completes on. -/
theorem test_withFetchWord :
    (match step (State.reset.withFetchWord 16 0x5080) with | .next t => t.response.map (·.status) | _ => none) = some .ok ∧
    (match step (State.reset.withFetchWord 16 0x0001) with | .fault f => some f | _ => none) =
      some (.illegalCommand 1) := by decide +kernel

/-! ### Witnesses: the hypotheses of the statements are met -/

/-- Ties: 5/2 is halfway between two integers, 1/4 and 9/4 are halfway between two squares of halves (00_scope.md R11,
R12). -/
theorem witness_RoundIsNearestWithTieRule :
    |(5 / 2 : Rat) - (roundQ .halfEven (5 / 2) : Rat)| = 1 / 2 ∧ roundQ .halfEven (5 / 2) = 2 ∧
    |(-5 / 2 : Rat) - (roundQ .halfAway (-5 / 2) : Rat)| = 1 / 2 ∧ roundQ .halfAway (-5 / 2) = -3 := by decide +kernel

theorem witness_RsqrtIsNearestRootWithTieRule :
    (0 : Rat) ≤ 1 / 4 ∧ rsqrt .halfEven (1 / 4) = 0 ∧ rsqrt .halfAway (1 / 4) = 1 ∧
    0 < rsqrt .halfEven (9 / 4) ∧ (9 / 4 : Rat) = ((rsqrt .halfEven (9 / 4) : Rat) - 1 / 2) ^ 2 := by decide +kernel

theorem witness_FieldBitsAndValuesAreInverse :
    0 < 2 ^ 0 ∧ 31 < 2 ^ 5 ∧ (1 ≤ 1 ∧ (-2 ^ (1 - 1) : Int) ≤ -1 ∧ (0 : Int) ≤ 2 ^ (1 - 1) - 1) := by decide

theorem witness_RejectedWordsAreSortedByFamily :
    [0x2180, 0x2048, 0x0000, 0xF000].all (fun w : Word =>
      [Instr.seqRead, .msg1, .msg24b, .parse].all fun i => encode i != w && decode w != .ok i) = true ∧
    (0x2180#16).toNat / 4096 = 2 ∧ (0x2180#16).toNat % 16 = 0 ∧ (0x2048#16).toNat % 16 ≠ 0 := by decide

/-- No operation is encoded as these words: the first is an unsupported message type, the second an illegal command. -/
theorem witness_RejectedWords : (∀ i : Instr, encode i ≠ 0x2180) ∧ (∀ i : Instr, encode i ≠ 0x0001) := by
  constructor <;> intro i <;> cases i <;> decide

theorem witness_StepPerformsThePresentedOperation :
    (present [.transact ⟨0x1000, []⟩]).input = .transact ⟨0x1000, []⟩ :: [] ∧ decode 0x1000 = .ok .encUint := by decide

theorem witness_StepRejectsOtherWords :
    (present [.transact ⟨0x2180, []⟩]).input = .transact ⟨0x2180, []⟩ :: [] ∧
    decode 0x2180 = .error .unsupportedMessageType ∧ decode 0x0001 = .error .illegalCommand ∧
    (present []).cfg.hostErrors = .asFault := by decide

def asResponse : Config := { Config.default with hostErrors := .asResponse }

theorem witness_StepRejects_asResponse : (State.init asResponse).cfg.hostErrors = .asResponse := by decide

theorem witness_ResetAndIdleSteps :
    (present [.reset (some ⟨0x1000, []⟩)]).input = .reset (some ⟨0x1000, []⟩) :: [] ∧ State.reset.input = [] := by decide

/-- A step out of a state that meets the invariant (R22, R24): the idle one, and one that answers. -/
theorem witness_StepKeepsInvariant :
    State.reset.Inv ∧ step State.reset = .next State.reset :=
  ⟨⟨by unfold State.ctrLegal; decide, rfl, fun _ h => by cases h⟩, rfl⟩

theorem witness_StepKeepsConfigurationAndOrder :
    step (present [.reset none]) = .next (State.reset.applyReset []) := rfl

/-- Two states that differ in what stands on their channels only. -/
theorem witness_StepDependsOnlyOnCounterAndInput :
    let s := present [.reset none]
    let t := { s with operands := recV1, response := okInt 4 }
    s.cfg = t.cfg ∧ s.seqCtr = t.seqCtr ∧ s.input = t.input ∧ s.input ≠ [] ∧ s ≠ t := by decide +kernel

/-- The counter after one operation from counter 0. -/
def counterAfter (i : Instr) (r : OpRecord) : Option Nat :=
  match exec i (st r) with
  | .next t => some t.seqCtr.toNat
  | _ => none

/-- SEQ_WRITE moves the counter; SPLIT moves it only above 336 bits. -/
theorem witness_OnlyThreeOperationsWriteTheCounter :
    counterAfter .seqWrite [(.ctr, n 9)] = some 9 ∧
    counterAfter .split [(.B, .bits (zeros 337)), (.chan, .chan .a)] = some 1 ∧
    counterAfter .split [(.B, .bits (zeros 336)), (.chan, .chan .a)] = some 0 := by decide +kernel

theorem witness_ErrorsLeaveTheStateUnchanged :
    one .parse .S (txt "") = some ⟨.malformedSentence, none⟩ ∧
    resp .fillbits { State.init asResponse with operands := [(.n, n (-1))] } = some ⟨.operandError, none⟩ := by
  decide +kernel

/-- An empty record is ill typed for every operation that has an operand. -/
theorem witness_IllTypedRecordsRaiseOperandError (i : Instr) (h : i ≠ .seqRead) :
    OpRecord.wellTyped Config.default i.signature [] = false := by
  cases i <;> first | rfl | exact absurd rfl h

theorem witness_EncodingNeverRejectsAValue :
    ∀ i ∈ [Instr.encLat, .encLon, .encSog, .encCog, .encHdg, .encRot, .encTstamp, .encDraught, .encEta, .msg1, .msg2,
      .msg3, .msg4, .msg5, .msg18, .msg19, .msg21, .msg24a, .msg24b],
      OpRecord.wellTyped Config.default i.signature (sampleOperands i) = true ∧
      (i = .msg24b → OpRecord.lookup (sampleOperands i) .vendor = some (.bits (zeros 42))) := by decide +kernel

/-- In range at both ends, and out of it on both sides. -/
theorem witness_SeqWriteSetsTheCounterInRange :
    ∀ c ∈ [0, 9, -1, 10], readInt (st [(.ctr, n (c : Int))]) .ctr = .ok c := by decide +kernel

/-- For ENC_UINT, ENC_SINT and ENC_SCALED: widths in range at both ends, and out of it on both sides. -/
theorem witness_widths :
    ∀ w ∈ [1, 32, 0, 33], readInt (st (scaled (w : Int) true 4 1)) .w = .ok w ∧
      readBool (st (scaled (w : Int) true 4 1)) .signed = .ok true ∧
      readBool (st (scaled (w : Int) false 4 1)) .signed = .ok false ∧
      readReal (st (scaled (w : Int) true 4 1)) .scale = .ok 4 ∧ readReal (st (scaled (w : Int) true 4 1)) .x = .ok 1 ∧
      readInt (st [(.w, n (w : Int)), (.v, n (-3))]) .w = .ok w ∧
      readInt (st [(.w, n (w : Int)), (.v, n (-3))]) .v = .ok (-3) := by decide +kernel

/-- Counts in range at both ends (the reset buffer has 3024 bits), and out of it on both sides. -/
theorem witness_EncTextPadsTruncatesAndMaps :
    ∀ k ∈ [1, 504, 0, 505], readInt (st [(.n, n (k : Int)), (.s, txt "AB")]) .n = .ok k ∧
      readChars (st [(.n, n (k : Int)), (.s, txt "AB")]) .s = .ok (ascii "AB") := by decide +kernel

/-- Bit strings at the ends of every range a statement names: DEC_UINT and DEC_SINT (1, 32; 0, 33), DEC_TEXT (6; 5),
DEC_LAT (27; 26, 28), DEC_LON (28; 27), ARMOR (0), SPLIT and ENCODE_AIVDM (1, 336, 337, 3024; 0). -/
theorem witness_bitStrings :
    ∀ k ∈ [0, 1, 5, 6, 26, 27, 28, 32, 33, 336, 337, 3024],
      readBits (st [(.B, .bits (zeros k)), (.chan, .chan .b)]) .B = .ok (zeros k) ∧
      readChan (st [(.B, .bits (zeros k)), (.chan, .chan .b)]) .chan = .ok .b := by decide +kernel

/-- ARMOR: operands at the bound of the reset configuration and one past it. -/
theorem witness_ArmorMapsEverySixBits :
    ∀ k ∈ [3024, 3025], OpRecord.lookup (st [(.B, .bits (zeros k))]).operands .B = some (.bits (zeros k)) := by
  decide +kernel

/-- A configuration whose buffers hold more than the largest payload, so that 3025 bits and 505 characters are read. -/
def big : Config where
  roundTie := .halfAway
  defaultTalker := .ai
  maxBufBits := 3026
  maxBufChars := 600
  hostErrors := .asResponse
  maxBufBits_ge := by decide
  maxBufChars_ge := by decide
  armorFits := by decide

theorem witness_bitStrings_tooLong :
    readBits { State.init big with operands := [(.B, .bits (zeros 3025))] } .B = .ok (zeros 3025) := by decide +kernel

/-- DEARMOR within its bit bound (504 characters of 3024 bits) and beyond it (505 of 3026). -/
theorem witness_DearmorMapsEveryCharacter :
    readChars (st [(.S, .chars (xs 504))]) .S = .ok (xs 504) ∧ 6 * 504 ≤ Config.default.maxBufBits ∧
    readChars { State.init big with operands := [(.S, .chars (xs 505))] } .S = .ok (xs 505) ∧
    big.maxBufBits < 6 * 505 := by decide +kernel

theorem witness_FillbitsCountsThePadding :
    ∀ k ∈ [0, -1], readInt (st [(.n, n (k : Int))]) .n = .ok k := by decide +kernel

/-- Optional operands: absent, the markers, and values at the limits of each branch. -/
theorem witness_optionalReals :
    (∀ fd ∈ [Field.lat, .lon, .sog, .cog, .rot, .d], readOptReal (st [(fd, .absent)]) fd = .ok none) ∧
    (∀ p ∈ [(Field.lat, (91 : Rat)), (.lat, 200), (.lon, 181), (.lon, -300), (.sog, 102.3), (.sog, 102.29), (.cog, 360),
      (.cog, -5), (.rot, 128), (.rot, 0), (.rot, 1), (.rot, -1), (.d, 25.5), (.d, 25.49)],
      readOptReal (st [(p.1, n p.2)]) p.1 = .ok (some p.2)) := by decide +kernel

theorem witness_optionalInts :
    (∀ fd ∈ [Field.hdg, .t], readOptInt (st [(fd, .absent)]) fd = .ok none) ∧
    (∀ p ∈ [(Field.hdg, (511 : Int)), (.hdg, 510), (.t, 70), (.t, -1)],
      readOptInt (st [(p.1, n (p.2 : Int))]) p.1 = .ok (some p.2)) := by decide +kernel

/-- ENC_ETA: every field at a limit of its range, then every field just out of it, then every field absent. -/
theorem witness_EncEtaSubstitutesOutOfRangeFields :
    readOptInt (st (eta (n 1) (n 31) (n 0) (n 59))) .day = .ok (some 31) ∧
    readOptInt (st (eta (n 1) (n 31) (n 0) (n 59))) .month = .ok (some 1) ∧
    readOptInt (st (eta (n 1) (n 31) (n 0) (n 59))) .hour = .ok (some 0) ∧
    readOptInt (st (eta (n 1) (n 31) (n 0) (n 59))) .minute = .ok (some 59) ∧
    readOptInt (st (eta (n 0) (n 32) (n 24) (n 60))) .month = .ok (some 0) ∧
    readOptInt (st (eta (n 0) (n 32) (n 24) (n 60))) .day = .ok (some 32) ∧
    readOptInt (st (eta (n 0) (n 32) (n 24) (n 60))) .hour = .ok (some 24) ∧
    readOptInt (st (eta .absent .absent .absent .absent)) .minute = .ok none := by decide +kernel

theorem witness_IntegerAndTextFieldsRoundTrip :
    ((1 : Int) ≤ 32 ∧ (32 : Int) ≤ 32 ∧ (0 : Int) ≤ 2 ^ 32 - 1 ∧ (-2 ^ (32 - 1) : Int) ≤ 2 ^ (32 - 1) - 1) ∧
    ∀ c ∈ ascii " _", 32 ≤ c.toNat ∧ c.toNat ≤ 95 := by decide

theorem witness_LatLonRoundTrip :
    (90 : Rat) ≠ 91 ∧ roundQ .halfEven (90 * 600000) ≠ 54600000 ∧
    (180 : Rat) ≠ 181 ∧ roundQ .halfEven (180 * 600000) ≠ 108600000 := by decide +kernel

theorem exists_of_isOk {α : Type} {m : Except OpError α} (h : m.isOk = true) : ∃ a, m = .ok a := by
  cases m with
  | ok a => exact ⟨a, rfl⟩
  | error e => cases h

/-- Every record of 41_messages.md is read: V1, V4, V5, V6, V7, V8 and V11. -/
theorem witness_layouts :
    (∃ r, PosRecOf (st recV1) r) ∧ (∃ r, BaseRecOf (st recV4) r) ∧ (∃ r, VoyRecOf (st recV5) r) ∧
    (∃ r, ClassBRecOf (st recV6) r) ∧ (∃ r, ClassBExtRecOf (st recV7) r) ∧
    (∃ r, AtonRecOf (st (recV8 "SF BAY BUOY 7")) r) ∧ (∃ r, PartARecOf (st recV11) r) :=
  ⟨(exists_of_isOk (by decide +kernel)).imp fun _ => readPosRec_ok_iff.mp,
    (exists_of_isOk (by decide +kernel)).imp fun _ => readBaseRec_ok_iff.mp,
    (exists_of_isOk (by decide +kernel)).imp fun _ => readVoyRec_ok_iff.mp,
    (exists_of_isOk (by decide +kernel)).imp fun _ => readClassBRec_ok_iff.mp,
    (exists_of_isOk (by decide +kernel)).imp fun _ => readClassBExtRec_ok_iff.mp,
    (exists_of_isOk (by decide +kernel)).imp fun _ => readAtonRec_ok_iff.mp,
    (exists_of_isOk (by decide +kernel)).imp fun _ => readPartARec_ok_iff.mp⟩

/-- The record that `recV12 k` is. -/
def partB (k : Nat) : PartBRec := ⟨0, 338123456, 37, zeros k, ascii "WDA1234", ⟨8, 4, 2, 2⟩, 1⟩

/-- MSG24B with a vendor of 42 bits and of 41; and a name of 36 characters, whose extension MSG21 cuts at 34. -/
theorem witness_StaticDataReportLayout :
    (PartBRecOf (st (recV12 42)) (partB 42) ∧ (partB 42).vendor.length = 42) ∧
    (PartBRecOf (st (recV12 41)) (partB 41) ∧ (partB 41).vendor.length ≠ 42) ∧
    (readAtonRec (st (recV8 "GOLDEN GATE BRIDGE SOUTH TOWER EXTRA"))).map (·.name.length) = .ok 36 :=
  ⟨⟨readPartBRec_ok_iff.mp (by decide +kernel), rfl⟩, ⟨readPartBRec_ok_iff.mp (by decide +kernel), by decide⟩,
    by decide +kernel⟩

/-- The two records of P5 are paired. -/
theorem witness_StaticPairIsTwoSingleSentences :
    PartARecOf (State.reset.accept recV11 []) ⟨0, 338123456, ascii "SAILOR ONE"⟩ ∧
    PartBRecOf (State.reset.accept (recV12 42) []) (partB 42) ∧ (partB 42).vendor.length = 42 ∧
    Static24Paired recV11 (recV12 42) :=
  ⟨readPartARec_ok_iff.mp (by decide +kernel), readPartBRec_ok_iff.mp (by decide +kernel), rfl, by decide, by decide⟩

/-- A fragment in range at the length limit, one past it, and one out of range. -/
theorem witness_FrameAivdmIsCharacterExact :
    ∀ g ∈ [frag 9 9 "9" .b (String.ofList (List.replicate 60 'o')) 5, ⟨1, 1, [], .a, xs 62, 0⟩, frag 2 3 "1" .a "P" 5],
      readFragment (st [(.f, .fragment g)]) .f = .ok g ∧
      (g.inRange, decide (g.seqid.length + g.payload.length ≤ 61)) ∈ [(true, true), (true, false), (false, true)] := by
  decide +kernel

def pair (fill : Int) : List Fragment := [frag 2 1 "1" .a "0" fill, frag 2 2 "1" .b "P" 5]

theorem witness_ReassembleChecksThenJoins :
    readFragments (st [(.L, .fragments (pair 0))]) .L = .ok (pair 0) ∧ Reassemblable 3024 (pair 0) := by
  refine ⟨by decide +kernel, frag 2 1 "1" .a "0" 0, frag 2 2 "1" .b "P" 5, rfl, rfl, by decide, ?_, by decide, by decide⟩
  intro i h
  match i, h with
  | 0, _ => exact ⟨rfl, rfl, rfl, rfl, fun _ => rfl⟩
  | 1, _ => exact ⟨rfl, rfl, rfl, rfl, fun h => absurd h (by decide)⟩

theorem witness_Reassemble_refused :
    readFragments (st [(.L, .fragments [])]) .L = .ok [] ∧ ¬ Reassemblable 3024 [] := by
  refine ⟨by decide +kernel, ?_⟩
  rintro ⟨first, last, h, _⟩
  cases h

theorem witness_ReassembleInvertsSplit :
    OpRecord.lookup [(Field.L, OpVal.fragments (pair 0))] .L = some (.fragments (pair 0)) := by decide +kernel

/-- One presented SPLIT of 337 bits from counter 9. -/
theorem witness_CounterCountsMultiFragmentMessages :
    let t : Transaction := ⟨0x4000, [(.B, .bits (zeros 337)), (.chan, .chan .a)]⟩
    let s := { present [.transact t] with seqCtr := 9 }
    OpRecord.lookup t.operands .B = some (.bits (zeros 337)) ∧ OpRecord.lookup t.operands .chan = some (.chan .a) ∧
    s.input = [t].map .transact ∧ s.seqCtr.toNat ≤ 9 := by decide +kernel

/-- CHECKSUM: operands at the bound of the reset configuration and one past it. -/
theorem witness_ChecksumIsTheXorOfTheCharacters :
    ∀ k ∈ [504, 505], OpRecord.lookup (st [(.S, .chars (xs k))]).operands .S = some (.chars (xs k)) := by decide +kernel

/-- BUILD: a talker of 3 characters, an unknown sentence ID, a sentence of 83 characters and one of 82. -/
theorem witness_BuildChecksThenRenders :
    ∀ p ∈ [("GPS", "GGA", [xs 1]), ("GP", "XYZ", [xs 1]), ("GP", "GGA", [xs 71]), ("GP", "GGA", [xs 70])],
      readChars (st (buildRec p.1 p.2.1 p.2.2)) .talker = .ok (ascii p.1) ∧
      readChars (st (buildRec p.1 p.2.1 p.2.2)) .sid = .ok (ascii p.2.1) ∧
      readCharsList (st (buildRec p.1 p.2.1 p.2.2)) .fields = .ok p.2.2 := by decide +kernel

/-- PARSE: the hypotheses on the parts of a sentence, met for its body, its checksum text and its tail. -/
theorem witness_ParseChecksInOrder :
    (∀ S ∈ [ascii "!" ++ ascii "AIVDM,1" ++ ascii "*" ++ ascii "5E" ++ crlf],
      readChars (st [(.S, .chars S)]) .S = .ok S ∧
      S = ord '!' :: ascii "AIVDM,1" ++ ord '*' :: ascii "5E" ++ crlf) ∧
    ord '*' ∉ ascii "AIVDM,1" ∧ (∀ c ∈ crlf, c = 13 ∨ c = 10) ∧
    ascii "AIVDM,1" = ascii "AIVDM" ++ ([ascii "1"].map fun g => ord ',' :: g).flatten ∧
    ord ',' ∉ ascii "AIVDM" ∧ (∀ g ∈ [ascii "1"], ord ',' ∉ g) ∧
    (ascii "AIVDM").drop 2 ∈ [ascii "VDM", ascii "GGA", ascii "RMC"] ∧
    (ascii "AIXYZ").drop 2 ∉ [ascii "VDM", ascii "GGA", ascii "RMC"] ∧ (ascii "AIVD").length ≠ 5 := by decide +kernel

/-- The checksum texts: the right one, a wrong one, and none, none of them ending in CR or LF (95_test_vectors.md 2.7). -/
theorem witness_ParseChecksums :
    (ascii "56" = [ord '5', ord '6'] ∧ IsHexDigit (ord '5') 5 ∧ IsHexDigit (ord '6') 6 ∧
      16 * 5 + 6 = ((ascii "GPGGA").foldr (fun c z => c ^^^ z) 0).toNat) ∧
    (IsHexDigit (ord '0') 0 ∧ 16 * 0 + 0 ≠ ((ascii "GPGGA").foldr (fun c z => c ^^^ z) 0).toNat) ∧
    (IsHexDigit (ord 'F') 15 ∧ IsHexDigit (ord 'f') 15) ∧
    (∀ h ∈ [ascii "7g", ascii "5", ascii "056", []],
      ¬ ∃ a b x y, h = [a, b] ∧ IsHexDigit a x ∧ IsHexDigit b y) ∧
    [ascii "56", ascii "00", ascii "7g", ascii "5", ascii "056", []].all
      (fun h => h.getLast? != some 13 && h.getLast? != some 10) = true ∧
    (82 < (xs 76).length + 3 + 4 ∧ (xs 76).length + 2 + 4 ≤ 82) := by
  refine ⟨⟨rfl, .inl rfl, .inl rfl, by decide⟩, ⟨.inl rfl, by decide⟩, ⟨.inl rfl, .inr rfl⟩, ?_, by decide, by decide⟩
  rintro h hh ⟨a, b, x, y, rfl, ha, hb⟩
  have hp := hexPair_digits ha hb
  have hn : ∀ h ∈ [ascii "7g", ascii "5", ascii "056", []], hexPair h = none := by decide
  rw [hn _ hh] at hp
  cases hp

/-- PARSE of a text that is too long, that has no prefix, and that has no star. -/
theorem witness_ParseRefusesUnframedText :
    ∀ T ∈ [xs 81, ascii "AIVDM,1*5E", ascii "!AIVDM,1"],
      readChars (st [(.S, .chars (T ++ crlf))]) .S = .ok (T ++ crlf) ∧
      (T.getLast?.all fun c => c != 13 && c != 10) = true ∧
      (82 < T.length + 2 ∨ (T.head? ≠ some (ord '$') ∧ T.head? ≠ some (ord '!')) ∨ ord '*' ∉ T) := by decide +kernel

/-- A known talker and one that PARSE replaces. -/
theorem witness_ParseInvertsBuild :
    (build (ascii "AI") (ascii "VDM") [ascii "1", []]).isOk = true ∧
    (build (ascii "ZZ") (ascii "GGA") []).isOk = true ∧
    ord ',' ∉ ascii "AI" ∧ ord '*' ∉ ascii "AI" ∧ (∀ g ∈ [ascii "1", []], ord ',' ∉ g ∧ ord '*' ∉ g) := by decide +kernel

end Sys2Proof.Tests
end

/-! SUPPORT. Numbers and fields (00_scope.md R7, R8, R11, R12), and the type and bound of every result (R5, R29, R47). -/

namespace Sys2Proof.Machine

/-! ### ROUND (00_scope.md R11) -/

/-- ROUND says which neighbour of `x` it takes: the lower one below the middle, the upper one above it, and at the
middle the one of the tie rule. -/
theorem roundQ_cases (tie : RoundTie) (x : Rat) :
    (x - x.floor < 1 / 2 ∧ roundQ tie x = x.floor) ∨
    (1 / 2 < x - x.floor ∧ roundQ tie x = x.floor + 1) ∨
    (x - x.floor = 1 / 2 ∧ (roundQ tie x = x.floor ∨ roundQ tie x = x.floor + 1) ∧
      (tie = .halfEven → roundQ tie x % 2 = 0) ∧
      (tie = .halfAway → roundQ tie x = if 0 < x then x.floor + 1 else x.floor)) := by
  rcases lt_trichotomy (x - x.floor) (1 / 2) with h | h | h
  · exact .inl ⟨h, by simp only [roundQ, if_pos h]⟩
  · refine .inr (.inr ⟨h, ?_⟩)
    cases tie with
    | halfEven => simp only [roundQ, h, lt_irrefl, if_false]; split <;> simp <;> omega
    | halfAway => simp only [roundQ, h, lt_irrefl, if_false]; split <;> simp
  · exact .inr (.inl ⟨h, by simp only [roundQ, if_neg h.not_gt, if_pos h]⟩)

/-- ROUND moves a number by at most one half, and by exactly one half only at a tie. -/
theorem abs_sub_roundQ (tie : RoundTie) (x : Rat) :
    |x - roundQ tie x| ≤ 1 / 2 ∧ (|x - roundQ tie x| = 1 / 2 → x - x.floor = 1 / 2) := by
  have hlo : (x.floor : Rat) ≤ x := Int.floor_le x
  have hhi : x < x.floor + 1 := Int.lt_floor_add_one x
  rcases roundQ_cases tie x with ⟨h, hr⟩ | ⟨h, hr⟩ | ⟨h, hr, -⟩
  · rw [hr, abs_of_nonneg (by linarith)]
    exact ⟨h.le, id⟩
  · rw [hr, Int.cast_add, Int.cast_one, abs_of_neg (by linarith)]
    exact ⟨by linarith, fun he => by linarith⟩
  · refine ⟨?_, fun _ => h⟩
    rcases hr with hr | hr <;> rw [hr, abs_le] <;> push_cast <;> constructor <;> linarith

/-- No integer is nearer to `x` than one at most one half away. -/
theorem abs_sub_le_of_le_half {x : Rat} {r : Int} (h : |x - r| ≤ 1 / 2) (n : Int) : |x - r| ≤ |x - n| := by
  by_cases hn : r = n
  · rw [hn]
  · have h1 : (1 : Rat) ≤ |(r : Rat) - n| := by
      exact_mod_cast Int.one_le_abs (sub_ne_zero.mpr hn)
    have h2 : |(r : Rat) - n| ≤ |x - r| + |x - n| := by
      rw [abs_sub_comm x r]; exact abs_sub_le _ _ _
    linarith

/-- At a tie the upper neighbour of a positive number, and the lower one of any other, is the one further from zero. -/
theorem abs_lt_abs_away {x : Rat} (h : x - x.floor = 1 / 2) :
    |x| < |((if 0 < x then x.floor + 1 else x.floor : Int) : Rat)| := by
  split
  · rename_i hx
    rw [abs_of_pos hx, Int.cast_add, Int.cast_one]
    exact lt_of_lt_of_le (by linarith) (le_abs_self _)
  · rename_i hx
    rw [abs_of_nonpos (not_lt.mp hx)]
    exact lt_of_lt_of_le (by linarith) (neg_le_abs _)

/-- Settles O1. A number is at most one half from its ROUND and at least one half from any other integer; the tie
clause is that of the middle case. -/
theorem roundIsNearestWithTieRule : Obligations.RoundIsNearestWithTieRule := by
  intro tie x
  obtain ⟨hle, htie⟩ := abs_sub_roundQ tie x
  refine ⟨abs_sub_le_of_le_half hle, fun he => ?_⟩
  have hd := htie he
  rcases roundQ_cases tie x with ⟨h, -⟩ | ⟨h, -⟩ | ⟨-, -, heven, haway⟩
  · exact absurd hd h.ne
  · exact absurd hd h.ne'
  · exact ⟨heven, fun ha => haway ha ▸ abs_lt_abs_away hd⟩

/-! ### RSQRT (00_scope.md R12) -/

/-- The integer square root of `floor(m)` is that of `m`. -/
theorem isqrt_floor_bounds {m : Rat} (hm : 0 ≤ m) :
    (isqrt m.floor.toNat : Rat) ^ 2 ≤ m ∧ m < ((isqrt m.floor.toNat : Rat) + 1) ^ 2 := by
  obtain ⟨hlo, hhi⟩ := isqrt_spec m.floor.toNat
  have hf : ((m.floor.toNat : Nat) : Int) = m.floor := Int.toNat_of_nonneg (Int.floor_nonneg.mpr hm)
  have hfq : ((m.floor.toNat : Nat) : Rat) = (m.floor : Rat) := by exact_mod_cast hf
  have h1 : (m.floor : Rat) ≤ m := Int.floor_le m
  have h2 : m < m.floor + 1 := Int.lt_floor_add_one m
  have hlo' : (isqrt m.floor.toNat : Rat) * isqrt m.floor.toNat ≤ m.floor.toNat := by exact_mod_cast hlo
  have hhi' : (m.floor.toNat : Rat) + 1 ≤ (isqrt m.floor.toNat + 1) * (isqrt m.floor.toNat + 1) := by
    exact_mod_cast hhi
  constructor
  · rw [pow_two]; linarith
  · rw [pow_two]; linarith

/-- RSQRT says which neighbour of the square root of `m` it takes: the lower one `q` below the middle, or at a tie
under HALF_EVEN when `q` is even; the upper one `q + 1` above the middle, or at a tie otherwise. -/
theorem rsqrt_cases (tie : RoundTie) {m : Rat} (hm : 0 ≤ m) :
    ∃ q : Nat, (q : Rat) ^ 2 ≤ m ∧ m < ((q : Rat) + 1) ^ 2 ∧
      ((rsqrt tie m = q ∧ (m < ((q : Rat) + 1 / 2) ^ 2 ∨
          m = ((q : Rat) + 1 / 2) ^ 2 ∧ tie = .halfEven ∧ q % 2 = 0)) ∨
        (rsqrt tie m = q + 1 ∧ (((q : Rat) + 1 / 2) ^ 2 < m ∨
          m = ((q : Rat) + 1 / 2) ^ 2 ∧ (tie = .halfEven → (q + 1) % 2 = 0)))) := by
  obtain ⟨hlo, hhi⟩ := isqrt_floor_bounds hm
  refine ⟨isqrt m.floor.toNat, hlo, hhi, ?_⟩
  unfold rsqrt
  generalize isqrt m.floor.toNat = q
  simp only [← pow_two]
  rcases lt_trichotomy m (((q : Rat) + 1 / 2) ^ 2) with h | h | h
  · exact .inl ⟨if_pos h, .inl h⟩
  · rw [if_neg h.not_lt, if_neg h.not_gt]
    cases tie with
    | halfAway => exact .inr ⟨rfl, .inr ⟨h, nofun⟩⟩
    | halfEven =>
      by_cases hq : q % 2 = 0
      · exact .inl ⟨if_pos hq, .inr ⟨h, rfl, hq⟩⟩
      · exact .inr ⟨if_neg hq, .inr ⟨h, fun _ => by omega⟩⟩
  · rw [if_neg h.not_gt, if_pos h]
    exact .inr ⟨rfl, .inl h⟩

/-- Settles O2, by the two neighbours RSQRT can take. -/
theorem rsqrtIsNearestRootWithTieRule : Obligations.RsqrtIsNearestRootWithTieRule := by
  intro tie m hm
  obtain ⟨q, hlo, hhi, ⟨hr, hlow⟩ | ⟨hr, hup⟩⟩ := rsqrt_cases tie hm
  · rw [hr]
    have hbelow : 0 < (q : Int) → ((q : Rat) - 1 / 2) ^ 2 < m := fun hq => by
      have hq1 : (1 : Rat) ≤ q := by exact_mod_cast hq
      nlinarith
    have hmid : m ≤ ((q : Rat) + 1 / 2) ^ 2 := hlow.elim le_of_lt fun h => h.1.le
    push_cast
    refine ⟨by omega, fun hq => (hbelow hq).le, hmid, fun he => ?_, fun hq he => absurd he (hbelow hq).ne'⟩
    rcases hlow with h | ⟨-, ht, he2⟩
    · exact absurd he h.ne
    · exact ⟨ht, by omega⟩
  · rw [hr]
    have hq0 : (0 : Rat) ≤ q := Nat.cast_nonneg q
    have hmid : ((q : Rat) + 1 / 2) ^ 2 ≤ m := hup.elim le_of_lt fun h => h.1.ge
    have habove : m < ((q : Rat) + 1 + 1 / 2) ^ 2 := by nlinarith
    have hhalf : (q : Rat) + 1 - 1 / 2 = q + 1 / 2 := by ring
    push_cast
    rw [hhalf]
    refine ⟨by omega, fun _ => hmid, habove.le, fun he => absurd he habove.ne, fun _ he ht => ?_⟩
    rcases hup with h | ⟨-, heven⟩
    · exact absurd he h.ne'
    · have := heven ht; omega

/-! ### Fields (00_scope.md R7, R8) -/

/-- The signed and the unsigned value of a bit string differ by a multiple of `2 ^ len(B)`. -/
theorem sval_emod (B : Bits) : sval B % 2 ^ B.length = uval B := by
  have hlt : (uval B : Int) < 2 ^ B.length := by exact_mod_cast uval_lt B
  have hmod : (uval B : Int) % 2 ^ B.length = uval B := Int.emod_eq_of_lt (Int.natCast_nonneg _) hlt
  rw [sval_eq]
  split
  · rw [Int.sub_emod_right, hmod]
  · exact hmod

theorem sBits_sval (B : Bits) : sBits B.length (sval B) = B := by
  rw [sBits, sval_emod, Int.toNat_natCast, uBits_uval]

/-- Settles O3, by the laws of `uBits`, `sBits` and their values. -/
theorem fieldBitsAndValuesAreInverse : Obligations.FieldBitsAndValuesAreInverse :=
  ⟨fun w v hv => ⟨uBits_length w v, uval_uBits hv⟩,
    fun w v hw hlo hhi => ⟨sBits_length w v, sval_sBits hw hlo (by omega)⟩,
    fun B => ⟨uBits_uval B, sBits_sval B⟩⟩

/-! ### What a computation that can raise yields -/

/-- Every value that `m` returns meets `P`. -/
def Yields {α : Type} (P : α → Prop) (m : Except OpError α) : Prop := ∀ a, m = .ok a → P a

theorem Yields.ok {α : Type} {P : α → Prop} {a : α} (h : P a) : Yields P (.ok a) := by
  rintro _ ⟨⟩; exact h

theorem Yields.error {α : Type} {P : α → Prop} {e : OpError} : Yields P (.error e) := nofun

theorem Yields.mono {α : Type} {P Q : α → Prop} {m : Except OpError α} (h : Yields P m) (hpq : ∀ a, P a → Q a) :
    Yields Q m := fun a ha => hpq a (h a ha)

theorem Yields.bind {α β : Type} {P : α → Prop} {Q : β → Prop} {m : Except OpError α} {k : α → Except OpError β}
    (hm : Yields P m) (hk : ∀ a, P a → Yields Q (k a)) : Yields Q (m >>= k) := by
  intro b hb
  obtain ⟨a, ha, hb⟩ := bind_eq_ok.mp hb
  exact hk a (hm a ha) b hb

/-- A computation whose value does not matter to the result's type. -/
theorem Yields.after {α β : Type} {Q : β → Prop} {m : Except OpError α} {k : α → Except OpError β}
    (hk : ∀ a, Yields Q (k a)) : Yields Q (m >>= k) :=
  Yields.bind (P := fun _ => True) (fun _ _ => trivial) fun a _ => hk a

/-- A check that raises when it holds. -/
theorem Yields.unless {α : Type} {P : α → Prop} {c : Prop} [Decidable c] {e : OpError} {m : Except OpError α}
    (h : ¬ c → Yields P m) : Yields P (if c then .error e else m) := by
  split
  · exact .error
  · exact h ‹_›

/-- A check that raises when it fails. -/
theorem Yields.when {α : Type} {P : α → Prop} {c : Prop} [Decidable c] {e : OpError} {m : Except OpError α}
    (h : c → Yields P m) : Yields P (if c then m else .error e) := by
  split
  · exact h ‹_›
  · exact .error

/-! ### The bound of each operation's value -/

theorem readBits_yields (s : State) (fd : Field) : Yields (·.length ≤ s.cfg.maxBufBits) (readBits s fd) :=
  fun _ h => (readBits_ok h).2

theorem toNat_le_of_widthOk {w : Int} (h : widthOk w = true) : w.toNat ≤ 3024 := by
  have := (widthOk_iff w).mp h; omega

theorem encUint_yields (w v : Int) : Yields (·.length ≤ 3024) (encUint w v) :=
  .when fun h => .ok (by simpa using toNat_le_of_widthOk h)

theorem encSint_yields (w v : Int) : Yields (·.length ≤ 3024) (encSint w v) :=
  .when fun h => .ok (by simpa using toNat_le_of_widthOk h)

theorem encScaled_yields (tie : RoundTie) (w : Int) (signed : Bool) (scale x : Rat) :
    Yields (·.length ≤ 3024) (encScaled tie w signed scale x) :=
  .when fun h => .ok (by have := toNat_le_of_widthOk h; cases signed <;> simpa using this)

theorem encText_yields (maxBufBits : Nat) (n : Int) (s : Chars) :
    Yields (·.length ≤ maxBufBits) (encText maxBufBits n s) :=
  .unless fun h => .ok (by rw [encTextField_length]; omega)

theorem decText_yields (B : Bits) : Yields (fun S => 6 * S.length = B.length) (decText B) :=
  .unless fun h => .ok (by rw [List.length_map, sixGroups_length]; omega)

theorem msg21Bits_length_le (tie : RoundTie) (r : AtonRec) : (msg21Bits tie r).length ≤ 360 := by
  rw [msg21Bits, bytePad_length]
  simp [nameExt_length]
  omega

theorem msg24b_yields (r : PartBRec) : Yields (·.length = 168) (msg24b r) :=
  .unless fun h => .ok (msg24bBits_length r (not_not.mp h))

theorem dearmor_yields (maxBufBits : Nat) (S : Chars) : Yields (·.length ≤ maxBufBits) (dearmor maxBufBits S) :=
  .unless fun h => .ok (by rw [dearmorBits_length]; omega)

theorem reassemble_yields (maxBufBits : Nat) (L : List Fragment) :
    Yields (·.length ≤ maxBufBits) (reassemble maxBufBits L) := by
  unfold reassemble
  split
  · exact .unless fun _ => .unless fun _ => .unless fun _ => .unless fun h =>
      .ok ((List.length_take_le _ _).trans (not_lt.mp h))
  · exact .error

theorem splitPayload_yields (c : BitVec 4) (B : Bits) (chan : Chan) :
    Yields (fun p => ∀ g ∈ p.2, g.inRange = true ∧ g.payload.length ≤ 504) (splitPayload c B chan) := by
  by_cases h : 1 ≤ B.length ∧ B.length ≤ 3024
  · obtain ⟨c', L, hs, hL⟩ := splitPayload_inRange (c := c) (ch := chan) h
    rw [hs]
    exact .ok fun g hg => ⟨(hL g hg).1, by have := (hL g hg).2; omega⟩
  · rw [splitPayload_error (by omega)]
    exact .error

theorem build_yields (talker sid : Chars) (fields : List Chars) :
    Yields (·.length ≤ maxSentence) (build talker sid fields) :=
  .unless fun _ => .unless fun _ => .unless fun h => .ok (not_lt.mp h)

theorem frameAivdm_yields (g : Fragment) : Yields (·.length ≤ maxSentence) (frameAivdm g) :=
  .when fun _ => build_yields _ _ _

theorem frameAll_yields (L : List Fragment) : Yields (∀ T ∈ ·, T.length ≤ maxSentence) (frameAll L) := by
  induction L with
  | nil => exact .ok nofun
  | cons g L ih =>
    exact (frameAivdm_yields g).bind fun T hT => ih.bind fun Ts hTs => .ok (List.forall_mem_cons.mpr ⟨hT, hTs⟩)

theorem encodePayload_yields (c : BitVec 4) (B : Bits) (chan : Chan) :
    Yields (fun p => ∀ T ∈ p.2, T.length ≤ maxSentence) (encodePayload c B chan) :=
  .after fun p => (frameAll_yields p.2).bind fun _ h => .ok h

/-- No part of a text split at its commas is longer than the text. -/
theorem splitComma_length_le (S : Chars) :
    (splitComma S).1.length ≤ S.length ∧ ∀ g ∈ (splitComma S).2, g.length ≤ S.length := by
  induction S with
  | nil => exact ⟨le_rfl, nofun⟩
  | cons c S ih =>
    obtain ⟨hfst, hrest⟩ := ih
    rw [splitComma, List.length_cons]
    split
    · exact ⟨Nat.zero_le _, List.forall_mem_cons.mpr ⟨by omega, fun g hg => by have := hrest g hg; omega⟩⟩
    · exact ⟨by rw [List.length_cons]; omega, fun g hg => by have := hrest g hg; omega⟩

theorem talkerChars_length (t : TalkerId) : (talkerChars t).length = 2 := by cases t <;> decide

/-- `p` has a talker of two characters, a sentence ID of three, and fields of at most `n` characters (10_state.md R29).
-/
structure Parsed.Bounded (n : Nat) (p : Parsed) : Prop where
  talker : p.talker.length = 2
  sid    : p.sid.length = 3
  fields : ∀ g ∈ p.fields, g.length ≤ n

theorem parseBody_yields (dflt : TalkerId) (body : Chars) (x : Char8) :
    Yields (Parsed.Bounded body.length) (parseBody dflt body x) :=
  .unless fun h5 => .unless fun hsid => .ok {
    talker := by
      have := not_not.mp h5
      split
      · rw [List.length_take]; omega
      · exact talkerChars_length dflt
    sid := sentenceId_length (not_not.mp hsid)
    fields := (splitComma_length_le body).2 }

theorem parseFramed_yields (dflt : TalkerId) (T : Chars) : Yields (Parsed.Bounded T.length) (parseFramed dflt T) := by
  have hbody : (T.takeWhile (· != ord '*')).length ≤ T.length := (List.takeWhile_sublist _).length_le
  unfold parseFramed
  split
  · exact .error
  · split
    · exact .error
    · exact .unless fun _ => (parseBody_yields _ _ _).mono fun p hp =>
        { hp with fields := fun g hg => (hp.fields g hg).trans hbody }

theorem parse_yields (dflt : TalkerId) (S : Chars) : Yields (Parsed.Bounded 504) (parse dflt S) := by
  refine .unless fun hlen => ?_
  rw [maxSentence] at hlen
  split
  · exact .error
  · rename_i c T hS
    rw [hS, List.length_cons] at hlen
    exact .when fun _ => (parseFramed_yields dflt T).mono fun p hp =>
      { hp with fields := fun g hg => (hp.fields g hg).trans (by omega) }

/-! ### The type of each operation's result -/

section HasType

variable {cfg : Config}

theorem bits_hasType {B : Bits} (h : B.length ≤ 3024) : (Result.bits B).hasType cfg .bits = true :=
  decide_eq_true (h.trans cfg.maxBufBits_ge)

theorem bits_hasType_of_le {B : Bits} (h : B.length ≤ cfg.maxBufBits) : (Result.bits B).hasType cfg .bits = true :=
  decide_eq_true h

theorem chars_hasType {S : Chars} (h : S.length ≤ cfg.maxBufChars) : (Result.chars S).hasType cfg .chars = true :=
  decide_eq_true h

/-- The armored form of a bit string within its bound is within the bound of a character string (`Config.armorFits`). -/
theorem armor_hasType {B : Bits} (h : B.length ≤ cfg.maxBufBits) :
    (Result.chars (armor B)).hasType cfg .chars = true :=
  chars_hasType (by have := cfg.armorFits; rw [armor_length]; omega)

theorem fragments_hasType {L : List Fragment} (h : ∀ g ∈ L, g.inRange = true ∧ g.payload.length ≤ 504) :
    (Result.fragments L).hasType cfg .fragments = true :=
  List.all_eq_true.mpr fun g hg =>
    (Bool.and_eq_true _ _).mpr ⟨(h g hg).1, decide_eq_true ((h g hg).2.trans cfg.maxBufChars_ge)⟩

theorem sentence_hasType {S : Chars} (h : S.length ≤ maxSentence) : (Result.sentence S).hasType cfg .sentence = true :=
  decide_eq_true h

theorem sentences_hasType {L : List Chars} (h : ∀ S ∈ L, S.length ≤ maxSentence) :
    (Result.sentences L).hasType cfg .sentences = true :=
  List.all_eq_true.mpr fun S hS => decide_eq_true (h S hS)

theorem parsed_hasType {p : Parsed} (h : p.Bounded 504) : (Result.parsed p).hasType cfg .parsed = true :=
  (Bool.and_eq_true _ _).mpr ⟨decide_eq_true ⟨h.talker, h.sid⟩,
    List.all_eq_true.mpr fun g hg => decide_eq_true ((h.fields g hg).trans cfg.maxBufChars_ge)⟩

end HasType

/-! ### How an operation ends -/

/-- `o` is a next state with one response, whose result is of the type of operation `i` when the status is OK, or the
OPERAND_ERROR fault that names `i` (10_state.md R20, 20_memory.md R47, 60_exceptions.md R308). -/
def EndsTyped (i : Instr) (s : State) (o : Host.Outcome State Fault Refusal) : Prop :=
  (∃ (t : State) (r : Response), o = .next t ∧ t.response = some r ∧
    (r.status = .ok → ∃ v, r.result = some v ∧ v.hasType s.cfg i.resultType = true)) ∨
  (s.cfg.hostErrors = .asFault ∧ ∃ fd, o = .fault (.operandError i fd))

theorem failed_endsTyped (i : Instr) (s : State) {st : Status} (h : st ≠ .ok) : EndsTyped i s (.next (s.failed st)) :=
  .inl ⟨_, _, rfl, failed_response s st, fun hok => absurd hok h⟩

theorem raise_endsTyped (i : Instr) (e : OpError) (s : State) : EndsTyped i s (raise i e s) := by
  cases e with
  | malformedSentence => exact failed_endsTyped i s (by decide)
  | checksumMismatch => exact failed_endsTyped i s (by decide)
  | unsupportedSentenceType => exact failed_endsTyped i s (by decide)
  | operand fd =>
    obtain ⟨hfault, hresp⟩ := raise_operand i fd s
    cases h : s.cfg.hostErrors with
    | asFault => exact .inr ⟨h, fd, hfault h⟩
    | asResponse => rw [hresp h]; exact failed_endsTyped i s (by decide)

theorem answer_endsTyped {i : Instr} {m : Except OpError Result} {s : State}
    (h : Yields (fun v => v.hasType s.cfg i.resultType = true) m) : EndsTyped i s (answer i m s) := by
  cases m with
  | ok v => exact .inl ⟨_, _, rfl, answered_response s v, fun _ => ⟨v, rfl, h v rfl⟩⟩
  | error e => exact raise_endsTyped i e s

theorem answerCtr_endsTyped {i : Instr} {m : Except OpError (BitVec 4 × Result)} {s : State}
    (h : Yields (fun p => p.2.hasType s.cfg i.resultType = true) m) : EndsTyped i s (answerCtr i m s) := by
  cases m with
  | ok p => exact .inl ⟨_, _, rfl, answered_response _ p.2, fun _ => ⟨p.2, rfl, h p rfl⟩⟩
  | error e => exact raise_endsTyped i e s

/-- An operation that reads its operands and answers a bit string within every bound. -/
theorem answer_bits_endsTyped {i : Instr} {α : Type} {m : Except OpError α} {f : α → Bits} {s : State}
    (hi : i.resultType = .bits) (h : ∀ a, (f a).length ≤ 3024) :
    EndsTyped i s (answer i (do let a ← m; return .bits (f a)) s) :=
  answer_endsTyped (.after fun a => .ok (hi ▸ bits_hasType (h a)))

theorem exec_endsTyped (i : Instr) (s : State) : EndsTyped i s (exec i s) := by
  cases i with
  | seqRead => exact answer_endsTyped (.ok rfl)
  | seqWrite => exact answerCtr_endsTyped (.after fun _ => .after fun _ => .ok rfl)
  | encUint =>
    exact answer_endsTyped (.after fun _ => .after fun _ => (encUint_yields _ _).bind fun _ h => .ok (bits_hasType h))
  | encSint =>
    exact answer_endsTyped (.after fun _ => .after fun _ => (encSint_yields _ _).bind fun _ h => .ok (bits_hasType h))
  | encScaled =>
    exact answer_endsTyped (.after fun _ => .after fun _ => .after fun _ => .after fun _ =>
      (encScaled_yields _ _ _ _ _).bind fun _ h => .ok (bits_hasType h))
  | encText =>
    exact answer_endsTyped (.after fun _ => .after fun _ =>
      (encText_yields _ _ _).bind fun _ h => .ok (bits_hasType_of_le h))
  | decUint | decSint | decLat | decLon | fillbits => exact answer_endsTyped (.after fun _ => .after fun _ => .ok rfl)
  | decText =>
    exact answer_endsTyped ((readBits_yields s .B).bind fun B hB => (decText_yields B).bind fun S hS =>
      .ok (chars_hasType (by have := s.cfg.armorFits; omega)))
  | encLat | encLon | encSog | encCog | encHdg | encRot | encTstamp | encDraught =>
    exact answer_bits_endsTyped rfl fun _ => by simp
  | encEta =>
    exact answer_endsTyped (.after fun _ => .after fun _ => .after fun _ => .after fun _ =>
      .ok (bits_hasType (by simp)))
  | msg1 | msg2 | msg3 | msg4 | msg5 | msg18 | msg19 | msg24a => exact answer_bits_endsTyped rfl fun _ => by simp
  | msg21 => exact answer_bits_endsTyped rfl fun r => (msg21Bits_length_le _ r).trans (by decide)
  | msg24b =>
    exact answer_endsTyped (.after fun r => (msg24b_yields r).bind fun _ h => .ok (bits_hasType (by omega)))
  | armor => exact answer_endsTyped ((readBits_yields s .B).bind fun _ hB => .ok (armor_hasType hB))
  | dearmor =>
    exact answer_endsTyped (.after fun _ => (dearmor_yields _ _).bind fun _ h => .ok (bits_hasType_of_le h))
  | split =>
    exact answerCtr_endsTyped (.after fun _ => .after fun _ =>
      (splitPayload_yields _ _ _).bind fun _ h => .ok (fragments_hasType h))
  | frameAivdm =>
    exact answer_endsTyped (.after fun _ => (frameAivdm_yields _).bind fun _ h => .ok (sentence_hasType h))
  | encodeAivdm =>
    exact answerCtr_endsTyped (.after fun _ => .after fun _ =>
      (encodePayload_yields _ _ _).bind fun _ h => .ok (sentences_hasType h))
  | reassemble =>
    exact answer_endsTyped (.after fun _ => (reassemble_yields _ _).bind fun _ h => .ok (bits_hasType_of_le h))
  | checksum => exact answer_endsTyped (.after fun _ => .ok rfl)
  | build =>
    exact answer_endsTyped (.after fun _ => .after fun _ => .after fun _ =>
      (build_yields _ _ _).bind fun _ h => .ok (sentence_hasType h))
  | parse => exact answer_endsTyped (.after fun _ => (parse_yields _ _).bind fun _ h => .ok (parsed_hasType h))

/-- Settles O16. Every operation ends by `answer` or `answerCtr`, and what it answers is bounded by its own checks or
by the bounds of its operands. -/
theorem everyOperationEnds : Obligations.EveryOperationEnds := exec_endsTyped

end Sys2Proof.Machine

/-! SUPPORT. The state and its steps: the invariant, the frame and the order of steps, the state at the start of a run
(10_state.md R20 to R31, R44, R46), and the operand type check that comes first in every operation (R29, R303). -/

namespace Sys2Proof.Machine

/-! ### The step, one equation per event (20_memory.md R44) -/

theorem step_of_decode_ok {s : State} {x : Transaction} {rest : List HostEvent} {i : Instr}
    (hin : s.input = .transact x :: rest) (hdec : decode x.cmd = .ok i) :
    step s = exec i (s.accept x.operands rest) := by
  simp only [step, hin, hdec]

theorem step_of_decode_error {s : State} {x : Transaction} {rest : List HostEvent} {e : DecodeError}
    (hin : s.input = .transact x :: rest) (hdec : decode x.cmd = .error e) :
    step s = rejectCommand x.cmd e (s.accept x.operands rest) := by
  simp only [step, hin, hdec]

theorem step_of_reset {s : State} {cut : Option Transaction} {rest : List HostEvent}
    (hin : s.input = .reset cut :: rest) : step s = .next (s.applyReset rest) := by
  simp only [step, hin]

/-- Settles O7. The state the operation is performed on is the one that accepted the transaction. -/
theorem stepPerformsThePresentedOperation : Obligations.StepPerformsThePresentedOperation :=
  fun _ _ _ _ => step_of_decode_ok

/-! ### The invariant (10_state.md R22, R24; 60_exceptions.md R305) -/

theorem answered_inv {s : State} (h : s.ctrLegal) (r : Result) : (s.answered r).Inv where
  ctr := h
  operands := answered_operands s r
  response := by
    rintro _ ⟨⟩
    exact iff_of_true rfl rfl

theorem failed_inv {s : State} (h : s.ctrLegal) {st : Status} (hst : st ≠ .ok) : (s.failed st).Inv where
  ctr := h
  operands := failed_operands s st
  response := by
    rintro _ ⟨⟩
    exact iff_of_false Bool.false_ne_true hst

theorem applyReset_inv (s : State) (rest : List HostEvent) : (s.applyReset rest).Inv where
  ctr := Nat.zero_le 9
  operands := applyReset_operands s rest
  response := nofun

theorem init_inv (cfg : Config) (c : Fin 10) : (State.init cfg c).Inv where
  ctr := by rw [State.ctrLegal, init_seqCtr_toNat]; omega
  operands := init_operands cfg c
  response := nofun

/-- A legal counter stays legal: an operation keeps it or writes a legal one. -/
theorem exec_ctrLegal {i : Instr} {s t : State} (h : s.ctrLegal) (ht : exec i s = .next t) : t.ctrLegal := by
  rcases exec_ctr ht with hsame | ⟨hle, -⟩
  · rwa [State.ctrLegal, hsame]
  · exact hle

/-- An operation ends between two transactions, whatever stands on the channels when it begins: of the invariant it
needs the legal counter only. -/
theorem exec_inv {i : Instr} {s t : State} (h : s.ctrLegal) (ht : exec i s = .next t) : t.Inv := by
  have hctr := exec_ctrLegal h ht
  rcases exec_next ht with ⟨c, r, rfl⟩ | ⟨st, hst, rfl⟩
  · exact answered_inv (s := s.setCtr c) hctr r
  · exact failed_inv h hst

/-- Settles O10, by the ways a step can end. -/
theorem stepKeepsInvariant : Obligations.StepKeepsInvariant := by
  intro s t hs ht
  rcases step_next ht with ⟨-, rfl⟩ | ⟨_, rest, -, rfl⟩ | ⟨x, rest, i, -, -, hx⟩ | ⟨x, rest, st, -, hst, rfl⟩
  · exact hs
  · exact applyReset_inv s rest
  · exact exec_inv (s := s.accept x.operands rest) hs.ctr hx
  · exact failed_inv (s := s.accept x.operands rest) hs.ctr hst

/-! ### The frame and the order of steps (10_state.md R28, 20_memory.md R44, R46) -/

theorem exec_cfg_input {i : Instr} {s t : State} (h : exec i s = .next t) : t.cfg = s.cfg ∧ t.input = s.input := by
  rcases exec_next h with ⟨c, r, rfl⟩ | ⟨st, -, rfl⟩ <;> exact ⟨rfl, rfl⟩

/-- Settles O12, by the ways a step can end. -/
theorem stepKeepsConfigurationAndOrder : Obligations.StepKeepsConfigurationAndOrder := by
  intro s t ht
  rcases step_next ht with ⟨hin, rfl⟩ | ⟨_, rest, hin, rfl⟩ | ⟨x, rest, i, hin, -, hx⟩ | ⟨x, rest, st, hin, -, rfl⟩
  · exact ⟨rfl, by rw [hin]; rfl⟩
  · exact ⟨rfl, by rw [hin]; rfl⟩
  · rw [hin]
    exact exec_cfg_input hx
  · exact ⟨rfl, by rw [hin]; rfl⟩

theorem accept_congr {s t : State} (hcfg : s.cfg = t.cfg) (hctr : s.seqCtr = t.seqCtr) (o : OpRecord)
    (rest : List HostEvent) : s.accept o rest = t.accept o rest := by
  simp only [State.accept, hcfg, hctr]

theorem applyReset_congr {s t : State} (hcfg : s.cfg = t.cfg) (rest : List HostEvent) :
    s.applyReset rest = t.applyReset rest := by
  simp only [State.applyReset, hcfg]

/-- Settles O13. Accepting a transaction and applying a reset both overwrite the two channels. -/
theorem stepDependsOnlyOnCounterAndInput : Obligations.StepDependsOnlyOnCounterAndInput := by
  intro s t hcfg hctr hin hne
  obtain ⟨ev, rest, hs⟩ := List.exists_cons_of_ne_nil hne
  have ht := hin ▸ hs
  cases ev with
  | reset cut => rw [step_of_reset hs, step_of_reset ht, applyReset_congr hcfg]
  | transact x =>
    cases hdec : decode x.cmd with
    | ok i => rw [step_of_decode_ok hs hdec, step_of_decode_ok ht hdec, accept_congr hcfg hctr]
    | error e => rw [step_of_decode_error hs hdec, step_of_decode_error ht hdec, accept_congr hcfg hctr]

/-! ### The start of a run (70_reset_and_hazards.md R330, R331) -/

theorem readInt_of_lookup {s : State} {fd : Field} {n : Int} (h : OpRecord.lookup s.operands fd = some (.num n)) :
    readInt s fd = .ok n := by
  simp [readInt, h]

theorem seqWriteValue_ok {x : Int} (h : 0 ≤ x ∧ x ≤ 9) : seqWriteValue x = .ok (BitVec.ofNat 4 x.toNat) :=
  if_neg (by omega)

/-- SEQ_WRITE of a value it can write (45_control.md R291). -/
theorem exec_seqWrite_ok {s : State} {x : Int} (hr : readInt s .ctr = .ok x) (hx : 0 ≤ x ∧ x ≤ 9) :
    exec .seqWrite s = .next ((s.setCtr (BitVec.ofNat 4 x.toNat)).answered .unit) := by
  simp only [exec, execSeqWrite, hr, seqWriteValue_ok hx, ok_bind, pure_ok, answerCtr_ok]

/-- Settles O11. -/
theorem resetMeetsInvariant : Obligations.ResetMeetsInvariant := by
  intro cfg c
  refine ⟨init_inv cfg c, rfl, init_seqCtr_toNat cfg c, rfl, rfl, rfl, rfl, ?_⟩
  have hr : readInt { State.init cfg with operands := [(.ctr, .num (c : Nat))] } .ctr = .ok (c : Nat) :=
    readInt_of_lookup (by rw [Int.cast_natCast]; rfl)
  rw [exec_seqWrite_ok hr (by omega)]
  rfl

/-! ### The operand type check (10_state.md R29, 60_exceptions.md R303 item 2) -/

/-- A record ill typed for the operands of `sig` makes `m` raise OPERAND_ERROR for one of them. Unlike `Reads`, it says
nothing of a well-typed record, on which `m` may go on to checks of its own. -/
def ChecksTypes (s : State) (sig : List (Field × OpType)) {α : Type} (m : Except OpError α) : Prop :=
  OpRecord.wellTyped s.cfg sig s.operands = false → ∃ fd ∈ sig.map Prod.fst, m = .error (.operand fd)

theorem ChecksTypes.nil {s : State} {α : Type} {m : Except OpError α} : ChecksTypes s [] m := nofun

/-- Reading the first operands, then checking the others. -/
theorem Reads.andThen {s : State} {sig sig' : List (Field × OpType)} {α β : Type} {m : Except OpError α}
    {k : α → Except OpError β} (hm : Reads s sig m) (hk : ∀ a, ChecksTypes s sig' (k a)) :
    ChecksTypes s (sig ++ sig') (m >>= k) := by
  intro h
  rw [List.map_append]
  cases hw : OpRecord.wellTyped s.cfg sig s.operands with
  | false =>
    obtain ⟨fd, hfd, rfl⟩ := hm.error hw
    exact ⟨fd, List.mem_append_left _ hfd, rfl⟩
  | true =>
    obtain ⟨a, rfl⟩ := hm.ok hw
    rw [wellTyped_append, hw, Bool.true_and] at h
    obtain ⟨fd, hfd, he⟩ := hk a h
    exact ⟨fd, List.mem_append_right _ hfd, he⟩

/-- Reading the last operands, whatever the operation does with them. -/
theorem Reads.last {s : State} {sig : List (Field × OpType)} {α β : Type} {m : Except OpError α}
    {k : α → Except OpError β} (hm : Reads s sig m) : ChecksTypes s sig (m >>= k) :=
  List.append_nil sig ▸ hm.andThen fun _ => .nil

/-- An operand of type `ty` whose reader leaves a part of the type's check to the operation: a value that is read and
is not of the type makes the operation raise for it. -/
theorem ChecksTypes.one {s : State} {fd : Field} {ty : OpType} {α β : Type} {m : Except OpError α}
    {k : α → Except OpError β} (hc : (∃ a, m = .ok a) ∨ m = .error (.operand fd))
    (hk : ∀ a, m = .ok a → OpRecord.wellTyped s.cfg [(fd, ty)] s.operands = false → k a = .error (.operand fd)) :
    ChecksTypes s [(fd, ty)] (m >>= k) := by
  intro h
  refine ⟨fd, List.mem_singleton_self fd, ?_⟩
  rcases hc with ⟨a, rfl⟩ | rfl
  · exact hk a rfl h
  · rfl

theorem wellTyped_one {cfg : Config} {r : OpRecord} {fd : Field} {ty : OpType} {v : OpVal}
    (h : OpRecord.lookup r fd = some v) : OpRecord.wellTyped cfg [(fd, ty)] r = v.hasType cfg ty := by
  simp [OpRecord.wellTyped, h]

theorem readFragment_ok {s : State} {fd : Field} {g : Fragment} (h : readFragment s fd = .ok g) :
    OpRecord.lookup s.operands fd = some (.fragment g) ∧ g.payload.length ≤ s.cfg.maxBufChars := by
  unfold readFragment at h
  split at h
  · split at h
    · cases h; exact ⟨by assumption, by assumption⟩
    · cases h
  · cases h

theorem readFragments_ok {s : State} {fd : Field} {L : List Fragment} (h : readFragments s fd = .ok L) :
    OpRecord.lookup s.operands fd = some (.fragments L) ∧ ∀ g ∈ L, g.payload.length ≤ s.cfg.maxBufChars := by
  unfold readFragments at h
  split at h
  · split at h
    · rename_i hl
      cases h
      exact ⟨by assumption, by simpa using hl⟩
    · cases h
  · cases h

/-- FRAME_AIVDM checks the ranges of its fragment (43_framer.md R235). -/
theorem frameAivdm_of_not_inRange {g : Fragment} (h : g.inRange = false) : frameAivdm g = .error (.operand .f) := by
  simp [frameAivdm, fragmentOk_eq, h]

/-- REASSEMBLE checks the ranges of every fragment (43_framer.md R237). -/
theorem reassembleAllOk_inRange {k : Nat} {q : Chars} {i : Nat} {L : List Fragment}
    (h : reassembleAllOk k q i L = true) : ∀ g ∈ L, g.inRange = true := by
  intro g hg
  obtain ⟨j, hj, rfl⟩ := List.mem_iff_getElem.mp hg
  exact ((reassembleItemOk_iff _ _ _ _).mp ((reassembleAllOk_iff k q i L).mp h j hj)).1

theorem reassemble_of_not_inRange (n : Nat) {L : List Fragment} (h : ¬ ∀ g ∈ L, g.inRange = true) :
    reassemble n L = .error (.operand .L) := by
  have hall (k : Nat) (q : Chars) (i : Nat) : reassembleAllOk k q i L = false :=
    Bool.eq_false_iff.mpr fun hok => h (reassembleAllOk_inRange hok)
  unfold reassemble
  split
  · split
    · rfl
    · rw [hall]; rfl
  · rfl

theorem frameAivdm_checksTypes (s : State) {k : Chars → Except OpError Result} :
    ChecksTypes s [(.f, .fragment)] (readFragment s .f >>= fun g => frameAivdm g >>= k) := by
  refine .one (readFragment_cases s .f) fun g hg hw => ?_
  obtain ⟨hlook, hlen⟩ := readFragment_ok hg
  rw [wellTyped_one hlook, OpVal.hasType, decide_eq_true hlen, Bool.and_true] at hw
  rw [frameAivdm_of_not_inRange hw, error_bind]

theorem reassemble_checksTypes (s : State) (n : Nat) {k : Bits → Except OpError Result} :
    ChecksTypes s [(.L, .fragments)] (readFragments s .L >>= fun L => reassemble n L >>= k) := by
  refine .one (readFragments_cases s .L) fun L hL hw => ?_
  obtain ⟨hlook, hlen⟩ := readFragments_ok hL
  rw [wellTyped_one hlook, OpVal.hasType] at hw
  rw [reassemble_of_not_inRange, error_bind]
  intro hall
  refine Bool.eq_false_iff.mp hw (List.all_eq_true.mpr fun g hg => ?_)
  rw [hall g hg, decide_eq_true (hlen g hg), Bool.and_true]

/-- `o` is OPERAND_ERROR of operation `i` for one of its operands when the record presented is ill typed for it. -/
def RejectsIllTyped (i : Instr) (s : State) (o : Host.Outcome State Fault Refusal) : Prop :=
  OpRecord.wellTyped s.cfg i.signature s.operands = false →
    ∃ fd ∈ i.signature.map Prod.fst, RaisesOperandError i fd s o

theorem answer_rejectsIllTyped {i : Instr} {m : Except OpError Result} {s : State}
    (h : ChecksTypes s i.signature m) : RejectsIllTyped i s (answer i m s) := by
  intro hw
  obtain ⟨fd, hfd, rfl⟩ := h hw
  exact ⟨fd, hfd, raise_operand i fd s⟩

theorem answerCtr_rejectsIllTyped {i : Instr} {m : Except OpError (BitVec 4 × Result)} {s : State}
    (h : ChecksTypes s i.signature m) : RejectsIllTyped i s (answerCtr i m s) := by
  intro hw
  obtain ⟨fd, hfd, rfl⟩ := h hw
  exact ⟨fd, hfd, raise_operand i fd s⟩

/-- Every operation reads the operands of its signature before it does anything else. -/
theorem exec_rejectsIllTyped (i : Instr) (s : State) : RejectsIllTyped i s (exec i s) := by
  cases i with
  | seqRead => exact nofun
  | seqWrite => exact answerCtr_rejectsIllTyped (reads_int s _).last
  | encUint | encSint => exact answer_rejectsIllTyped ((reads_int s _).andThen fun _ => (reads_int s _).last)
  | encScaled =>
    exact answer_rejectsIllTyped ((reads_int s _).andThen fun _ => (reads_bool s _).andThen fun _ =>
      (reads_real s _).andThen fun _ => (reads_real s _).last)
  | encText => exact answer_rejectsIllTyped ((reads_int s _).andThen fun _ => (reads_chars s _).last)
  | decUint | decSint | decText | decLat | decLon | armor => exact answer_rejectsIllTyped (reads_bits s _).last
  | encLat | encLon | encSog | encCog | encRot | encDraught => exact answer_rejectsIllTyped (reads_optReal s _).last
  | encHdg | encTstamp => exact answer_rejectsIllTyped (reads_optInt s _).last
  | encEta =>
    exact answer_rejectsIllTyped ((reads_optInt s _).andThen fun _ => (reads_optInt s _).andThen fun _ =>
      (reads_optInt s _).andThen fun _ => (reads_optInt s _).last)
  | msg1 | msg2 | msg3 => exact answer_rejectsIllTyped (reads_posRec s).last
  | msg4 => exact answer_rejectsIllTyped (reads_baseRec s).last
  | msg5 => exact answer_rejectsIllTyped (reads_voyRec s).last
  | msg18 => exact answer_rejectsIllTyped (reads_classBRec s).last
  | msg19 => exact answer_rejectsIllTyped (reads_classBExtRec s).last
  | msg21 => exact answer_rejectsIllTyped (reads_atonRec s).last
  | msg24a => exact answer_rejectsIllTyped (reads_partARec s).last
  | msg24b => exact answer_rejectsIllTyped (reads_partBRec s).last
  | dearmor | checksum | parse => exact answer_rejectsIllTyped (reads_chars s _).last
  | fillbits => exact answer_rejectsIllTyped (reads_int s _).last
  | split | encodeAivdm => exact answerCtr_rejectsIllTyped ((reads_bits s _).andThen fun _ => (reads_chan s _).last)
  | frameAivdm => exact answer_rejectsIllTyped (frameAivdm_checksTypes s)
  | reassemble => exact answer_rejectsIllTyped (reassemble_checksTypes s _)
  | build =>
    exact answer_rejectsIllTyped ((reads_chars s _).andThen fun _ => (reads_chars s _).andThen fun _ =>
      (reads_charsList s _).last)

/-- Settles O17. -/
theorem illTypedRecordsRaiseOperandError : Obligations.IllTypedRecordsRaiseOperandError := exec_rejectsIllTyped

end Sys2Proof.Machine

/-! SUPPORT. Which operations write the counter (20_memory.md R46, 43_framer.md R233). -/

namespace Sys2Proof.Machine

/-- Settles O14: the frame of an operation, and the writers of the counter among the operations. -/
theorem onlyThreeOperationsWriteTheCounter : Obligations.OnlyThreeOperationsWriteTheCounter := by
  intro i s t ht
  obtain ⟨hcfg, hinput⟩ := exec_cfg_input ht
  refine ⟨hcfg, hinput, fun hne => ?_⟩
  rcases exec_ctr ht with hsame | ⟨-, hwriter⟩
  · exact absurd hsame hne
  · exact hwriter

end Sys2Proof.Machine

/-! SUPPORT. Command words (30_encoding.md R60 to R63): the decoder and the encoder are inverse, which error every other
word gives, and what a step does with such a word. -/

namespace Sys2Proof.Machine

/-- A command word with `RSV = 0` is its other three fields (30_encoding.md R60). -/
theorem word_eq_fields {w : Word} (h : cmdRsv w = 0) :
    BitVec.ofNat 16 (cmdFam w * 4096 + cmdFn w * 64 + cmdSub w * 16) = w := by
  have hsum : cmdFam w * 4096 + cmdFn w * 64 + cmdSub w * 16 = w.toNat := by
    simp only [cmdFam, cmdFn, cmdSub, cmdRsv] at h ⊢
    omega
  rw [hsum, BitVec.ofNat_toNat, BitVec.setWidth_eq]

/-- The word of an operation, from the fields of its row (30_encoding.md R62). -/
theorem encode_of_code {i : Instr} {fam fn sub : Nat} (h : i.code = (fam, fn, sub)) :
    encode i = BitVec.ofNat 16 (fam * 4096 + fn * 64 + sub * 16) := by
  rw [encode, h]

theorem decode_encode (i : Instr) : decode (encode i) = .ok i := by
  cases i <;> rfl

/-- Family 2 is decoded row by row as it is encoded (30_encoding.md R61). -/
theorem code_of_decodeMessage {fn sub : Nat} {i : Instr} (h : decodeMessage fn sub = some i) :
    i.code = (2, fn, sub) := by
  unfold decodeMessage at h
  split at h <;> cases h <;> rfl

/-- The other families are decoded row by row as they are encoded (30_encoding.md R62). -/
theorem code_of_decodeRow {fam fn : Nat} {i : Instr} (h : decodeRow fam fn = some i) : i.code = (fam, fn, 0) := by
  unfold decodeRow at h
  split at h <;> cases h <;> rfl

/-- The two errors of decoding: a word of family 2 with `RSV = 0`, and every other one (30_encoding.md R61, R63). -/
def decodeErrorOf (w : Word) : DecodeError :=
  if cmdFam w = 2 ∧ cmdRsv w = 0 then .unsupportedMessageType else .illegalCommand

/-- Decoding reads the operation whose row has the fields of the word, or sorts the word by its family and `RSV`. -/
theorem decode_cases (w : Word) :
    (∃ i : Instr, decode w = .ok i ∧ i.code = (cmdFam w, cmdFn w, cmdSub w) ∧ cmdRsv w = 0) ∨
    decode w = .error (decodeErrorOf w) := by
  unfold decode decodeErrorOf
  by_cases hrsv : cmdRsv w = 0
  · rw [if_neg (not_not.mpr hrsv)]
    by_cases hfam : cmdFam w = 2
    · rw [if_pos hfam, if_pos (And.intro hfam hrsv)]
      cases hm : decodeMessage (cmdFn w) (cmdSub w) with
      | some i => exact .inl ⟨i, rfl, by rw [hfam, code_of_decodeMessage hm], hrsv⟩
      | none => exact .inr rfl
    · rw [if_neg hfam, if_neg (not_and_of_not_left _ hfam)]
      by_cases hsub : cmdSub w = 0
      · rw [if_neg (not_not.mpr hsub)]
        cases hr : decodeRow (cmdFam w) (cmdFn w) with
        | some i => exact .inl ⟨i, rfl, by rw [hsub, code_of_decodeRow hr], hrsv⟩
        | none => exact .inr rfl
      · exact .inr (if_pos hsub)
  · rw [if_pos hrsv, if_neg (not_and_of_not_right _ hrsv)]
    exact .inr rfl

/-- A word that decodes is the word of what it decodes to. -/
theorem encode_of_decode {w : Word} {i : Instr} (h : decode w = .ok i) : encode i = w := by
  rcases decode_cases w with ⟨j, hj, hcode, hrsv⟩ | he
  · cases hj.symm.trans h
    rw [encode_of_code hcode, word_eq_fields hrsv]
  · cases he.symm.trans h

/-- Settles O4: decoding and encoding are inverse to each other. -/
theorem decodeReadsExactlyTheEncodedWords : Obligations.DecodeReadsExactlyTheEncodedWords := by
  intro w i
  constructor
  · exact encode_of_decode
  · rintro rfl
    exact decode_encode i

theorem decode_of_not_encoded {w : Word} (h : ∀ i : Instr, encode i ≠ w) : decode w = .error (decodeErrorOf w) := by
  rcases decode_cases w with ⟨i, hi, -⟩ | he
  · exact absurd (encode_of_decode hi) (h i)
  · exact he

/-- Settles O5: the word is no operation, so it is sorted by its family and `RSV`. -/
theorem rejectedWordsAreSortedByFamily : Obligations.RejectedWordsAreSortedByFamily := by
  intro w hw
  rw [decode_of_not_encoded hw, decodeErrorOf, cmdFam, cmdRsv]
  by_cases hsort : w.toNat / 4096 = 2 ∧ w.toNat % 16 = 0
  · rw [if_pos hsort]
    exact ⟨iff_of_true rfl hsort, iff_of_false nofun (not_not.mpr hsort)⟩
  · rw [if_neg hsort]
    exact ⟨iff_of_false nofun hsort, iff_of_true rfl hsort⟩

/-- Settles O6: thirteen words of operations, and three that are none. -/
theorem opcodeMapWordsDecode : Obligations.OpcodeMapWordsDecode :=
  ⟨decode_encode .seqRead, decode_encode .seqWrite, decode_encode .encUint, decode_encode .decText,
    decode_encode .encLat, decode_encode .decLon, decode_encode .msg1, decode_encode .msg21, decode_encode .msg24a,
    decode_encode .msg24b, decode_encode .fillbits, decode_encode .reassemble, decode_encode .parse,
    by decide, by decide, by decide⟩

/-- Settles O8: the step is the rejection of the word in the state that accepted the transaction. -/
theorem stepRejectsOtherWords : Obligations.StepRejectsOtherWords := by
  intro s t rest hin
  refine ⟨fun hdec => ?_, fun hdec hfault => ?_, fun hdec hresp => ?_⟩
  · rw [step_of_decode_error hin hdec]
    rfl
  · rw [step_of_decode_error hin hdec, rejectCommand, accept_cfg, hfault]
  · rw [step_of_decode_error hin hdec, rejectCommand, accept_cfg, hresp]
    rfl

end Sys2Proof.Machine

/-! SUPPORT. The layouts of the messages (30_encoding.md R64 to R74): a payload is read field by field from its head,
each field a slice at the place where the one before it ends. -/

namespace Sys2Proof.Machine

/-! ### Reading a payload field by field -/

/-- From position `lo` on, `B` is `T`. -/
def RestAt (B : Bits) (lo : Nat) (T : Bits) : Prop := B.drop lo = T

theorem RestAt.next {B F T : Bits} {lo hi : Nat} (h : RestAt B lo (F ++ T)) (hl : lo + F.length = hi) :
    RestAt B hi T := by
  rw [RestAt, ← hl, ← List.drop_drop, h, List.drop_left]

theorem RestAt.slice_eq {B F T : Bits} {lo hi : Nat} (h : RestAt B lo (F ++ T)) (hl : lo + F.length = hi + 1) :
    slice B lo hi = F := by
  rw [slice, h]
  exact List.take_left' (by omega)

/-- The field at the head of the rest, and then the fields after it. -/
theorem RestAt.field {B F T : Bits} {lo hi : Nat} {P : Prop} (h : RestAt B lo (F ++ T))
    (rest : RestAt B (hi + 1) T → P) (hl : lo + F.length = hi + 1 := by simp) : slice B lo hi = F ∧ P :=
  ⟨h.slice_eq hl, rest (h.next hl)⟩

/-- The last field. -/
theorem RestAt.last {B F : Bits} {lo hi : Nat} (h : RestAt B lo F) (hl : lo + F.length = hi + 1 := by simp) :
    slice B lo hi = F :=
  RestAt.slice_eq (T := []) (by rwa [List.append_nil]) hl

/-- A constant of `w` bits, read by its value. -/
theorem RestAt.constant {B T : Bits} {lo hi w v : Nat} {P : Prop} (h : RestAt B lo (uBits w v ++ T))
    (rest : RestAt B (hi + 1) T → P) (hv : v < 2 ^ w) (hl : lo + w = hi + 1 := by rfl) :
    uval (slice B lo hi) = v ∧ P := by
  have hl' : lo + (uBits w v).length = hi + 1 := by rwa [uBits_length]
  rw [h.slice_eq hl', uval_uBits hv]
  exact ⟨rfl, rest (h.next hl')⟩

/-- The header of every payload (30_encoding.md R64). -/
theorem RestAt.header {B T : Bits} {t : Nat} {repeatInd mmsi : Int} {P : Prop}
    (h : RestAt B 0 (msgHeader t repeatInd mmsi ++ T)) (ht : t < 2 ^ 6) (rest : RestAt B 38 T → P) :
    uval (slice B 0 5) = t ∧ slice B 6 7 = encUintField 2 repeatInd ∧ slice B 8 37 = encUintField 30 mmsi ∧ P := by
  simp only [msgHeader, List.append_assoc] at h
  exact h.constant (fun h => h.field fun h => h.field rest) ht

/-- The dimensions of a ship (41_messages.md R179). -/
theorem RestAt.dims {B T : Bits} {lo : Nat} {d : Dims} {P : Prop} (h : RestAt B lo (dimsBits d ++ T))
    (rest : RestAt B (lo + 29 + 1) T → P) :
    slice B lo (lo + 8) = encUintField 9 d.toBow ∧ slice B (lo + 9) (lo + 17) = encUintField 9 d.toStern ∧
      slice B (lo + 18) (lo + 23) = encUintField 6 d.toPort ∧
      slice B (lo + 24) (lo + 29) = encUintField 6 d.toStarboard ∧ P := by
  simp only [dimsBits, List.append_assoc] at h
  exact h.field fun h => h.field fun h => h.field fun h => h.field rest

/-- The body that types 18 and 19 share (41_messages.md R181). -/
theorem RestAt.classBBody {B T : Bits} {tie : RoundTie} {t : Nat} {r : ClassBCommon} {P : Prop}
    (h : RestAt B 0 (cbBody tie t r ++ T)) (ht : t < 2 ^ 6) (rest : RestAt B 139 T → P) :
    uval (slice B 0 5) = t ∧ slice B 6 7 = encUintField 2 r.repeatInd ∧ slice B 8 37 = encUintField 30 r.mmsi ∧
      slice B 38 45 = zeros 8 ∧ slice B 46 55 = encSog tie r.sog ∧ slice B 56 56 = [r.posAcc] ∧
      slice B 57 84 = encLon tie r.lon ∧ slice B 85 111 = encLat tie r.lat ∧ slice B 112 123 = encCog tie r.cog ∧
      slice B 124 132 = encHdg r.heading ∧ slice B 133 138 = encTstamp r.timestamp ∧ P := by
  simp only [cbBody, List.append_assoc] at h
  refine h.header ht fun h => ?_
  iterate 7 refine h.field fun h => ?_
  exact h.field rest

/-- An operation that reads a record and answers bits of it. -/
theorem answer_bits_of_read {i : Instr} {α : Type} {m : Except OpError α} {r : α} {s : State} (h : m = .ok r)
    (f : α → Bits) :
    answer i (do let r ← m; return .bits (f r)) s = .next (s.answered (.bits (f r))) := by
  rw [h]
  rfl

/-- A bit string that is answered, held to what its fields say of it. -/
theorem exists_payload {o : Host.Outcome State Fault Refusal} {s : State} {X : Bits} {n : Nat} {P : Bits → Prop}
    (ho : o = .next (s.answered (.bits X))) (hl : X.length = n) (hP : ∀ B, RestAt B 0 X → P B) :
    ∃ B : Bits, o = .next (s.answered (.bits B)) ∧ B.length = n ∧ P B :=
  ⟨X, ho, hl, hP X rfl⟩

/-! ### The layouts -/

/-- Settles O37: the type code is that of the operation, and every field after the header follows the one before it. -/
theorem positionReportLayout : Obligations.PositionReportLayout := by
  refine ⟨rfl, rfl, rfl, fun s r hr p hp => ?_⟩
  have hread := readPosRec_ok_iff.mpr hr
  obtain ⟨ht, hexec⟩ : p.2 < 2 ^ 6 ∧ exec p.1 s = .next (s.answered (.bits (posBody s.cfg.roundTie p.2 r))) := by
    simp only [List.mem_cons, List.not_mem_nil, or_false] at hp
    rcases hp with rfl | rfl | rfl <;> exact ⟨by decide, answer_bits_of_read hread _⟩
  refine exists_payload hexec (posBody_length _ _ _) fun B h => ?_
  simp only [posBody, List.append_assoc] at h
  refine h.header ht fun h => ?_
  iterate 12 refine h.field fun h => ?_
  exact h.last

/-- Settles O39: field by field. -/
theorem baseStationReportLayout : Obligations.BaseStationReportLayout := by
  refine ⟨rfl, fun s r hr =>
    exists_payload (answer_bits_of_read (readBaseRec_ok_iff.mpr hr) _) (msg4Bits_length _ _) fun B h => ?_⟩
  simp only [msg4Bits, List.append_assoc] at h
  refine h.header (by decide) fun h => ?_
  iterate 12 refine h.field fun h => ?_
  exact h.last

/-- Settles O40: field by field, the dimensions as one group. -/
theorem voyageDataLayout : Obligations.VoyageDataLayout := by
  refine ⟨rfl, fun s r hr =>
    exists_payload (answer_bits_of_read (readVoyRec_ok_iff.mpr hr) _) (msg5Bits_length _ _) fun B h => ?_⟩
  simp only [msg5Bits, List.append_assoc] at h
  refine h.header (by decide) fun h => ?_
  iterate 5 refine h.field fun h => ?_
  refine h.dims fun h => ?_
  iterate 5 refine h.field fun h => ?_
  exact h.last

/-- Settles O41: the shared class B body, then field by field. -/
theorem classBReportLayout : Obligations.ClassBReportLayout := by
  refine ⟨rfl, fun s r hr =>
    exists_payload (answer_bits_of_read (readClassBRec_ok_iff.mpr hr) _) (msg18Bits_length _ _) fun B h => ?_⟩
  simp only [msg18Bits, List.append_assoc] at h
  refine h.classBBody (by decide) fun h => ?_
  iterate 8 refine h.field fun h => ?_
  exact h.last

/-- Settles O42: the shared class B body, then field by field, the dimensions as one group. -/
theorem classBExtendedReportLayout : Obligations.ClassBExtendedReportLayout := by
  refine ⟨rfl, fun s r hr =>
    exists_payload (answer_bits_of_read (readClassBExtRec_ok_iff.mpr hr) _) (msg19Bits_length _ _) fun B h => ?_⟩
  simp only [msg19Bits, List.append_assoc] at h
  refine h.classBBody (by decide) fun h => ?_
  iterate 3 refine h.field fun h => ?_
  refine h.dims fun h => ?_
  iterate 4 refine h.field fun h => ?_
  exact h.last

/-- The vendor check of MSG24B passes (41_messages.md R188, R189). -/
theorem exec_msg24b_ok {s : State} {r : PartBRec} (hr : PartBRecOf s r) (hv : r.vendor.length = 42) :
    exec .msg24b s = .next (s.answered (.bits (msg24bBits r))) := by
  simp only [exec, execMsg24b, readPartBRec_ok_iff.mpr hr, msg24b, hv, ne_eq, not_true_eq_false, if_false, ok_bind,
    pure_ok, answer_ok]

/-- The vendor check of MSG24B fails (41_messages.md R188). -/
theorem exec_msg24b_vendor {s : State} {r : PartBRec} (hr : PartBRecOf s r) (hv : r.vendor.length ≠ 42) :
    exec .msg24b s = raise .msg24b (.operand .vendor) s := by
  simp only [exec, execMsg24b, readPartBRec_ok_iff.mpr hr, msg24b, if_pos hv, ok_bind, error_bind, answer_error]

/-- Settles O44: the two layouts, and the check of the vendor's 42 bits. -/
theorem staticDataReportLayout : Obligations.StaticDataReportLayout := by
  refine ⟨rfl, rfl, fun s r hr => ?_, fun s r hr => ⟨fun hv => ?_, fun hv => ?_⟩⟩
  · refine exists_payload (answer_bits_of_read (readPartARec_ok_iff.mpr hr) _) (msg24aBits_length _) fun B h => ?_
    simp only [msg24aBits, List.append_assoc] at h
    exact h.header (by decide) fun h => h.constant (fun h => h.field fun h => h.last) (by decide)
  · refine exists_payload (exec_msg24b_ok hr hv) (msg24bBits_length _ hv) fun B h => ?_
    simp only [msg24bBits, List.append_assoc] at h
    refine h.header (by decide) fun h => h.constant (fun h => ?_) (by decide)
    refine h.field fun h => h.field (fun h => ?_) (by rw [hv])
    refine h.field fun h => h.dims fun h => ?_
    exact h.field fun h => h.last
  · rw [exec_msg24b_vendor hr hv]
    exact raise_operand _ _ _

/-! ### The variable length of MSG21 (41_messages.md R184, R185) -/

theorem RestAt.bytePad {B X : Bits} (h : RestAt B 0 (bytePad X)) : ∃ k, RestAt B 0 (X ++ zeros k) := ⟨_, h⟩

theorem RestAt.eq_append {B T : Bits} {lo : Nat} (h : RestAt B lo T) (hT : 0 < T.length) :
    ∃ F : Bits, F.length = lo ∧ B = F ++ T := by
  have hlo : lo ≤ B.length := by
    rw [← h, List.length_drop] at hT
    omega
  exact ⟨B.take lo, List.length_take_of_le hlo, by rw [← h, List.take_append_drop]⟩

theorem RestAt.getD_zeros {B : Bits} {lo j k : Nat} (h : RestAt B lo (zeros k)) (hlo : lo ≤ j) (hj : j < B.length) :
    B.getD j true = false := by
  have hmem : B[j] ∈ B.drop lo := List.mem_drop_iff_getElem.mpr ⟨j - lo, by omega, by congr 1; omega⟩
  rw [h] at hmem
  rw [List.getD_eq_getElem _ _ hj, List.eq_of_mem_replicate hmem]

theorem encTextField_name20 (s : Chars) : encTextField 20 (name20 s) = encTextField 20 s := by
  rw [encTextField, encTextField, name20, padText_padText]

theorem msg21Bits_length (tie : RoundTie) (r : AtonRec) :
    (msg21Bits tie r).length = 8 * ((272 + 6 * (min r.name.length 34 - 20) + 7) / 8) := by
  rw [msg21Bits, bytePad_length]
  simp [nameExt_length]
  omega

/-- Settles O43: the fixed part field by field, then the characters of the extension, then the padding. -/
theorem aidToNavigationLayout : Obligations.AidToNavigationLayout := by
  refine ⟨rfl, fun s r hr => ?_⟩
  have hlen := msg21Bits_length s.cfg.roundTie r
  refine exists_payload (answer_bits_of_read (readAtonRec_ok_iff.mpr hr) _) hlen fun B h => ?_
  obtain ⟨k, h⟩ := h.bytePad
  simp only [encTextField_name20, List.append_assoc] at h
  refine h.header (by decide) fun h => ?_
  iterate 5 refine h.field fun h => ?_
  refine h.dims fun h => ?_
  iterate 8 refine h.field fun h => ?_
  refine ⟨fun c hc hc' => ?_, fun j hj hj' => ?_⟩
  · obtain ⟨F, hF, rfl⟩ := h.eq_append (by rw [List.length_append, nameExt_length]; omega)
    have hchar := nameExt_slice F (zeros k) r.name hF (c - 20) (by omega)
    rwa [Nat.add_sub_cancel' hc] at hchar
  · exact (h.next (by rw [nameExt_length])).getD_zeros hj hj'

end Sys2Proof.Machine

/-! SUPPORT. Framing (43_framer.md R235, R236) and the pseudo-operations made of it (30_encoding.md R76, R81). -/

namespace Sys2Proof.Machine

/-! ### FRAME_AIVDM -/

/-- The characters between `!` and `*` of a fragment's sentence (30_encoding.md R76). -/
def aivdmBody (g : Fragment) : Chars :=
  ascii "AIVDM," ++ [BitVec.ofInt 8 (48 + g.total), ord ',', BitVec.ofInt 8 (48 + g.index), ord ','] ++
    g.seqid ++ [ord ',', if g.chan = .a then ord 'A' else ord 'B', ord ','] ++ g.payload ++
    [ord ',', BitVec.ofInt 8 (48 + g.fill)]

/-- The fields that FRAME_AIVDM gives to BUILD (43_framer.md R235). -/
def aivdmFields (g : Fragment) : List Chars :=
  [decimal g.total.toNat, decimal g.index.toNat, g.seqid, chanChars g.chan, g.payload, decimal g.fill.toNat]

theorem decimal_toNat {v : Int} (h0 : 0 ≤ v) (h9 : v ≤ 9) : decimal v.toNat = [BitVec.ofInt 8 (48 + v)] := by
  obtain ⟨n, rfl⟩ := Int.eq_ofNat_of_zero_le h0
  rw [Int.toNat_natCast, decimal_digit (by omega)]
  exact congrArg (fun c => [c]) (BitVec.ofInt_natCast 8 (48 + n)).symm

theorem chanChars_eq (c : Chan) : chanChars c = [if c = .a then ord 'A' else ord 'B'] := by
  cases c <;> rfl

theorem aivdmBody_eq {g : Fragment} (h : g.inRange = true) :
    ascii "AI" ++ ascii "VDM" ++ joinFields (aivdmFields g) = aivdmBody g := by
  simp only [Fragment.inRange, Bool.and_eq_true, decide_eq_true_eq] at h
  have htalker : ascii "AIVDM," = ascii "AI" ++ ascii "VDM" ++ [ord ','] := by decide
  rw [aivdmFields, decimal_toNat (by omega) (by omega), decimal_toNat (by omega) (by omega),
    decimal_toNat (v := g.fill) (by omega) (by omega), chanChars_eq, aivdmBody, htalker]
  simp [joinFields]

/-- BUILD of a fragment's fields, with its length check (43_framer.md R235, 44_nmea.md R263). -/
theorem frameAivdm_of_inRange {g : Fragment} (h : g.inRange = true) :
    frameAivdm g = if 61 < g.seqid.length + g.payload.length then .error .malformedSentence
      else .ok (renderSentence (ascii "AI") (ascii "VDM") (aivdmFields g)) := by
  have hlong : maxSentence < (renderSentence (ascii "AI") (ascii "VDM") (aivdmFields g)).length ↔
      61 < g.seqid.length + g.payload.length := by
    rw [aivdmFields, frame_length h, maxSentence]
    omega
  rw [frameAivdm, fragmentOk_eq, if_pos h, build, if_neg (by decide), if_neg (by decide)]
  exact if_congr hlong rfl rfl

/-- The sentence of a fragment, its checksum digits written out (44_nmea.md R260, R261, R263). -/
theorem renderSentence_aivdm {g : Fragment} (h : g.inRange = true) {x : Nat}
    (hx : x = ((aivdmBody g).foldr (fun c y => c ^^^ y) 0).toNat) :
    renderSentence (ascii "AI") (ascii "VDM") (aivdmFields g) = ord '!' :: aivdmBody g ++
      [ord '*', (ascii "0123456789ABCDEF").getD (x / 16) 0, (ascii "0123456789ABCDEF").getD (x % 16) 0, 13, 10] := by
  rw [checksum_foldr] at hx
  rw [renderSentence, aivdmBody_eq h, hex2_eq, ← hx]
  simp [prefixOf, crlf]

theorem exec_frameAivdm {s : State} {g : Fragment} (h : readFragment s .f = .ok g) :
    exec .frameAivdm s = answer .frameAivdm (frameAivdm g >>= fun S => .ok (.sentence S)) s := by
  simp only [exec, execFrameAivdm, h, ok_bind, pure_ok]

/-- Settles O51, by the range check, and then by the length of the sentence. -/
theorem frameAivdmIsCharacterExact : Obligations.FrameAivdmIsCharacterExact := by
  refine ⟨rfl, fun s g hg => ⟨fun hin => ?_, fun hout => ?_⟩⟩
  · refine ⟨aivdmBody g, _, rfl, rfl, fun hfits => ?_, fun hlong => ?_⟩
    · rw [exec_frameAivdm hg, frameAivdm_of_inRange hin, if_neg (by omega), renderSentence_aivdm hin rfl]
      rfl
    · rw [exec_frameAivdm hg, frameAivdm_of_inRange hin, if_pos hlong]
      rfl
  · rw [exec_frameAivdm hg, frameAivdm_of_not_inRange hout]
    exact raise_operand _ _ _

/-! ### A payload of one fragment -/

/-- The only fragment of a payload of at most 336 bits is in range and short enough to frame (43_framer.md R232, R239).
-/
theorem frameAivdm_single (B : Bits) (chan : Chan) (h : B.length ≤ 336) :
    ∃ A, frameAivdm (mkFragment 1 1 [] chan B) = .ok A := by
  have hshort : ([] : Chars).length + (armor B).length ≤ 61 := by
    rw [armor_length, List.length_nil]
    omega
  obtain ⟨A, hA, -⟩ := frameAivdm_ok (g := mkFragment 1 1 [] chan B)
    (mkFragment_inRange (by decide) (by decide) (by decide) rfl) hshort
  exact ⟨A, hA⟩

theorem encodePayload_single {c : BitVec 4} {B : Bits} {chan : Chan} {A : Chars} (h : 1 ≤ B.length ∧ B.length ≤ 336)
    (hA : frameAivdm (mkFragment 1 1 [] chan B) = .ok A) : encodePayload c B chan = .ok (c, [A]) := by
  simp only [encodePayload, splitPayload_one h, frameAll, hA, ok_bind, pure_ok]

/-- `AIVDM.RAW` of a payload of one fragment emits its sentence and keeps the counter (43_framer.md R233). -/
theorem runAivdmRaw_single {s : State} {B : Bits} {chan : Chan} {A : Chars} (h : 1 ≤ B.length ∧ B.length ≤ 336)
    (hA : frameAivdm (mkFragment 1 1 [] chan B) = .ok A) :
    runAivdmRaw B chan s = .next ⟨s.answered (.sentences [A]), [⟨.ok, some (.sentences [A])⟩]⟩ := by
  have hB : readBits (s.accept [(.B, .bits B), (.chan, .chan chan)] s.input) .B = .ok B :=
    readBits_of_lookup rfl (h.2.trans ((by decide : 336 ≤ 3024).trans s.cfg.maxBufBits_ge))
  have hchan : readChan (s.accept [(.B, .bits B), (.chan, .chan chan)] s.input) .chan = .ok chan :=
    readChan_of_lookup rfl
  rw [runAivdmRaw, transact_eq_exec]
  simp only [exec, execEncodeAivdm, hB, hchan, encodePayload_single h hA, ok_bind, pure_ok, answerCtr_ok]
  rfl

/-- `AIVDM.MSG<t>` whose message operation answers a payload of one fragment (30_encoding.md R81). -/
theorem runAivdmMsg_single {kind : MsgKind} {r : OpRecord} {chan : Chan} {s : State} {B : Bits} {A : Chars}
    (hexec : exec (msgInstr kind) (s.accept r s.input) = .next ((s.accept r s.input).answered (.bits B)))
    (h : 1 ≤ B.length ∧ B.length ≤ 336) (hA : frameAivdm (mkFragment 1 1 [] chan B) = .ok A) :
    runAivdmMsg kind r chan s = .next ⟨s.answered (.sentences [A]), [⟨.ok, some (.sentences [A])⟩]⟩ := by
  rw [runAivdmMsg, transact_eq_exec, hexec]
  exact runAivdmRaw_single (s := (s.accept r s.input).answered (.bits B)) h hA

/-! ### STATIC24 (30_encoding.md R81, 70_reset_and_hazards.md R333) -/

theorem readInt_congr {s t : State} {fd : Field}
    (h : OpRecord.lookup s.operands fd = OpRecord.lookup t.operands fd) : readInt s fd = readInt t fd := by
  rw [readInt, readInt, h]

/-- The repeat indicator and the MMSI stand together in the header (30_encoding.md R64). -/
theorem slice_header (t : Nat) (repeatInd mmsi : Int) (T : Bits) :
    slice (msgHeader t repeatInd mmsi ++ T) 6 37 = encUintField 2 repeatInd ++ encUintField 30 mmsi := by
  rw [msgHeader, List.append_assoc, List.append_assoc, slice_append_right _ _ _ _ (by simp) (by decide), uBits_length,
    ← List.append_assoc, slice_append_left _ _ _ _ (by simp) (by decide)]
  exact slice_whole _ _ (by simp)

/-- Two records with one `repeat` and one `mmsi` make payloads that carry them (70_reset_and_hazards.md R333). -/
theorem static24_headers_eq {s : State} {ra rb : OpRecord} {a : PartARec} {b : PartBRec}
    (ha : PartARecOf (s.accept ra s.input) a) (hb : PartBRecOf (s.accept rb s.input) b) (h : Static24Paired ra rb) :
    slice (msg24aBits a) 6 37 = slice (msg24bBits b) 6 37 := by
  obtain ⟨hrep, hmmsi⟩ := h
  have hrepeat : a.repeatInd = b.repeatInd :=
    Except.ok.inj (ha.repeatInd.symm.trans ((readInt_congr hrep).trans hb.repeatInd))
  have hid : a.mmsi = b.mmsi := Except.ok.inj (ha.mmsi.symm.trans ((readInt_congr hmmsi).trans hb.mmsi))
  simp only [msg24aBits, msg24bBits, List.append_assoc, slice_header, hrepeat, hid]

/-- Settles O60: each part is a payload of one fragment, so its run is `AIVDM.MSG<t>` with one sentence. -/
theorem staticPairIsTwoSingleSentences : Obligations.StaticPairIsTwoSingleSentences := by
  intro s ra rb chan a b ha hb hv
  have hla := msg24aBits_length a
  have hlb := msg24bBits_length b hv
  obtain ⟨A, hA⟩ := frameAivdm_single (msg24aBits a) chan (by omega)
  obtain ⟨B, hB⟩ := frameAivdm_single (msg24bBits b) chan (by omega)
  have hrunA : runAivdmMsg .msg24a ra chan s =
      .next ⟨s.answered (.sentences [A]), [⟨.ok, some (.sentences [A])⟩]⟩ :=
    runAivdmMsg_single (answer_bits_of_read (readPartARec_ok_iff.mpr ha) _) (by omega) hA
  have hrunB : runAivdmMsg .msg24b rb chan (s.answered (.sentences [A])) =
      .next ⟨s.answered (.sentences [B]), [⟨.ok, some (.sentences [B])⟩]⟩ :=
    runAivdmMsg_single (s := s.answered (.sentences [A])) (exec_msg24b_ok hb hv) (by omega) hB
  have hrun : runStatic24 ra rb chan s = .next ⟨s.answered (.sentences [B]),
      [⟨.ok, some (.sentences [A])⟩, ⟨.ok, some (.sentences [B])⟩]⟩ := by
    simp only [runStatic24, hrunA, hrunB, List.singleton_append]
  have hfillA : fill (msg24aBits a).length = 0 := by rw [hla]; rfl
  have hfillB : fill (msg24bBits b).length = 0 := by rw [hlb]; rfl
  rw [mkFragment, hfillA] at hA
  rw [mkFragment, hfillB] at hB
  exact ⟨_, _, A, B, hA, hB, rfl, rfl, hrunA, hrunB, hrun, static24_headers_eq ha hb⟩

end Sys2Proof.Machine

/-! SUPPORT. How an operation answers or raises after its last computation, and that a field or message encoder never
rejects a value (40_bitfield.md R120, 60_exceptions.md R307). -/

namespace Sys2Proof.Machine

/-! ### A computation that answers, and one that raises -/

/-- An operation whose last computation gives `a`. -/
theorem answer_of_ok {op : Instr} {α : Type} {m : Except OpError α} {a : α} (h : m = .ok a) (f : α → Result)
    (s : State) : answer op (m >>= fun a => .ok (f a)) s = .next (s.answered (f a)) := by
  rw [h, ok_bind, answer_ok]

/-- An operation whose last computation raises OPERAND_ERROR. -/
theorem raises_of_error {op : Instr} {fd : Field} {α : Type} {m : Except OpError α} (h : m = .error (.operand fd))
    (f : α → Except OpError Result) (s : State) : RaisesOperandError op fd s (answer op (m >>= f) s) := by
  rw [h, error_bind, answer_error]
  exact raise_operand op fd s

/-! ### No field value is an error (40_bitfield.md R120, 60_exceptions.md R307) -/

/-- On a record well typed for the operands of `sig`, `m` gives a bit string. -/
def GivesBits (s : State) (sig : List (Field × OpType)) (m : Except OpError Result) : Prop :=
  OpRecord.wellTyped s.cfg sig s.operands = true → ∃ B, m = .ok (.bits B)

theorem GivesBits.ok {s : State} {B : Bits} : GivesBits s [] (.ok (.bits B)) := fun _ => ⟨B, rfl⟩

/-- Reading the first operands, then giving bits from the others. -/
theorem Reads.thenBits {s : State} {sig sig' : List (Field × OpType)} {α : Type} {m : Except OpError α}
    {k : α → Except OpError Result} (hm : Reads s sig m) (hk : ∀ a, GivesBits s sig' (k a)) :
    GivesBits s (sig ++ sig') (m >>= k) := by
  intro hw
  rw [wellTyped_append, Bool.and_eq_true] at hw
  obtain ⟨hfst, hrest⟩ := hw
  obtain ⟨a, rfl⟩ := hm.ok hfst
  exact hk a hrest

/-- Reading the last operands, then writing bits that depend on nothing else. -/
theorem Reads.bits {s : State} {sig : List (Field × OpType)} {α : Type} {m : Except OpError α} {f : α → Bits}
    (hm : Reads s sig m) : GivesBits s sig (do let a ← m; return .bits (f a)) :=
  List.append_nil sig ▸ hm.thenBits fun _ => .ok

theorem GivesBits.answer {i : Instr} {s : State} {sig : List (Field × OpType)} {m : Except OpError Result}
    (h : GivesBits s sig m) (hw : OpRecord.wellTyped s.cfg sig s.operands = true) :
    ∃ B, answer i m s = .next (s.answered (.bits B)) := by
  obtain ⟨B, rfl⟩ := h hw
  exact ⟨B, answer_ok i _ s⟩

/-- MSG24B of a well-typed record with a vendor of 42 bits (41_messages.md R188, R189). -/
theorem exec_msg24b_bits {s : State} (hw : OpRecord.wellTyped s.cfg partBRecFields s.operands = true) {V : Bits}
    (hV : OpRecord.lookup s.operands .vendor = some (.bits V)) (hlen : V.length = 42) :
    ∃ B, exec .msg24b s = .next (s.answered (.bits B)) := by
  obtain ⟨r, hr⟩ := (reads_partBRec s).ok hw
  have hof := readPartBRec_ok_iff.mp hr
  obtain ⟨hlook, -⟩ := readBits_ok hof.vendor
  have hvendor : r.vendor = V := by simpa [hlook] using hV
  exact ⟨_, exec_msg24b_ok hof (hvendor ▸ hlen)⟩

/-- Settles O18. A field encoder reads its operands and writes a field from any of their values, a message encoder a
payload from any record; MSG24B alone has a check of its own, which the vendor passes. -/
theorem encodingNeverRejectsAValue : Obligations.EncodingNeverRejectsAValue := by
  intro i s hi hw hvendor
  cases i with
  | encLat | encLon | encSog | encCog | encRot | encDraught => exact (reads_optReal s _).bits.answer hw
  | encHdg | encTstamp => exact (reads_optInt s _).bits.answer hw
  | encEta =>
    exact GivesBits.answer ((reads_optInt s _).thenBits fun _ => (reads_optInt s _).thenBits fun _ =>
      (reads_optInt s _).thenBits fun _ => (reads_optInt s _).bits) hw
  | msg1 | msg2 | msg3 => exact (reads_posRec s).bits.answer hw
  | msg4 => exact (reads_baseRec s).bits.answer hw
  | msg5 => exact (reads_voyRec s).bits.answer hw
  | msg18 => exact (reads_classBRec s).bits.answer hw
  | msg19 => exact (reads_classBExtRec s).bits.answer hw
  | msg21 => exact (reads_atonRec s).bits.answer hw
  | msg24a => exact (reads_partARec s).bits.answer hw
  | msg24b =>
    obtain ⟨V, hV, hlen⟩ := hvendor rfl
    exact exec_msg24b_bits hw hV hlen
  | _ => exact absurd hi (by decide)

end Sys2Proof.Machine

/-! SUPPORT. The generic encoders and decoders (40_bitfield.md R122 to R130): what they write and read, and that the one
reads what the other writes (R144). -/

namespace Sys2Proof.Machine

/-! ### Integer fields (40_bitfield.md R122, R123, R124, R127, R128) -/

section Width

variable {w : Int}

theorem encUint_ok (h : 1 ≤ w ∧ w ≤ 32) (v : Int) : encUint w v = .ok (encUintField w.toNat v) :=
  if_pos ((widthOk_iff w).mpr h)

theorem encSint_ok (h : 1 ≤ w ∧ w ≤ 32) (v : Int) : encSint w v = .ok (encSintField w.toNat v) :=
  if_pos ((widthOk_iff w).mpr h)

theorem encScaled_ok (h : 1 ≤ w ∧ w ≤ 32) (tie : RoundTie) (signed : Bool) (scale x : Rat) :
    encScaled tie w signed scale x = .ok (if signed then encSintField w.toNat (roundQ tie (x * scale))
      else encUintField w.toNat (roundQ tie (x * scale))) :=
  if_pos ((widthOk_iff w).mpr h)

theorem not_widthOk (h : w < 1 ∨ 32 < w) : ¬ widthOk w = true := by
  rw [widthOk_iff]
  omega

theorem encUint_error (h : w < 1 ∨ 32 < w) (v : Int) : encUint w v = .error (.operand .w) := if_neg (not_widthOk h)

theorem encSint_error (h : w < 1 ∨ 32 < w) (v : Int) : encSint w v = .error (.operand .w) := if_neg (not_widthOk h)

theorem encScaled_error (h : w < 1 ∨ 32 < w) (tie : RoundTie) (signed : Bool) (scale x : Rat) :
    encScaled tie w signed scale x = .error (.operand .w) := if_neg (not_widthOk h)

end Width

theorem exec_encUint {s : State} {w v : Int} (hw : readInt s .w = .ok w) (hv : readInt s .v = .ok v) :
    exec .encUint s = answer .encUint (encUint w v >>= fun B => .ok (.bits B)) s := by
  simp only [exec, execEncUint, hw, hv, ok_bind, pure_ok]

theorem exec_encSint {s : State} {w v : Int} (hw : readInt s .w = .ok w) (hv : readInt s .v = .ok v) :
    exec .encSint s = answer .encSint (encSint w v >>= fun B => .ok (.bits B)) s := by
  simp only [exec, execEncSint, hw, hv, ok_bind, pure_ok]

theorem exec_encScaled {s : State} {w : Int} {sg : Bool} {scale x : Rat} (hw : readInt s .w = .ok w)
    (hsg : readBool s .signed = .ok sg) (hscale : readReal s .scale = .ok scale) (hx : readReal s .x = .ok x) :
    exec .encScaled s =
      answer .encScaled (encScaled s.cfg.roundTie w sg scale x >>= fun B => .ok (.bits B)) s := by
  simp only [exec, execEncScaled, hw, hsg, hscale, hx, ok_bind, pure_ok]

/-- The answer of a field that `ENC_UINT` writes. -/
theorem answersUnsigned_encUintField {op : Instr} {m : Except OpError Bits} {w : Nat} {v : Int}
    (h : m = .ok (encUintField w v)) (s : State) :
    AnswersUnsigned s (answer op (m >>= fun B => .ok (.bits B)) s) w (max 0 (min (2 ^ w - 1) v)) :=
  ⟨_, answer_of_ok h _ s, encUintField_length w v, uval_encUintField w v⟩

/-- The answer of a field that `ENC_SINT` writes. -/
theorem answersSigned_encSintField {op : Instr} {m : Except OpError Bits} {w : Nat} {v : Int}
    (h : m = .ok (encSintField w v)) (hw : 1 ≤ w) (s : State) :
    AnswersSigned s (answer op (m >>= fun B => .ok (.bits B)) s) w
      (max (-2 ^ (w - 1)) (min (2 ^ (w - 1) - 1) v)) :=
  ⟨_, answer_of_ok h _ s, encSintField_length w v, sval_encSintField hw v⟩

/-- Settles O21, by the check of the width. -/
theorem encUintClampsToTheField : Obligations.EncUintClampsToTheField := by
  refine ⟨rfl, fun s w v hw hv => ?_⟩
  rw [exec_encUint hw hv]
  exact ⟨fun hin => answersUnsigned_encUintField (encUint_ok hin v) s,
    fun hout => raises_of_error (encUint_error hout v) _ s⟩

/-- Settles O22, by the check of the width. -/
theorem encSintClampsToTheField : Obligations.EncSintClampsToTheField := by
  refine ⟨rfl, fun s w v hw hv => ?_⟩
  rw [exec_encSint hw hv]
  exact ⟨fun hin => answersSigned_encSintField (encSint_ok hin v) (by omega) s,
    fun hout => raises_of_error (encSint_error hout v) _ s⟩

/-- Settles O23, by the check of the width and the two kinds of field. -/
theorem encScaledRoundsThenClamps : Obligations.EncScaledRoundsThenClamps := by
  refine ⟨rfl, fun s w sg scale x hw hsg hscale hx => ?_⟩
  rw [exec_encScaled hw hsg hscale hx]
  refine ⟨fun hin hs => ?_, fun hin hs => ?_, fun hout => raises_of_error (encScaled_error hout _ _ _ _) _ s⟩
  · subst hs
    exact answersSigned_encSintField (encScaled_ok hin _ true _ _) (by omega) s
  · subst hs
    exact answersUnsigned_encUintField (encScaled_ok hin _ false _ _) s

theorem decUint_ok {B : Bits} (h : 1 ≤ B.length ∧ B.length ≤ 32) : decUint B = .ok (uval B) :=
  if_pos ((fieldLenOk_iff B).mpr h)

theorem decSint_ok {B : Bits} (h : 1 ≤ B.length ∧ B.length ≤ 32) : decSint B = .ok (sval B) :=
  if_pos ((fieldLenOk_iff B).mpr h)

theorem not_fieldLenOk {B : Bits} (h : B.length < 1 ∨ 32 < B.length) : ¬ fieldLenOk B = true := by
  rw [fieldLenOk_iff]
  omega

theorem decUint_error {B : Bits} (h : B.length < 1 ∨ 32 < B.length) : decUint B = .error (.operand .B) :=
  if_neg (not_fieldLenOk h)

theorem decSint_error {B : Bits} (h : B.length < 1 ∨ 32 < B.length) : decSint B = .error (.operand .B) :=
  if_neg (not_fieldLenOk h)

theorem exec_decUint {s : State} {B : Bits} (h : readBits s .B = .ok B) :
    exec .decUint s = answer .decUint (decUint B >>= fun v => .ok (.int v)) s := by
  simp only [exec, execDecUint, h, ok_bind, pure_ok]

theorem exec_decSint {s : State} {B : Bits} (h : readBits s .B = .ok B) :
    exec .decSint s = answer .decSint (decSint B >>= fun v => .ok (.int v)) s := by
  simp only [exec, execDecSint, h, ok_bind, pure_ok]

/-- The sign is the first bit (00_scope.md R8). -/
theorem sval_eq_of_head (B : Bits) :
    sval B = if B.head? = some true then (uval B : Int) - 2 ^ B.length else uval B := by
  cases B with
  | nil => rfl
  | cons b B => cases b <;> rfl

/-- Settles O25, by the check of the length. -/
theorem decUintAndDecSintReadTheField : Obligations.DecUintAndDecSintReadTheField := by
  refine ⟨rfl, rfl, fun s B hB => ?_⟩
  rw [exec_decUint hB, exec_decSint hB, ← sval_eq_of_head]
  exact ⟨fun hin => ⟨answer_of_ok (decUint_ok hin) _ s, answer_of_ok (decSint_ok hin) _ s⟩,
    fun hout => ⟨raises_of_error (decUint_error hout) _ s, raises_of_error (decSint_error hout) _ s⟩⟩

/-! ### Text (40_bitfield.md R125, R126, R129, R130) -/

theorem encText_ok {maxBufBits : Nat} {n : Int} (h : 1 ≤ n ∧ 6 * n ≤ maxBufBits) (t : Chars) :
    encText maxBufBits n t = .ok (encTextField n.toNat t) := if_neg (by omega)

theorem encText_error {maxBufBits : Nat} {n : Int} (h : n < 1 ∨ (maxBufBits : Int) < 6 * n) (t : Chars) :
    encText maxBufBits n t = .error (.operand .n) := if_pos h

theorem exec_encText {s : State} {n : Int} {t : Chars} (hn : readInt s .n = .ok n) (ht : readChars s .s = .ok t) :
    exec .encText s = answer .encText (encText s.cfg.maxBufBits n t >>= fun B => .ok (.bits B)) s := by
  simp only [exec, execEncText, hn, ht, ok_bind, pure_ok]

/-- Character `i` of the padded text: that of the text, or a space where it has none (40_bitfield.md R126). -/
theorem padText_getElem (n : Nat) (t : Chars) (i : Nat) (h : i < (padText n t).length) :
    (padText n t)[i] = t.getD i 32 := by
  rw [padText_length] at h
  simp only [padText, List.getElem_take, List.getElem_append, List.getElem_replicate]
  split
  · rw [List.getD_eq_getElem]
  · rw [List.getD_eq_default _ _ (by omega)]

/-- Six bits from position `6 i` on. -/
theorem slice_six (B : Bits) (i : Nat) : slice B (6 * i) (6 * i + 5) = (B.drop (6 * i)).take 6 := by
  rw [slice]
  congr 1
  omega

/-- Six bits of a text field are the code of one character of the padded text (40_bitfield.md R126). -/
theorem uval_encTextField_slice {n i : Nat} (h : i < n) (t : Chars) :
    uval (slice (encTextField n t) (6 * i) (6 * i + 5)) = sixbit (t.getD i 32) := by
  have hi : i < (padText n t).length := by rwa [padText_length]
  rw [slice_six, encTextField, textBits_group _ i hi, padText_getElem, uval_uBits (sixbit_lt _)]

/-- Settles O24, by the check of the count. -/
theorem encTextPadsTruncatesAndMaps : Obligations.EncTextPadsTruncatesAndMaps := by
  refine ⟨rfl, fun s n t hn ht => ?_⟩
  rw [exec_encText hn ht]
  refine ⟨fun hin => ⟨_, answer_of_ok (encText_ok hin t) _ s, ?_, fun i hi => ?_⟩,
    fun hout => raises_of_error (encText_error hout t) _ s⟩
  · rw [encTextField_length]
    omega
  · exact uval_encTextField_slice (by omega) t

theorem decText_ok {B : Bits} (h : B.length % 6 = 0) :
    decText B = .ok ((sixGroups (B.length / 6) B).map fun g => unsixbit (uval g)) := if_neg (not_not.mpr h)

theorem decText_error {B : Bits} (h : B.length % 6 ≠ 0) : decText B = .error (.operand .B) := if_pos h

theorem exec_decText {s : State} {B : Bits} (h : readBits s .B = .ok B) :
    exec .decText s = answer .decText (decText B >>= fun S => .ok (.chars S)) s := by
  simp only [exec, execDecText, h, ok_bind, pure_ok]

/-- The value of six bits is a code of a character. -/
theorem uval_slice_six_lt (B : Bits) (i : Nat) : uval (slice B (6 * i) (6 * i + 5)) < 64 := by
  have hlen : (slice B (6 * i) (6 * i + 5)).length ≤ 6 := by
    rw [slice_six]
    exact List.length_take_le _ _
  exact lt_of_lt_of_le (uval_lt _) (Nat.pow_le_pow_right (by decide) hlen)

/-- Settles O26, by the check of the length. -/
theorem decTextMapsEverySixBits : Obligations.DecTextMapsEverySixBits := by
  refine ⟨rfl, fun s B hB => ?_⟩
  rw [exec_decText hB]
  refine ⟨fun hin => ⟨_, answer_of_ok (decText_ok hin) _ s, ?_, fun i hi => ?_⟩,
    fun hout => raises_of_error (decText_error hout) _ s⟩
  · rw [List.length_map, sixGroups_length]
  · rw [List.getElem_map, sixGroups_getElem, ← slice_six]
    exact unsixbit_toNat (uval_slice_six_lt B i)

/-! ### Round trips (40_bitfield.md R144, R129) -/

theorem decUint_encUint {w v : Int} (hw : 1 ≤ w ∧ w ≤ 32) (h0 : 0 ≤ v) (h1 : v ≤ 2 ^ w.toNat - 1) :
    ∃ B, encUint w v = .ok B ∧ decUint B = .ok v := by
  refine ⟨_, encUint_ok hw v, ?_⟩
  rw [decUint_ok (by rw [encUintField_length]; omega), uval_encUintField, min_eq_right h1, max_eq_right h0]

theorem decSint_encSint {w v : Int} (hw : 1 ≤ w ∧ w ≤ 32) (h0 : -2 ^ (w.toNat - 1) ≤ v)
    (h1 : v ≤ 2 ^ (w.toNat - 1) - 1) : ∃ B, encSint w v = .ok B ∧ decSint B = .ok v := by
  refine ⟨_, encSint_ok hw v, ?_⟩
  rw [decSint_ok (by rw [encSintField_length]; omega), sval_encSintField (by omega), min_eq_right h1, max_eq_right h0]

/-- UNSIXBIT inverts SIXBIT on the characters that have a code (40_bitfield.md R129). -/
theorem unsixbit_sixbit {c : Char8} (h : 32 ≤ c.toNat ∧ c.toNat ≤ 95) : unsixbit (sixbit c) = c := by
  apply BitVec.eq_of_toNat_eq
  rw [unsixbit_toNat (sixbit_lt c)]
  by_cases h63 : c.toNat ≤ 63
  · have hcode : sixbit c = c.toNat := if_pos ⟨h.1, h63⟩
    rw [hcode, if_neg (by omega)]
  · have hcode : sixbit c = c.toNat - 64 := by rw [sixbit, if_neg (by omega), if_pos (by omega)]
    rw [hcode, if_pos (by omega), Nat.sub_add_cancel (by omega)]

theorem padText_self (t : Chars) : padText t.length t = t := List.take_left' rfl

/-- The groups of a text's bits are the codes of its characters, in order. -/
theorem sixGroups_textBits (t : Chars) :
    sixGroups t.length (textBits t) = t.map fun c => uBits 6 (sixbit c) := by
  induction t with
  | nil => rfl
  | cons c t ih =>
    have happend : textBits (c :: t) = uBits 6 (sixbit c) ++ textBits t := rfl
    rw [happend, List.length_cons, sixGroups_append (uBits_length _ _), ih, List.map_cons]

theorem decText_textBits {t : Chars} (h : ∀ c ∈ t, 32 ≤ c.toNat ∧ c.toNat ≤ 95) : decText (textBits t) = .ok t := by
  have hlen := textBits_length t
  have hchar : ∀ c ∈ t, unsixbit (uval (uBits 6 (sixbit c))) = c := fun c hc => by
    rw [uval_uBits (sixbit_lt c), unsixbit_sixbit (h c hc)]
  rw [decText_ok (by omega), hlen, Nat.mul_div_cancel_left _ (by decide), sixGroups_textBits, List.map_map]
  exact congrArg Except.ok ((List.map_congr_left hchar).trans (List.map_id' t))

/-- Settles O27. -/
theorem integerAndTextFieldsRoundTrip : Obligations.IntegerAndTextFieldsRoundTrip := by
  refine ⟨fun w v hlo hhi => ⟨decUint_encUint ⟨hlo, hhi⟩, decSint_encSint ⟨hlo, hhi⟩⟩, fun t ht => ?_⟩
  rw [encTextField, padText_self]
  exact decText_textBits ht

end Sys2Proof.Machine

/-! SUPPORT. The field encoders and decoders (40_bitfield.md R131 to R142): scaling, clamping and the not-available
values, and what a coordinate reads back as (R144). -/

namespace Sys2Proof.Machine

/-! ### Fields with a not-available value (40_bitfield.md R120, R121) -/

/-- An unsigned field that is `na` where `c` holds, and a clamped value otherwise. -/
theorem uval_marked {c : Prop} [Decidable c] {w na : Nat} {v hi : Int} (hna : na < 2 ^ w) (h0 : 0 ≤ hi)
    (hhi : hi < 2 ^ w) :
    (uval (if c then uBits w na else uBits w (clamp v 0 hi).toNat) : Int) = if c then ↑na else max 0 (min hi v) := by
  split
  · rw [uval_uBits hna]
  · exact uval_uBits_clamp h0 hhi

/-- A signed field that is `na` where `c` holds, and a clamped value otherwise. -/
theorem sval_marked {c : Prop} [Decidable c] {w : Nat} {v na lo hi : Int} (hw : 0 < w) (hlo : -2 ^ (w - 1) ≤ lo)
    (hhi : hi < 2 ^ (w - 1)) (hna : lo ≤ na ∧ na ≤ hi) :
    sval (if c then sBits w na else sBits w (clamp v lo hi)) = if c then na else max lo (min hi v) := by
  split
  · exact sval_sBits hw (hlo.trans hna.1) (hna.2.trans_lt hhi)
  · exact sval_sBits_clamp hw (hna.1.trans hna.2) hlo hhi

theorem sval_encLat_none (tie : RoundTie) : sval (encLat tie none) = 54600000 :=
  sval_sBits (by decide) (by decide) (by decide)

theorem sval_encLat_some (tie : RoundTie) (q : Rat) :
    sval (encLat tie (some q)) =
      if q = 91 then 54600000 else max (-67108864) (min 67108863 (roundQ tie (q * 600000))) :=
  sval_marked (by decide) (by decide) (by decide) (by decide)

theorem sval_encLon_none (tie : RoundTie) : sval (encLon tie none) = 108600000 :=
  sval_sBits (by decide) (by decide) (by decide)

theorem sval_encLon_some (tie : RoundTie) (q : Rat) :
    sval (encLon tie (some q)) =
      if q = 181 then 108600000 else max (-134217728) (min 134217727 (roundQ tie (q * 600000))) :=
  sval_marked (by decide) (by decide) (by decide) (by decide)

/-- Settles O28, by whether the operand is ABSENT. -/
theorem encLatAndEncLonScaleClampAndSubstitute : Obligations.EncLatAndEncLonScaleClampAndSubstitute := by
  refine ⟨rfl, rfl, fun s x => ⟨fun hx => ⟨_, answer_bits_of_read hx _, encLat_length _ _, ?_⟩,
    fun hx => ⟨_, answer_bits_of_read hx _, encLon_length _ _, ?_⟩⟩⟩
  · cases x with
    | none => exact sval_encLat_none _
    | some q => exact sval_encLat_some _ q
  · cases x with
    | none => exact sval_encLon_none _
    | some q => exact sval_encLon_some _ q

/-- Settles O29, by whether the operand is ABSENT. -/
theorem encSogRoundsClampsAndSubstitutes : Obligations.EncSogRoundsClampsAndSubstitutes := by
  refine ⟨rfl, fun s x hx => ⟨_, answer_bits_of_read hx _, encSog_length _ _, ?_⟩⟩
  cases x with
  | none => rfl
  | some q => exact uval_marked (by decide) (by decide) (by decide)

/-- Settles O30, by whether the operand is ABSENT. -/
theorem encCogRoundsClampsAndSubstitutes : Obligations.EncCogRoundsClampsAndSubstitutes := by
  refine ⟨rfl, fun s x hx => ⟨_, answer_bits_of_read hx _, encCog_length _ _, ?_⟩⟩
  cases x with
  | none => rfl
  | some q => exact uval_marked (by decide) (by decide) (by decide)

/-- Settles O31, by whether the operand is ABSENT. -/
theorem encDraughtRoundsClampsAndSubstitutes : Obligations.EncDraughtRoundsClampsAndSubstitutes := by
  refine ⟨rfl, fun s x hx => ⟨_, answer_bits_of_read hx _, encDraught_length _ _, ?_⟩⟩
  cases x with
  | none => rfl
  | some q => exact uval_marked (by decide) (by decide) (by decide)

/-- Settles O32, by whether the operand is ABSENT. -/
theorem encHdgAndEncTstampClampAndSubstitute : Obligations.EncHdgAndEncTstampClampAndSubstitute := by
  refine ⟨rfl, rfl, fun s x => ⟨fun hx => ⟨_, answer_bits_of_read hx _, encHdg_length _, ?_⟩,
    fun hx => ⟨_, answer_bits_of_read hx _, encTstamp_length _, ?_⟩⟩⟩
  · cases x with
    | none => rfl
    | some h => exact uval_marked (by decide) (by decide) (by decide)
  · cases x with
    | none => rfl
    | some v => exact uval_uBits_clamp (by decide) (by decide)

/-! ### ENC_ROT (40_bitfield.md R136) -/

theorem rotMagnitude_eq (tie : RoundTie) (q : Rat) :
    rotMagnitude tie q = min 127 (rsqrt tie (4.733 ^ 2 * |q|)) := by
  have hk : rotKSq = 4.733 ^ 2 := by norm_num [rotKSq]
  rw [rotMagnitude, hk, min_comm]

theorem rotMagnitude_bounds (tie : RoundTie) (q : Rat) : 0 ≤ rotMagnitude tie q ∧ rotMagnitude tie q ≤ 127 := by
  have hm : 0 ≤ rotKSq * |q| := mul_nonneg (by norm_num [rotKSq]) (abs_nonneg q)
  obtain ⟨hroot, -⟩ := rsqrtIsNearestRootWithTieRule tie _ hm
  exact ⟨le_min hroot (by decide), min_le_right _ _⟩

/-- A rate of turn other than the marker is written as a signed magnitude of at most 127. -/
theorem sval_encRot_some (tie : RoundTie) {q : Rat} (hq : q ≠ 128) :
    sval (encRot tie (some q)) =
      if q = 0 then 0 else if 0 < q then rotMagnitude tie q else -rotMagnitude tie q := by
  obtain ⟨h0, h127⟩ := rotMagnitude_bounds tie q
  rw [encRot, if_neg hq]
  split
  · decide
  · split <;> exact sval_sBits (by decide) (by norm_num; omega) (by norm_num; omega)

/-- The not-available pattern (40_bitfield.md R121, R136). -/
theorem encRot_na (tie : RoundTie) {x : Option Rat} (hx : x = none ∨ x = some 128) : encRot tie x = uBits 8 128 := by
  rcases hx with rfl | rfl
  · rfl
  · rw [encRot, if_pos rfl]

/-- Settles O33, by whether the operand has the not-available pattern. -/
theorem encRotIsSignedRoundedRoot : Obligations.EncRotIsSignedRoundedRoot := by
  refine ⟨rfl, fun s x hx => ⟨fun hna => ⟨_, answer_bits_of_read hx _, encRot_length _ _, ?_⟩,
    fun q hq hne => ⟨_, answer_bits_of_read hx _, encRot_length _ _, ?_⟩⟩⟩
  · rw [encRot_na _ hna]
    decide
  · rw [hq, sval_encRot_some _ hne, rotMagnitude_eq]

/-! ### ENC_ETA (40_bitfield.md R139, R140) -/

theorem exec_encEta {s : State} {month day hour minute : Option Int} (hmonth : readOptInt s .month = .ok month)
    (hday : readOptInt s .day = .ok day) (hhour : readOptInt s .hour = .ok hour)
    (hminute : readOptInt s .minute = .ok minute) :
    exec .encEta s = .next (s.answered (.bits (encEta month day hour minute))) := by
  simp only [exec, execEncEta, hmonth, hday, hhour, hminute, ok_bind, pure_ok, answer_ok]

/-- A field that holds `CALFIELD`'s bits has the value in range, and the not-available value otherwise. -/
theorem uval_of_calField {F : Bits} {x : Option Int} {lo hi : Int} {na w : Nat} (hF : F = calField x lo hi na w)
    (hlo : 0 ≤ lo) (hhi : hi < 2 ^ w) (hna : na < 2 ^ w) :
    (∀ v, (x = some v ∧ lo ≤ v ∧ v ≤ hi) → (uval F : Int) = v) ∧
      (¬ (∃ v, x = some v ∧ lo ≤ v ∧ v ≤ hi) → uval F = na) := by
  subst hF
  refine ⟨?_, uval_calField_na hna⟩
  rintro v ⟨rfl, hge, hle⟩
  exact uval_calField_mem hlo hhi hge hle

/-- Settles O34: the four calendar fields, one after another. -/
theorem encEtaSubstitutesOutOfRangeFields : Obligations.EncEtaSubstitutesOutOfRangeFields := by
  refine ⟨rfl, fun s month day hour minute hmonth hday hhour hminute =>
    exists_payload (exec_encEta hmonth hday hhour hminute) (encEta_length _ _ _ _) fun B h => ?_⟩
  simp only [encEta, List.append_assoc] at h
  obtain ⟨hmo, hda, hho, hmi⟩ : slice B 0 3 = calField month 1 12 0 4 ∧ slice B 4 8 = calField day 1 31 0 5 ∧
      slice B 9 13 = calField hour 0 23 24 5 ∧ slice B 14 19 = calField minute 0 59 60 6 :=
    h.field fun h => h.field fun h => h.field fun h => h.last
  obtain ⟨monthIn, monthOut⟩ := uval_of_calField hmo (by decide) (by decide) (by decide)
  obtain ⟨dayIn, dayOut⟩ := uval_of_calField hda (by decide) (by decide) (by decide)
  obtain ⟨hourIn, hourOut⟩ := uval_of_calField hho (by decide) (by decide) (by decide)
  obtain ⟨minuteIn, minuteOut⟩ := uval_of_calField hmi (by decide) (by decide) (by decide)
  exact ⟨monthIn, monthOut, dayIn, dayOut, hourIn, hourOut, minuteIn, minuteOut⟩

/-! ### DEC_LAT and DEC_LON (40_bitfield.md R141, R142, R144) -/

/-- What a coordinate field of value `v` reads as, where `na` is the not-available value. -/
def coordinate (na v : Int) : LatVal := if v = na then .na else .deg ((v : Rat) / 600000)

theorem decLat_ok {B : Bits} (h : B.length = 27) : decLat B = .ok (coordinate 54600000 (sval B)) := by
  rw [decLat, if_neg (not_not.mpr h), coordinate]
  exact (apply_ite Except.ok _ _ _).symm

theorem decLon_ok {B : Bits} (h : B.length = 28) : decLon B = .ok (coordinate 108600000 (sval B)) := by
  rw [decLon, if_neg (not_not.mpr h), coordinate]
  exact (apply_ite Except.ok _ _ _).symm

theorem decLat_error {B : Bits} (h : B.length ≠ 27) : decLat B = .error (.operand .B) := if_pos h

theorem decLon_error {B : Bits} (h : B.length ≠ 28) : decLon B = .error (.operand .B) := if_pos h

theorem exec_decLat {s : State} {B : Bits} (h : readBits s .B = .ok B) :
    exec .decLat s = answer .decLat (decLat B >>= fun v => .ok (.latVal v)) s := by
  simp only [exec, execDecLat, h, ok_bind, pure_ok]

theorem exec_decLon {s : State} {B : Bits} (h : readBits s .B = .ok B) :
    exec .decLon s = answer .decLon (decLon B >>= fun v => .ok (.latVal v)) s := by
  simp only [exec, execDecLon, h, ok_bind, pure_ok]

/-- Settles O35, by the check of the length. -/
theorem decLatAndDecLonRecogniseTheSentinel : Obligations.DecLatAndDecLonRecogniseTheSentinel := by
  refine ⟨rfl, rfl, fun s B hB => ?_⟩
  rw [exec_decLat hB, exec_decLon hB]
  exact ⟨fun h => answer_of_ok (decLat_ok h) _ s, fun h => raises_of_error (decLat_error h) _ s,
    fun h => answer_of_ok (decLon_ok h) _ s, fun h => raises_of_error (decLon_error h) _ s⟩

theorem coordinate_eq_na_iff {na v : Int} : coordinate na v = .na ↔ v = na := by
  rw [coordinate]
  split <;> simp [*]

theorem coordinate_of_ne {na v : Int} (h : v ≠ na) : coordinate na v = .deg ((v : Rat) / 600000) := if_neg h

/-- Clamping to bounds around `na` gives `na` for no other number. -/
theorem clamped_eq_iff {na lo hi v : Int} (h : lo < na ∧ na < hi) : max lo (min hi v) = na ↔ v = na := by
  omega

/-- A field with a marker is the not-available value exactly for the marker and for a number that is that value. -/
theorem marked_eq_na_iff {c : Prop} [Decidable c] {na lo hi v : Int} (h : lo < na ∧ na < hi) :
    (if c then na else max lo (min hi v)) = na ↔ c ∨ v = na := by
  split
  · simp [*]
  · simp [*, clamped_eq_iff h]

theorem decLat_encLat (tie : RoundTie) (x : Option Rat) :
    decLat (encLat tie x) = .ok (coordinate 54600000 (sval (encLat tie x))) := decLat_ok (encLat_length tie x)

theorem decLon_encLon (tie : RoundTie) (x : Option Rat) :
    decLon (encLon tie x) = .ok (coordinate 108600000 (sval (encLon tie x))) := decLon_ok (encLon_length tie x)

/-- Settles O36. A coordinate reads back as not available exactly when its field holds that value. -/
theorem latLonRoundTrip : Obligations.LatLonRoundTrip := by
  refine ⟨fun tie x => ?_, fun tie q hq hr => ?_, fun tie x => ?_, fun tie q hq hr => ?_⟩
  · rw [decLat_encLat, Except.ok.injEq, coordinate_eq_na_iff]
    cases x with
    | none => simp [sval_encLat_none]
    | some q =>
      rw [sval_encLat_some, marked_eq_na_iff (by decide)]
      simp
  · rw [decLat_encLat, sval_encLat_some, if_neg hq, coordinate_of_ne ((clamped_eq_iff (by decide)).not.mpr hr)]
  · rw [decLon_encLon, Except.ok.injEq, coordinate_eq_na_iff]
    cases x with
    | none => simp [sval_encLon_none]
    | some q =>
      rw [sval_encLon_some, marked_eq_na_iff (by decide)]
      simp
  · rw [decLon_encLon, sval_encLon_some, if_neg hq, coordinate_of_ne ((clamped_eq_iff (by decide)).not.mpr hr)]

end Sys2Proof.Machine

/-! SUPPORT. The body that the position reports share (41_messages.md R172). -/

namespace Sys2Proof.Machine

/-- Only the first six bits of `POSBODY` depend on the type: what follows is that of any other type `u`. -/
theorem posBody_eq_append_drop (tie : RoundTie) (t u : Nat) (r : PosRec) :
    posBody tie t r = uBits 6 t ++ (posBody tie u r).drop 6 := by
  simp only [posBody, msgHeader, List.append_assoc]
  rw [List.drop_left' (uBits_length 6 u)]

/-- An operation that answers `POSBODY` of type `t` answers the code of `t` before the rest of a type-1 report. -/
theorem answer_posBody_of_read {s : State} {r : PosRec} (h : readPosRec s = .ok r) (i : Instr) (t : Nat) :
    answer i (do let r ← readPosRec s; return .bits (posBody s.cfg.roundTie t r)) s =
      .next (s.answered (.bits (uBits 6 t ++ (posBody s.cfg.roundTie 1 r).drop 6))) := by
  rw [← posBody_eq_append_drop]
  exact answer_bits_of_read h _

/-- Settles O38: the shared body is a type-1 report without its type code. -/
theorem positionReportsShareTheBody : Obligations.PositionReportsShareTheBody := by
  intro s r hr
  have hbody : ((posBody s.cfg.roundTie 1 r).drop 6).length = 162 := by
    rw [List.length_drop, posBody_length]
  exact ⟨uBits 6 1, uBits 6 2, uBits 6 3, (posBody s.cfg.roundTie 1 r).drop 6,
    answer_posBody_of_read hr .msg1 1, answer_posBody_of_read hr .msg2 2, answer_posBody_of_read hr .msg3 3,
    hbody, uBits_length 6 1, uBits_length 6 2, uBits_length 6 3,
    uval_uBits (by decide), uval_uBits (by decide), uval_uBits (by decide)⟩

end Sys2Proof.Machine

/-! SUPPORT. The armor (42_armor.md R210 to R215): what ARMOR, DEARMOR and FILLBITS answer, and that the two maps
between bits and characters are inverse to each other. -/

namespace Sys2Proof.Machine

/-! ### FILLBITS (42_armor.md R212) -/

theorem fill_toNat {n : Int} (h : 0 ≤ n) : (fill n.toNat : Int) = (6 - n % 6) % 6 := by
  rw [fill]
  omega

theorem fillbits_ok {n : Int} (h : 0 ≤ n) : fillbits n = .ok ((6 - n % 6) % 6) := by
  rw [fillbits, if_neg (not_lt.mpr h), fill_toNat h]

theorem fillbits_error {n : Int} (h : n < 0) : fillbits n = .error (.operand .n) := if_pos h

theorem exec_fillbits {s : State} {n : Int} (h : readInt s .n = .ok n) :
    exec .fillbits s = answer .fillbits (fillbits n >>= fun v => .ok (.int v)) s := by
  simp only [exec, execFillbits, h, ok_bind, pure_ok]

/-- Settles O47, by the sign of the count. -/
theorem fillbitsCountsThePadding : Obligations.FillbitsCountsThePadding := by
  refine ⟨rfl, fun s n hn => ?_⟩
  rw [exec_fillbits hn]
  exact ⟨fun hpos => answer_of_ok (fillbits_ok hpos) _ s, fun hneg => raises_of_error (fillbits_error hneg) _ s⟩

/-! ### ARMOR (42_armor.md R210, R211, R213) -/

/-- A bit string longer than its type's bound is not read (10_state.md R29). -/
theorem readBits_error_of_lookup {s : State} {fd : Field} {B : Bits}
    (h : OpRecord.lookup s.operands fd = some (.bits B)) (hl : s.cfg.maxBufBits < B.length) :
    readBits s fd = .error (.operand fd) := by
  simp only [readBits, h, if_neg (not_le.mpr hl)]

/-- Character `i` of an armored payload stands for the group `i` of the padded payload. -/
theorem armor_getElem_toNat (B : Bits) (i : Nat) (h : i < (armor B).length) :
    (armor B)[i].toNat = 48 + uval (slice (padSix B) (6 * i) (6 * i + 5)) := by
  simp only [armor, List.getElem_map]
  rw [sixGroups_getElem, ← slice_six]
  exact alpha_toNat (uval_slice_six_lt _ i)

/-- Settles O45, by the bound of the operand. -/
theorem armorMapsEverySixBits : Obligations.ArmorMapsEverySixBits := by
  refine ⟨rfl, fun s B hB => ⟨fun hin => ?_, fun hout => ?_⟩⟩
  · exact ⟨armor B, answer_of_ok (readBits_of_lookup hB hin) (fun B => .chars (armor B)) s, armor_length B,
      armor_getElem_toNat B⟩
  · exact raises_of_error (readBits_error_of_lookup hB hout) _ s

/-! ### DEARMOR (42_armor.md R214) -/

theorem dearmor_ok {maxBufBits : Nat} {S : Chars} (h : 6 * S.length ≤ maxBufBits) :
    dearmor maxBufBits S = .ok (dearmorBits S) := if_neg (not_lt.mpr h)

theorem dearmor_error {maxBufBits : Nat} {S : Chars} (h : maxBufBits < 6 * S.length) :
    dearmor maxBufBits S = .error (.operand .S) := if_pos h

theorem exec_dearmor {s : State} {S : Chars} (h : readChars s .S = .ok S) :
    exec .dearmor s = answer .dearmor (dearmor s.cfg.maxBufBits S >>= fun B => .ok (.bits B)) s := by
  simp only [exec, execDearmor, h, ok_bind, pure_ok]

theorem uval_dearmorChar (c : Char8) :
    uval (dearmorChar c) = if 48 ≤ c.toNat ∧ c.toNat ≤ 111 then c.toNat - 48 else 0 := by
  unfold dearmorChar
  split
  · exact uval_uBits (by omega)
  · exact uval_zeros 6

/-- Settles O46, by the bound of the result. -/
theorem dearmorMapsEveryCharacter : Obligations.DearmorMapsEveryCharacter := by
  refine ⟨rfl, fun s S hS => ?_⟩
  rw [exec_dearmor hS]
  refine ⟨fun hin => ⟨_, answer_of_ok (dearmor_ok hin) _ s, dearmorBits_length S, fun i hi => ?_⟩,
    fun hout => raises_of_error (dearmor_error hout) _ s⟩
  rw [dearmorBits_slice S i hi, uval_dearmorChar]

/-! ### Round trips (42_armor.md R215) -/

/-- The armored payload de-armors to the padded payload. -/
theorem dearmorBits_armor (B : Bits) : dearmorBits (armor B) = padSix B :=
  dearmorBits_groups _ _ (by rw [padSix_length]; omega)

/-- A bit string of whole groups is not padded. -/
theorem padSix_of_dvd {B : Bits} (h : 6 ∣ B.length) : padSix B = B := by
  have hfill : fill B.length = 0 := by
    rw [fill]
    omega
  rw [padSix, hfill]
  exact List.append_nil B

/-- The groups of a de-armored string are those of its characters, in order. -/
theorem sixGroups_dearmorBits (S : Chars) : sixGroups S.length (dearmorBits S) = S.map dearmorChar := by
  induction S with
  | nil => rfl
  | cons c S ih =>
    rw [dearmorBits_cons, List.length_cons, sixGroups_append (dearmorChar_length c), ih, List.map_cons]

theorem armor_dearmorBits (S : Chars) : armor (dearmorBits S) = S.map fun c => alpha (uval (dearmorChar c)) := by
  have hlen := dearmorBits_length S
  rw [armor, padSix_of_dvd ⟨S.length, hlen⟩, hlen, Nat.mul_div_cancel_left _ (by decide), sixGroups_dearmorBits,
    List.map_map]
  rfl

/-- Settles O48: the one way gives the padded payload, the other way each character as it is read back. -/
theorem armorRoundTrip : Obligations.ArmorRoundTrip := by
  refine ⟨dearmorBits_armor, fun S => ?_⟩
  rw [armor_dearmorBits]
  exact List.map_congr_left fun c _ => alpha_uval_dearmorChar c

end Sys2Proof.Machine

/-! SUPPORT. The framer (43_framer.md R230 to R239): the fragments of a payload, what SPLIT, ENCODE_AIVDM and REASSEMBLE
answer, and that REASSEMBLE puts together what SPLIT cut. -/

namespace Sys2Proof.Machine

/-! ### The fragments of a payload (43_framer.md R231, R232) -/

theorem fragCount_eq_succ {n : Nat} (h : 1 ≤ n) : fragCount n = (n - 1) / 336 + 1 := by
  rw [fragCount_eq]
  omega

/-- The fragments that SPLIT makes of `B`, with the seqid `q`: one for each chunk. -/
def fragmentsOf (q : Chars) (chan : Chan) (B : Bits) : List Fragment :=
  (List.range (fragCount B.length)).map fun i => mkFragment (fragCount B.length) (i + 1) q chan (chunk B i)

@[simp] theorem fragmentsOf_length (q : Chars) (chan : Chan) (B : Bits) :
    (fragmentsOf q chan B).length = fragCount B.length := by
  rw [fragmentsOf, List.length_map, List.length_range]

theorem fragmentsOf_getElem (q : Chars) (chan : Chan) (B : Bits) (i : Nat) (h : i < (fragmentsOf q chan B).length) :
    (fragmentsOf q chan B)[i] = mkFragment (fragCount B.length) (i + 1) q chan (chunk B i) := by
  simp only [fragmentsOf, List.getElem_map, List.getElem_range]

/-- A payload of at most 336 bits is its own only chunk. -/
theorem fragmentsOf_single {B : Bits} (h : 1 ≤ B.length ∧ B.length ≤ 336) (q : Chars) (chan : Chan) :
    fragmentsOf q chan B = [mkFragment 1 1 q chan B] := by
  have hcount : fragCount B.length = 1 := by
    rw [fragCount_eq]
    omega
  have hchunk : chunk B 0 = B := List.take_of_length_le h.2
  rw [fragmentsOf, hcount, List.range_one, List.map_singleton, hchunk]

/-- SPLIT answers the fragments of its payload, under a seqid in range. -/
theorem splitPayload_ok (c : BitVec 4) {B : Bits} (chan : Chan) (h : 1 ≤ B.length ∧ B.length ≤ 3024) :
    ∃ c' q, seqidInRange q = true ∧ splitPayload c B chan = .ok (c', fragmentsOf q chan B) := by
  by_cases hone : B.length ≤ 336
  · exact ⟨c, [], rfl, by rw [splitPayload_one ⟨h.1, hone⟩, fragmentsOf_single ⟨h.1, hone⟩]⟩
  · exact ⟨nextCtr c, _, seqidInRange_seqidOf (nextCtr_le c), splitPayload_many ⟨by omega, h.2⟩⟩

theorem chunk_eq_slice (B : Bits) (i : Nat) : chunk B i = slice B (336 * i) (336 * i + 335) := by
  have hlen : 336 * i + 335 + 1 - 336 * i = fragBits := by
    rw [fragBits]
    omega
  rw [slice, hlen, chunk, fragBits]

/-- Only the last chunk of a payload has a fill, and it is the payload's (43_framer.md R232). -/
theorem fill_chunk {B : Bits} {i : Nat} (h : i < fragCount B.length) :
    fill (chunk B i).length = if i + 1 < fragCount B.length then 0 else fill B.length := by
  rw [fragCount_eq] at h ⊢
  rw [chunk_length, fill, fill]
  split <;> omega

theorem mkFragment_fill (k i : Nat) (q : Chars) (chan : Chan) (C : Bits) :
    (mkFragment k i q chan C).fill = fill C.length := rfl

/-- A fragment's fill is within its own bits (42_armor.md R210). -/
theorem mkFragment_fill_le (k i : Nat) (q : Chars) (chan : Chan) (C : Bits) :
    (mkFragment k i q chan C).fill ≤ 6 * (mkFragment k i q chan C).payload.length := by
  simp only [mkFragment, armor_length, fill]
  omega

/-! ### SPLIT (43_framer.md R233, R234) -/

section Payload

variable {s : State} {B : Bits} {chan : Chan} {c : BitVec 4} {L : List Fragment} {T : List Chars}

theorem exec_split_ok (hB : readBits s .B = .ok B) (hchan : readChan s .chan = .ok chan)
    (h : splitPayload s.seqCtr B chan = .ok (c, L)) :
    exec .split s = .next ((s.setCtr c).answered (.fragments L)) := by
  simp only [exec, execSplit, hB, hchan, h, ok_bind, pure_ok, answerCtr_ok]

theorem exec_split_error (hB : readBits s .B = .ok B) (hchan : readChan s .chan = .ok chan)
    (h : B.length < 1 ∨ 3024 < B.length) : RaisesOperandError .split .B s (exec .split s) := by
  simp only [exec, execSplit, hB, hchan, splitPayload_error h, ok_bind, error_bind, answerCtr_error]
  exact raise_operand _ _ _

theorem exec_encodeAivdm_ok (hB : readBits s .B = .ok B) (hchan : readChan s .chan = .ok chan)
    (h : splitPayload s.seqCtr B chan = .ok (c, L)) (hT : frameAll L = .ok T) :
    exec .encodeAivdm s = .next ((s.setCtr c).answered (.sentences T)) := by
  simp only [exec, execEncodeAivdm, encodePayload, hB, hchan, h, hT, ok_bind, pure_ok, answerCtr_ok]

theorem exec_encodeAivdm_error (hB : readBits s .B = .ok B) (hchan : readChan s .chan = .ok chan)
    (h : B.length < 1 ∨ 3024 < B.length) : RaisesOperandError .encodeAivdm .B s (exec .encodeAivdm s) := by
  simp only [exec, execEncodeAivdm, encodePayload, hB, hchan, splitPayload_error h, ok_bind, error_bind,
    answerCtr_error]
  exact raise_operand _ _ _

end Payload

/-- Settles O49, by the length of the payload; above 336 bits, fragment by fragment. -/
theorem splitCutsAndNumbersThePayload : Obligations.SplitCutsAndNumbersThePayload := by
  refine ⟨rfl, fun s B chan hB hchan => ⟨fun hone => ?_, fun hmany => ?_, exec_split_error hB hchan⟩⟩
  · exact exec_split_ok hB hchan (splitPayload_one hone)
  · refine ⟨_, fragmentsOf _ chan B, exec_split_ok hB hchan (splitPayload_many hmany), nextCtr_toNat _,
      fragmentsOf_length _ _ _, fun i hi => ?_⟩
    rw [fragmentsOf_getElem, ← seqidOf_eq (nextCtr_le _), ← chunk_eq_slice]
    rw [fragmentsOf_length] at hi ⊢
    refine ⟨rfl, rfl, rfl, rfl, rfl, ?_⟩
    rw [mkFragment_fill, fill_chunk hi]
    rfl

/-! ### ENCODE_AIVDM (43_framer.md R236, R239) -/

/-- The frames of fragments that are in range and as short as those of SPLIT. -/
theorem frameAll_ok {L : List Fragment} (h : ∀ g ∈ L, g.inRange = true ∧ g.seqid.length + g.payload.length ≤ 57) :
    ∃ T, frameAll L = .ok T ∧ List.Forall₂ (fun g S => frameAivdm g = .ok S ∧ S.length ≤ 78) L T := by
  induction L with
  | nil => exact ⟨[], rfl, .nil⟩
  | cons g L ih =>
    obtain ⟨⟨hin, hshort⟩, hrest⟩ := List.forall_mem_cons.mp h
    obtain ⟨S, hS, hlen⟩ := frameAivdm_ok hin (by omega)
    obtain ⟨T, hT, hframes⟩ := ih hrest
    refine ⟨S :: T, ?_, .cons ⟨hS, by omega⟩ hframes⟩
    simp only [frameAll, hS, hT, ok_bind, pure_ok]

/-- Settles O50: every fragment of SPLIT is in range and short enough to frame. -/
theorem encodeAivdmFramesEveryFragment : Obligations.EncodeAivdmFramesEveryFragment := by
  refine ⟨rfl, fun s B chan hB hchan => ⟨fun hlen => ?_, exec_encodeAivdm_error hB hchan⟩⟩
  obtain ⟨c, L, hsplit, hL⟩ := splitPayload_inRange (c := s.seqCtr) (ch := chan) hlen
  obtain ⟨T, hT, hframes⟩ := frameAll_ok hL
  exact ⟨c, L, T, hsplit, exec_encodeAivdm_ok hB hchan hsplit hT, hframes.length_eq.symm,
    fun _ hi hi' => hframes.get hi hi'⟩

/-! ### REASSEMBLE (43_framer.md R237) -/

theorem fill_nonneg_of_inRange {g : Fragment} (h : g.inRange = true) : 0 ≤ g.fill := by
  simp only [Fragment.inRange, Bool.and_eq_true, decide_eq_true_eq] at h
  exact h.2.1

section Reassemble

variable {n : Nat} {L : List Fragment} {first last : Fragment}

/-- A non-empty list that no check of REASSEMBLE refuses is a reassemblable one. -/
theorem reassemblable_iff (hfirst : L.head? = some first) (hlast : L.getLast? = some last) :
    Reassemblable n L ↔ ¬ (maxFrags < L.length ∨ (!reassembleAllOk L.length first.seqid 0 L) = true ∨
      6 * last.payload.length < last.fill.toNat ∨ n < (dearmorAll L).length - last.fill.toNat) := by
  simp only [not_or, not_lt, Bool.not_eq_true', Bool.not_eq_false, dearmorAll_length, maxFrags]
  constructor
  · rintro ⟨f, l, hf, hl, hcount, hitems, hfill, hbuf⟩
    obtain rfl := Option.some.inj (hfirst.symm.trans hf)
    obtain rfl := Option.some.inj (hlast.symm.trans hl)
    have hall : reassembleAllOk L.length first.seqid 0 L = true :=
      (reassembleAllOk_iff _ _ _ _).mpr fun j hj => by
        rw [Nat.zero_add]
        exact (reassembleItemOk_iff _ _ _ _).mpr (hitems j hj)
    exact ⟨hcount, hall, by omega, by omega⟩
  · rintro ⟨hcount, hall, hfill, hbuf⟩
    have hpos := fill_nonneg_of_inRange (reassembleAllOk_inRange hall last (List.mem_of_getLast? hlast))
    refine ⟨first, last, hfirst, hlast, hcount, fun j hj => ?_, by omega, by omega⟩
    have hitem := (reassembleAllOk_iff _ _ _ _).mp hall j hj
    rw [Nat.zero_add] at hitem
    exact (reassembleItemOk_iff _ _ _ _).mp hitem

/-- The joined bits without the last fragment's fill. -/
theorem reassemble_ok (h : Reassemblable n L) (hlast : L.getLast? = some last) :
    reassemble n L = .ok ((dearmorAll L).take ((dearmorAll L).length - last.fill.toNat)) := by
  have ⟨first, _, hfirst, _⟩ := h
  simp only [reassemble, hfirst, hlast, ← ite_or]
  exact if_neg ((reassemblable_iff hfirst hlast).mp h)

theorem reassemble_error (h : ¬ Reassemblable n L) : reassemble n L = .error (.operand .L) := by
  cases hfirst : L.head? with
  | none => simp only [reassemble, hfirst]
  | some first =>
    cases hlast : L.getLast? with
    | none => simp only [reassemble, hfirst, hlast]
    | some last =>
      simp only [reassemble, hfirst, hlast, ← ite_or]
      exact if_pos (not_not.mp fun hn => h ((reassemblable_iff hfirst hlast).mpr hn))

end Reassemble

theorem exec_reassemble {s : State} {L : List Fragment} (h : readFragments s .L = .ok L) :
    exec .reassemble s = answer .reassemble (reassemble s.cfg.maxBufBits L >>= fun B => .ok (.bits B)) s := by
  simp only [exec, execReassemble, h, ok_bind, pure_ok]

/-- The last fill of a reassemblable list is no more than the joined bits. -/
theorem Reassemblable.fill_bounds {n : Nat} {L : List Fragment} (h : Reassemblable n L) {last : Fragment}
    (hlast : L.getLast? = some last) : 0 ≤ last.fill ∧ last.fill ≤ (dearmorAll L).length := by
  obtain ⟨_, l, -, hl, -, hitems, hfill, -⟩ := h
  obtain rfl := Option.some.inj (hlast.symm.trans hl)
  have hmem := List.mem_of_getLast? hlast
  obtain ⟨j, hj, hget⟩ := List.mem_iff_getElem.mp hmem
  have hsum := List.le_sum_of_mem (List.mem_map_of_mem (f := fun g : Fragment => g.payload.length) hmem)
  rw [dearmorAll_length]
  exact ⟨fill_nonneg_of_inRange (hget ▸ (hitems j hj).1), by omega⟩

/-- Settles O52: the answer is the joined bits without the last fill, which is what follows it in them. -/
theorem reassembleChecksThenJoins : Obligations.ReassembleChecksThenJoins := by
  refine ⟨rfl, fun s L hL => ?_⟩
  rw [exec_reassemble hL]
  refine ⟨fun h => ?_, fun h => raises_of_error (reassemble_error h) _ s⟩
  have ⟨_, last, _, hlast, _⟩ := h
  refine ⟨_, (dearmorAll L).drop _, answer_of_ok (reassemble_ok h hlast) _ s, List.take_append_drop _ _, fun l hl => ?_⟩
  obtain rfl := Option.some.inj (hlast.symm.trans hl)
  obtain ⟨hpos, hle⟩ := h.fill_bounds hlast
  rw [List.length_drop]
  omega

/-! ### REASSEMBLE of SPLIT (43_framer.md R238) -/

/-- A payload cut after whole fragments is padded at its end only. -/
theorem take_append_padSix_drop (B : Bits) (m : Nat) (h : 336 * m ≤ B.length) :
    B.take (336 * m) ++ padSix (B.drop (336 * m)) = padSix B := by
  have hfill : fill (B.drop (336 * m)).length = fill B.length := by
    rw [List.length_drop, fill, fill]
    omega
  rw [padSix, hfill, ← List.append_assoc, List.take_append_drop, padSix]

/-- The joined payloads of the fragments of `B` are `B` and its fill: every chunk but the last is whole groups. -/
theorem dearmorAll_fragmentsOf (q : Chars) (chan : Chan) {B : Bits} (h : 1 ≤ B.length) :
    dearmorAll (fragmentsOf q chan B) = padSix B := by
  obtain ⟨m, hm⟩ : ∃ m, fragCount B.length = m + 1 := ⟨_, fragCount_eq_succ h⟩
  rw [fragCount_eq] at hm
  have hlast : chunk B m = B.drop (336 * m) :=
    List.take_of_length_le (by rw [List.length_drop, fragBits]; omega)
  have hwhole : ∀ i ∈ List.range m, padSix (chunk B i) = chunk B i := fun i hi => by
    have hlt := List.mem_range.mp hi
    exact padSix_of_dvd (by rw [chunk_length]; omega)
  calc dearmorAll (fragmentsOf q chan B)
      = (List.range (m + 1)).flatMap fun i => padSix (chunk B i) := by
        simp only [dearmorAll, fragmentsOf, List.flatMap_map, mkFragment, dearmorBits_armor, fragCount_eq, hm]
    _ = (List.range m).flatMap (chunk B) ++ padSix (chunk B m) := by
        rw [List.range_succ, List.flatMap_append, List.flatMap_singleton, List.flatMap_congr hwhole]
    _ = padSix B := by
        rw [flatMap_chunk, hlast, take_append_padSix_drop B m (by omega)]

/-- The last fragment has the payload's fill, which is within its own bits. -/
theorem fragmentsOf_getLast? (q : Chars) (chan : Chan) {B : Bits} (h : 1 ≤ B.length) :
    ∃ last, (fragmentsOf q chan B).getLast? = some last ∧ last.fill = fill B.length ∧
      last.fill ≤ 6 * last.payload.length := by
  obtain ⟨m, hm⟩ : ∃ m, fragCount B.length = m + 1 := ⟨_, fragCount_eq_succ h⟩
  have hlt : m < (fragmentsOf q chan B).length := by
    rw [fragmentsOf_length]
    omega
  refine ⟨(fragmentsOf q chan B)[m], ?_, ?_⟩
  · rw [List.getLast?_eq_getElem?, fragmentsOf_length, hm, Nat.add_sub_cancel, List.getElem?_eq_getElem hlt]
  · rw [fragmentsOf_getElem]
    refine ⟨?_, mkFragment_fill_le _ _ _ _ _⟩
    rw [mkFragment_fill, fill_chunk (by omega), if_neg (by omega)]

/-- The fragments of a payload of 1 to 3024 bits pass every check of REASSEMBLE. -/
theorem fragmentsOf_reassemblable {q : Chars} (hq : seqidInRange q = true) (chan : Chan) {B : Bits} {n : Nat}
    (h : 1 ≤ B.length ∧ B.length ≤ 3024) (hn : 3024 ≤ n) : Reassemblable n (fragmentsOf q chan B) := by
  obtain ⟨last, hlast, hfill, hbits⟩ := fragmentsOf_getLast? q chan h.1
  have hcount : 1 ≤ fragCount B.length ∧ fragCount B.length ≤ 9 := by
    rw [fragCount_eq]
    omega
  have hlen := fragmentsOf_length q chan B
  have hfirst : (fragmentsOf q chan B).head? = some (mkFragment (fragCount B.length) 1 q chan (chunk B 0)) := by
    rw [List.head?_eq_getElem?, List.getElem?_eq_getElem (by omega), fragmentsOf_getElem]
  have hjoin := dearmorAll_length (fragmentsOf q chan B)
  rw [dearmorAll_fragmentsOf q chan h.1, padSix, List.length_append, zeros_length] at hjoin
  refine ⟨_, last, hfirst, hlast, by omega, fun i hi => ?_, hbits, by omega⟩
  rw [fragmentsOf_getElem]
  rw [hlen] at hi ⊢
  refine ⟨mkFragment_inRange (by omega) hi hcount.2 hq, rfl, rfl, rfl, fun hnext => ?_⟩
  rw [mkFragment_fill, fill_chunk hi, if_pos hnext]
  rfl

/-- The payloads of SPLIT's fragments are within the buffers of any block (10_state.md R29). -/
theorem readFragments_of_split {t : State} {c c' : BitVec 4} {B : Bits} {chan : Chan} {L : List Fragment}
    (h : splitPayload c B chan = .ok (c', L)) (hL : OpRecord.lookup t.operands .L = some (.fragments L)) :
    readFragments t .L = .ok L :=
  readFragments_of_lookup hL fun g hg => ((splitPayload_yields c B chan _ h g hg).2).trans t.cfg.maxBufChars_ge

/-- Settles O53: SPLIT's fragments pass REASSEMBLE's checks, and what they join to is the payload and its fill. -/
theorem reassembleInvertsSplit : Obligations.ReassembleInvertsSplit := by
  intro s t B chan hB hchan hmin hmax
  obtain ⟨c, q, hq, hsplit⟩ := splitPayload_ok s.seqCtr chan ⟨hmin, hmax⟩
  refine ⟨_, _, exec_split_ok hB hchan hsplit, rfl, fun hL => ?_⟩
  obtain ⟨last, hlast, hfill, -⟩ := fragmentsOf_getLast? q chan hmin
  have hchecks := fragmentsOf_reassemblable hq chan ⟨hmin, hmax⟩ t.cfg.maxBufBits_ge
  have hjoin : (dearmorAll (fragmentsOf q chan B)).take
      ((dearmorAll (fragmentsOf q chan B)).length - last.fill.toNat) = B := by
    rw [dearmorAll_fragmentsOf q chan hmin, hfill, padSix]
    exact List.take_left' (by simp)
  have hre := reassemble_ok hchecks hlast
  rw [hjoin] at hre
  rw [exec_reassemble (readFragments_of_split hsplit hL)]
  exact answer_of_ok hre _ t

/-! ### The counter over a run of SPLITs (43_framer.md R233, 70_reset_and_hazards.md R334) -/

/-- One presented SPLIT of more than 336 bits. -/
theorem step_split_many {s : State} {x : Transaction} {rest : List HostEvent} {B : Bits} {chan : Chan}
    (hin : s.input = .transact x :: rest) (hcmd : x.cmd = 0x4000)
    (hB : OpRecord.lookup x.operands .B = some (.bits B)) (hlen : 336 < B.length ∧ B.length ≤ 3024)
    (hchan : OpRecord.lookup x.operands .chan = some (.chan chan)) :
    ∃ u, step s = .next u ∧ u.seqCtr = nextCtr s.seqCtr ∧ u.input = rest := by
  have hread : readBits (s.accept x.operands rest) .B = .ok B :=
    readBits_of_lookup hB (hlen.2.trans s.cfg.maxBufBits_ge)
  have hdec : decode x.cmd = .ok .split := by
    rw [hcmd]
    exact decode_encode .split
  rw [step_of_decode_ok hin hdec, exec_split_ok hread (readChan_of_lookup hchan) (splitPayload_many hlen)]
  exact ⟨_, rfl, rfl, rfl⟩

/-- Settles O54, by induction on the presented transactions. -/
theorem counterCountsMultiFragmentMessages : Obligations.CounterCountsMultiFragmentMessages := by
  intro ts
  induction ts with
  | nil =>
    intro s _ hin hctr
    exact ⟨s, run_zero s, (Nat.mod_eq_of_lt (by simpa using Nat.lt_succ_of_le hctr)).symm, hin⟩
  | cons x ts ih =>
    intro s hts hin hctr
    obtain ⟨⟨hcmd, ⟨B, hB, hlen⟩, chan, hchan⟩, hrest⟩ := List.forall_mem_cons.mp hts
    obtain ⟨t, hstep, hnext, hinput⟩ := step_split_many hin hcmd hB hlen hchan
    have hmoved : t.seqCtr.toNat = (s.seqCtr.toNat + 1) % 10 := hnext ▸ nextCtr_toNat _
    obtain ⟨u, hrun, hcount, hempty⟩ := ih t hrest hinput (by omega)
    refine ⟨u, (run_succ hstep _).trans hrun, ?_, hempty⟩
    rw [hcount, List.length_cons]
    omega

end Sys2Proof.Machine

/-! SUPPORT. The NMEA framework (44_nmea.md R260 to R267): what CHECKSUM, BUILD and PARSE answer, and that PARSE reads
back what BUILD builds. -/

namespace Sys2Proof.Machine

/-! ### PARSE of a text without its terminator (44_nmea.md R265) -/

section Stripped

variable {S T : Chars}

theorem parse_of_long (dflt : TalkerId) (hT : stripCrLf S = T) (h : 82 < T.length + 2) :
    parse dflt S = .error .malformedSentence := by
  rw [parse, hT, maxSentence, if_pos h]

theorem parse_of_noPrefix (dflt : TalkerId) (hT : stripCrLf S = T)
    (h : T.head? ≠ some (ord '$') ∧ T.head? ≠ some (ord '!')) : parse dflt S = .error .malformedSentence := by
  rw [parse, hT]
  cases T with
  | nil => exact ite_self _
  | cons c T =>
    have hc : ¬ (c = ord '$' ∨ c = ord '!') := by simpa using h
    simp only [if_neg hc, ite_self]

theorem parse_of_prefix {pre : Char8} (dflt : TalkerId) (hT : stripCrLf S = pre :: T)
    (hpre : pre = ord '!' ∨ pre = ord '$') (h : (pre :: T).length + 2 ≤ 82) : parse dflt S = parseFramed dflt T := by
  rw [parse, hT, maxSentence, if_neg (not_lt.mpr h)]
  exact if_pos hpre.symm

theorem parseFramed_noStar (dflt : TalkerId) (h : ord '*' ∉ T) : parseFramed dflt T = .error .malformedSentence := by
  rw [parseFramed, dropWhile_noStar h]

/-- A text without `*` is refused, whichever check of PARSE meets it first. -/
theorem parse_of_noStar (dflt : TalkerId) (hT : stripCrLf S = T) (h : ord '*' ∉ T) :
    parse dflt S = .error .malformedSentence := by
  by_cases hlong : 82 < T.length + 2
  · exact parse_of_long dflt hT hlong
  cases T with
  | nil => exact parse_of_noPrefix dflt hT (by simp)
  | cons pre T =>
    by_cases hpre : pre = ord '!' ∨ pre = ord '$'
    · rw [parse_of_prefix dflt hT hpre (not_lt.mp hlong)]
      exact parseFramed_noStar dflt fun hstar => h (List.mem_cons_of_mem _ hstar)
    · exact parse_of_noPrefix dflt hT (by simpa using (not_or.mp hpre).symm)

end Stripped

/-! ### PARSE of a framed sentence (44_nmea.md R265, R266) -/

section Framed

variable {body h : Chars}

theorem parseFramed_of_none (dflt : TalkerId) (hstar : ord '*' ∉ body) (hh : hexPair h = none) :
    parseFramed dflt (body ++ ord '*' :: h) = .error .malformedSentence := by
  simp only [parseFramed, dropWhile_star hstar, hh]

theorem parseFramed_of_some (dflt : TalkerId) {v : Char8} (hstar : ord '*' ∉ body) (hh : hexPair h = some v) :
    parseFramed dflt (body ++ ord '*' :: h) =
      if checksum body ≠ v then .error .checksumMismatch else parseBody dflt body (checksum body) := by
  simp only [parseFramed, dropWhile_star hstar, takeWhile_star hstar, hh]

/-- The length check of PARSE on a sentence with its `!` or `$` and a `*`. -/
theorem parse_framed (dflt : TalkerId) {pre : Char8} {tail : Chars} (hpre : pre = ord '!' ∨ pre = ord '$')
    (htail : ∀ c ∈ tail, c = 13 ∨ c = 10) (hh : ∀ c, h.getLast? = some c → c ≠ 13 ∧ c ≠ 10) :
    parse dflt (pre :: body ++ ord '*' :: h ++ tail) =
      if 82 < body.length + h.length + 4 then .error .malformedSentence
      else parseFramed dflt (body ++ ord '*' :: h) := by
  have hT := stripCrLf_append htail (sentence_getLast (pre := pre) (body := body) hh)
  have hlen : (pre :: body ++ ord '*' :: h).length + 2 = body.length + h.length + 4 := by
    simp only [List.length_append, List.length_cons]
    omega
  split
  next hlong => exact parse_of_long dflt hT (by rwa [hlen])
  next hfits => exact parse_of_prefix dflt hT hpre (hlen.trans_le (not_lt.mp hfits))

/-- The checks of a body of an address and fields, and its record. -/
theorem parseBody_join (dflt : TalkerId) {addr : Chars} {fields : List Chars} (x : Char8) (ha : ord ',' ∉ addr)
    (hf : ∀ g ∈ fields, ord ',' ∉ g) :
    parseBody dflt (addr ++ joinFields fields) x =
      if addr.length ≠ 5 then .error .malformedSentence
      else if addr.drop 2 ∉ sentenceIds then .error .unsupportedSentenceType
      else .ok
        { talker := if addr.take 2 ∈ talkerIds then addr.take 2 else talkerChars dflt
          sid := addr.drop 2
          fields := fields
          checksum := x } := by
  rw [parseBody, splitComma_join ha hf]

end Framed

/-! ### PARSE of BUILD (44_nmea.md R267) -/

/-- What BUILD answers with is a rendered sentence that passed its checks (44_nmea.md R263). -/
theorem build_yields_rendered (talker sid : Chars) (fields : List Chars) :
    Yields (fun S => talker.length = 2 ∧ sid ∈ sentenceIds ∧ (renderSentence talker sid fields).length ≤ 82 ∧
      S = renderSentence talker sid fields) (build talker sid fields) :=
  .unless fun htalker => .unless fun hsid => .unless fun hlen =>
    .ok ⟨not_not.mp htalker, not_not.mp hsid, not_lt.mp hlen, rfl⟩

theorem prefixOf_eq_or (sid : Chars) : prefixOf sid = ord '!' ∨ prefixOf sid = ord '$' := ite_eq_or_eq _ _ _

theorem sentenceId_noMark : ∀ sid ∈ sentenceIds, ord ',' ∉ sid ∧ ord '*' ∉ sid := by decide

theorem joinFields_noStar {fields : List Chars} (h : ∀ g ∈ fields, ord '*' ∉ g) : ord '*' ∉ joinFields fields := by
  rw [joinFields, List.mem_flatMap]
  rintro ⟨g, hg, hstar⟩
  rcases List.mem_cons.mp hstar with hcomma | hmem
  · exact absurd hcomma (by decide)
  · exact h g hg hmem

theorem hex2_getLast (v : Char8) : ∀ c, (hex2 v).getLast? = some c → c ≠ 13 ∧ c ≠ 10 := by
  have hdigit : ∀ n : Fin 16, hexDigit n ≠ 13 ∧ hexDigit n ≠ 10 := by decide
  rintro c ⟨⟩
  exact hdigit ⟨v.toNat % 16, Nat.mod_lt _ (by decide)⟩

/-- PARSE of a rendered sentence is PARSE's last steps on its body: the first character, the star, the checksum text and
the terminator are those PARSE looks for. -/
theorem parse_renderSentence (dflt : TalkerId) {talker sid : Chars} {fields : List Chars}
    (hlen : (renderSentence talker sid fields).length ≤ 82)
    (hstar : ord '*' ∉ talker ++ sid ++ joinFields fields) :
    parse dflt (renderSentence talker sid fields) =
      parseBody dflt (talker ++ sid ++ joinFields fields) (checksum (talker ++ sid ++ joinFields fields)) := by
  have hfits : ¬ 82 < (talker ++ sid ++ joinFields fields).length + 2 + 4 := by
    rw [renderSentence_length] at hlen
    rw [List.length_append, List.length_append, joinFields_length]
    omega
  rw [renderSentence, parse_framed dflt (prefixOf_eq_or sid) (by decide) (hex2_getLast _), hex2_length, if_neg hfits,
    parseFramed_of_some dflt hstar (hexPair_hex2 _), if_neg (not_not.mpr rfl)]

/-- Settles O59, by the parts of the rendered sentence: PARSE finds its body, and the body's commas separate the
address and the fields. -/
theorem parseInvertsBuild : Obligations.ParseInvertsBuild := by
  intro dflt talker sid fields S hbuild htcomma htstar hfields
  obtain ⟨htalker, hsid, hlen, rfl⟩ := build_yields_rendered _ _ _ S hbuild
  obtain ⟨hscomma, hsstar⟩ := sentenceId_noMark sid hsid
  have hcomma : ord ',' ∉ talker ++ sid := by
    rw [List.mem_append]
    exact not_or.mpr ⟨htcomma, hscomma⟩
  have hstar : ord '*' ∉ talker ++ sid ++ joinFields fields := by
    rw [List.mem_append, List.mem_append]
    exact not_or.mpr ⟨not_or.mpr ⟨htstar, hsstar⟩, joinFields_noStar fun g hg => (hfields g hg).2⟩
  have hfive : (talker ++ sid).length = 5 := by rw [List.length_append, htalker, sentenceId_length hsid]
  rw [parse_renderSentence dflt hlen hstar, parseBody_join dflt _ hcomma fun g hg => (hfields g hg).1,
    List.drop_left' htalker, List.take_left' htalker, if_neg (not_not.mpr hfive), if_neg (not_not.mpr hsid),
    joinFields_eq]

/-! ### CHECKSUM (44_nmea.md R260) -/

theorem readChars_of_lookup {s : State} {fd : Field} {S : Chars}
    (h : OpRecord.lookup s.operands fd = some (.chars S)) (hl : S.length ≤ s.cfg.maxBufChars) :
    readChars s fd = .ok S := by
  simp only [readChars, h, if_pos hl]

theorem readChars_error_of_lookup {s : State} {fd : Field} {S : Chars}
    (h : OpRecord.lookup s.operands fd = some (.chars S)) (hl : s.cfg.maxBufChars < S.length) :
    readChars s fd = .error (.operand fd) := by
  simp only [readChars, h, if_neg (not_le.mpr hl)]

theorem checksum_cons (c : Char8) (S : Chars) : checksum (c :: S) = c ^^^ checksum S := by
  rw [← List.singleton_append, checksum_append, checksum_singleton]

/-- The checksum of a string with one character replaced tells the two characters apart. -/
theorem checksum_replace_inj {P Q : Chars} {a b : Char8} (h : checksum (P ++ a :: Q) = checksum (P ++ b :: Q)) :
    a = b := by
  rw [checksum_append, checksum_append, checksum_cons, checksum_cons] at h
  exact (BitVec.xor_left_inj _).mp ((BitVec.xor_right_inj _).mp h)

/-- Settles O55, by the bound of the operand, and by cancelling in the XOR. -/
theorem checksumIsTheXorOfTheCharacters : Obligations.ChecksumIsTheXorOfTheCharacters := by
  refine ⟨rfl, fun s S hS => ⟨fun hin => ?_, fun hout => ?_⟩, fun P Q a b hab h => hab (checksum_replace_inj h)⟩
  · rw [checksum_foldr]
    exact answer_of_ok (readChars_of_lookup hS hin) (fun S => .int (checksum S).toNat) s
  · exact raises_of_error (readChars_error_of_lookup hS hout) _ s

/-! ### BUILD (44_nmea.md R262 to R264) -/

theorem exec_build {s : State} {talker sid : Chars} {fields : List Chars} (ht : readChars s .talker = .ok talker)
    (hs : readChars s .sid = .ok sid) (hf : readCharsList s .fields = .ok fields) :
    exec .build s = answer .build (build talker sid fields >>= fun S => .ok (.sentence S)) s := by
  simp only [exec, execBuild, ht, hs, hf, ok_bind, pure_ok]

/-- The length of the sentence of a talker and a sentence ID that BUILD takes (44_nmea.md R264). -/
theorem renderSentence_length_of_valid {talker sid : Chars} (fields : List Chars) (ht : talker.length = 2)
    (hs : sid ∈ sentenceIds) :
    (renderSentence talker sid fields).length = 1 + 5 + (fields.map fun g => 1 + g.length).sum + 3 + 2 := by
  rw [renderSentence_length, ht, sentenceId_length hs]

/-- The sentence with its checksum digits written out (44_nmea.md R261, R263). -/
theorem renderSentence_eq (talker sid : Chars) (fields : List Chars) {body : Chars} {x : Nat}
    (hbody : body = talker ++ sid ++ joinFields fields) (hx : x = (checksum body).toNat) :
    renderSentence talker sid fields = prefixOf sid :: body ++
      [ord '*', (ascii "0123456789ABCDEF").getD (x / 16) 0, (ascii "0123456789ABCDEF").getD (x % 16) 0, 13, 10] := by
  rw [renderSentence, ← hbody, hex2_eq, ← hx]
  simp [crlf]

/-- Settles O56, by the checks of BUILD in their order. -/
theorem buildChecksThenRenders : Obligations.BuildChecksThenRenders := by
  refine ⟨rfl, fun s talker sid fields ht hs hf => ?_⟩
  rw [exec_build ht hs hf, build, maxSentence]
  refine ⟨fun htalker => ?_, fun htalker (hsid : sid ∉ sentenceIds) => ?_,
    fun htalker (hsid : sid ∈ sentenceIds) hlong => ?_, fun htalker (hsid : sid ∈ sentenceIds) hfits => ?_⟩
  · rw [if_pos htalker]
    exact raise_operand _ _ _
  · rw [if_neg (not_not.mpr htalker), if_pos hsid]
    rfl
  · rw [if_neg (not_not.mpr htalker), if_neg (not_not.mpr hsid), renderSentence_length_of_valid fields htalker hsid,
      if_pos hlong]
    rfl
  · have hlen := renderSentence_length_of_valid fields htalker hsid
    refine ⟨_, renderSentence talker sid fields, _, rfl, rfl, ?_, hlen, ?_⟩
    · exact renderSentence_eq talker sid fields rfl (congrArg BitVec.toNat (checksum_foldr _))
    · rw [if_neg (not_not.mpr htalker), if_neg (not_not.mpr hsid), hlen, if_neg (not_lt.mpr hfits)]
      rfl

/-! ### PARSE (44_nmea.md R265, R266) -/

theorem exec_parse {s : State} {S : Chars} (h : readChars s .S = .ok S) :
    exec .parse s = answer .parse (parse s.cfg.defaultTalker S >>= fun p => .ok (.parsed p)) s := by
  simp only [exec, execParse, h, ok_bind, pure_ok]

theorem exec_parse_malformed {s : State} {S : Chars} (h : readChars s .S = .ok S)
    (hp : parse s.cfg.defaultTalker S = .error .malformedSentence) :
    exec .parse s = .next (s.failed .malformedSentence) := by
  rw [exec_parse h, hp]
  rfl

/-- Settles O58, by the three checks that refuse such a text. -/
theorem parseRefusesUnframedText : Obligations.ParseRefusesUnframedText := by
  rintro s T tail S hS rfl htail hlast hbad
  have hT := stripCrLf_append htail hlast
  refine exec_parse_malformed hS ?_
  rcases hbad with hlong | hprefix | hstar
  · exact parse_of_long _ hT hlong
  · exact parse_of_noPrefix _ hT hprefix
  · exact parse_of_noStar _ hT hstar

/-- The value of two hexadecimal digits is a checksum's exactly when the numbers are equal. -/
theorem checksum_eq_ofNat_iff {body : Chars} {n : Nat} (hn : n < 256) :
    checksum body = BitVec.ofNat 8 n ↔ n = (checksum body).toNat := by
  rw [← BitVec.toNat_inj, BitVec.toNat_ofNat, Nat.mod_eq_of_lt hn, eq_comm]

/-- PARSE's checksum check on two hexadecimal digits (44_nmea.md R261, R265). -/
theorem parseFramed_digits (dflt : TalkerId) {body : Chars} {a b : Char8} {x y : Nat} (hstar : ord '*' ∉ body)
    (ha : IsHexDigit a x) (hb : IsHexDigit b y) :
    parseFramed dflt (body ++ ord '*' :: [a, b]) =
      if 16 * x + y ≠ (checksum body).toNat then .error .checksumMismatch
      else parseBody dflt body (checksum body) := by
  have hvalue : 16 * x + y < 256 := by
    have hx := ha.lt
    have hy := hb.lt
    omega
  rw [parseFramed_of_some dflt hstar (hexPair_digits ha hb)]
  exact if_congr (not_congr (checksum_eq_ofNat_iff hvalue)) rfl rfl

/-- Settles O57, by the checks of PARSE in their order. -/
theorem parseChecksInOrder : Obligations.ParseChecksInOrder := by
  refine ⟨rfl, ?_⟩
  rintro s pre body h tail S hS rfl hpre hstar htail hlast
  rw [exec_parse hS, parse_framed _ hpre htail hlast, checksum_foldr]
  refine ⟨fun hlong => ?_, fun hfits => ?_⟩
  · rw [if_pos hlong]
    rfl
  rw [if_neg (not_lt.mpr hfits)]
  refine ⟨fun hno => ?_, ?_, ?_⟩
  · rw [parseFramed_of_none _ hstar (hexPair_eq_none hno)]
    rfl
  · rintro a b x y rfl ha hb hne
    rw [parseFramed_digits _ hstar ha hb, if_pos hne]
    rfl
  · rintro a b x y addr fields rfl ha hb heq hbody haddr hfields
    rw [parseFramed_digits _ hstar ha hb, if_neg (not_not.mpr heq)]
    generalize checksum body = sum
    rw [hbody, ← joinFields_eq, parseBody_join _ _ haddr hfields]
    refine ⟨fun hlen => ?_, fun hlen (hsid : addr.drop 2 ∉ sentenceIds) => ?_,
      fun hlen (hsid : addr.drop 2 ∈ sentenceIds) => ?_⟩
    · rw [if_pos hlen]
      rfl
    · rw [if_neg (not_not.mpr hlen), if_pos hsid]
      rfl
    · rw [if_neg (not_not.mpr hlen), if_neg (not_not.mpr hsid)]
      rfl

end Sys2Proof.Machine

/-! SUPPORT. The control operations (45_control.md R290, R291): what SEQ_READ answers, and what SEQ_WRITE writes or
refuses. -/

namespace Sys2Proof.Machine

/-- Settles O19: the result of SEQ_READ has no check that could fail, so it is answered in the state as it is. -/
theorem seqReadReturnsTheCounter : Obligations.SeqReadReturnsTheCounter := by
  refine ⟨encode_of_code rfl, fun s => ?_⟩
  rw [exec, execSeqRead, answer_ok]

theorem seqWriteValue_error {x : Int} (h : x < 0 ∨ 9 < x) : seqWriteValue x = .error (.operand .ctr) :=
  if_pos h

/-- The value SEQ_WRITE writes is the number it was given: the counter has room for every digit (45_control.md R291). -/
theorem seqCtr_ofNat_toNat {x : Int} (h : 0 ≤ x ∧ x ≤ 9) : ((BitVec.ofNat 4 x.toNat).toNat : Int) = x := by
  rw [BitVec.toNat_ofNat]
  omega

/-- SEQ_WRITE of a value it cannot write (45_control.md R291, 60_exceptions.md R308). -/
theorem exec_seqWrite_error {s : State} {x : Int} (hr : readInt s .ctr = .ok x) (hx : x < 0 ∨ 9 < x) :
    RaisesOperandError .seqWrite .ctr s (exec .seqWrite s) := by
  simp only [exec, execSeqWrite, hr, seqWriteValue_error hx, ok_bind, error_bind, answerCtr_error]
  exact raise_operand _ _ s

/-- Settles O20, by whether the value read is one of the ten the counter can take. -/
theorem seqWriteSetsTheCounterInRange : Obligations.SeqWriteSetsTheCounterInRange := by
  refine ⟨encode_of_code rfl, fun s c hr => ⟨fun hin => ?_, fun hout => ?_⟩⟩
  · exact ⟨_, seqCtr_ofNat_toNat hin, exec_seqWrite_ok hr hin⟩
  · exact exec_seqWrite_error hr hout

end Sys2Proof.Machine

/-! SUPPORT. Errors (60_exceptions.md R305, R306): a status other than OK says that the operation failed, and a failure
saves nothing. -/

namespace Sys2Proof.Machine

/-- Settles O15: of the two ways an operation ends in a next state, an answer has the status OK, and a failure has no
result and is the state the statement writes out. -/
theorem errorsLeaveTheStateUnchanged : Obligations.ErrorsLeaveTheStateUnchanged := by
  intro i s t st r ht hr hst
  rcases exec_next ht with ⟨c, v, rfl⟩ | ⟨st', -, rfl⟩
  · rw [answered_response] at hr
    cases hr
    exact absurd rfl hst
  · rw [failed_response] at hr
    cases hr
    exact ⟨rfl, rfl⟩

end Sys2Proof.Machine

/-! SUPPORT. Reset and idle steps (70_reset_and_hazards.md R330, R331): what the reset input leaves behind, and a step
with nothing presented. -/

namespace Sys2Proof.Machine

/-- With nothing presented the block waits (70_reset_and_hazards.md R331). -/
theorem step_of_idle {s : State} (hin : s.input = []) : step s = .next s := by
  simp only [step, hin]

/-- Settles O9: the transaction that a reset cuts has no part in the next state, which `State.applyReset` writes out. -/
theorem resetAndIdleSteps : Obligations.ResetAndIdleSteps := by
  refine ⟨fun s cut rest hin => ?_, fun s => step_of_idle⟩
  rw [step_of_reset hin, State.applyReset]

end Sys2Proof.Machine
